-- ==== Sys2Proof/Word.lean ====
section
/-!
DEFINITION. The word types: bytes, 24-bit frame words and three-byte frames
(00_scope.md section 4, 30_encoding.md rule R70).
-/

namespace Sys2Proof

/-- Eight bits; bit 7 is the most significant. -/
abbrev Byte := BitVec 8

/-- A 24-bit frame word; bit 23 is the most significant bit of byte 0. -/
abbrev Word24 := BitVec 24

/-- A frame: three bytes, byte 0 first (rule R70). -/
structure Frame where
  b0 : Byte
  b1 : Byte
  b2 : Byte
  deriving DecidableEq, Repr, Inhabited

end Sys2Proof
end

