-- ==== Sys2Proof/Syntax.lean ====
section
/-!
DEFINITION. The names of the hardware (channels, phases, sub-steps, delays) and its
instruction set: one constructor of `Instr` per row of spec/opcode_table.json
(30_encoding.md rules R80, R83; 45_bringup_fsm.md rule R200).
-/

namespace Sys2Proof

/-- A channel: 0 = conditioner, 1 = first synthesizer, 2 = second synthesizer (rule R13, D23). -/
inductive Chan where
  | cnd
  | syn1
  | syn2
  deriving DecidableEq, Repr, Inhabited

/-- The channel's index (rule R13). -/
def Chan.index : Chan → Nat
  | .cnd => 0
  | .syn1 => 1
  | .syn2 => 2

/-- The image replayed on a channel has the channel's name: CND, SYN1 or SYN2 (D23). -/
abbrev Img := Chan

/-- A channel that carries synthesizer frames (rule R76). -/
inductive SynChan where
  | first
  | second
  deriving DecidableEq, Repr, Inhabited

/-- The synthesizer's channel: 1 for the first, 2 for the second (rule R26). -/
def SynChan.chan : SynChan → Chan
  | .first => .syn1
  | .second => .syn2

/-- The 13 phases of the bring-up FSM (rules R11, R200). -/
inductive Phase where
  | pReset
  | pLines
  | pLineSettle
  | pOpen
  | pProgCnd
  | pSettleCnd
  | pProgSyn1
  | pSettleSyn1
  | pProgSyn2
  | pSettleSyn2
  | pClose
  | pDone
  | pFault
  deriving DecidableEq, Repr, Inhabited

/-- The sub-step register's five codes (rules R12, R200): 0 = EXPORT, OPEN, XFER and "unused";
1 = DIR, MODE, GAP; 2 = LEVEL_A, BITS; 3 = HOLD, HZ; 4 = LEVEL_B. -/
inductive Sub where
  | s0
  | s1
  | s2
  | s3
  | s4
  deriving DecidableEq, Repr, Inhabited

/-- The five named uses of the delay operation (rules R31, R165, R244). -/
inductive DelayName where
  | pulse (k : Nat)
  | lineSettle
  | txn (img : Img)
  | postCnd
  | interDev
  deriving DecidableEq, Repr, Inhabited

/-- The operations of the block, one per row of spec/opcode_table.json. Operands of codec
functions come in whole-byte containers, of which the meaning takes the named bits (rule R86,
D15); the operands of a wire frame are its fields. -/
inductive Instr where
  -- wire frames (rule R80)
  | cndWr (a : BitVec 13) (d : Byte)
  | cndRd (a : BitVec 13)
  | synWr (n : SynChan) (addr : BitVec 7) (data : BitVec 16)
  | synRd (n : SynChan) (addr : BitVec 7) (data : BitVec 16)
  -- codec functions (codes C0 to C7)
  | cndEncWr (a : BitVec 16) (d : BitVec 16)
  | cndEncRd (a : BitVec 16)
  | cndParse (f : Frame)
  | cndRdValue (r : Frame)
  | synSplit (w : BitVec 32)
  | synJoin (f : Frame)
  | synFields (w : BitVec 32)
  | synPack (rw : Byte) (addr : Byte) (data : BitVec 16)
  -- bus transport (codes T0 to T5)
  | tOpen (c : Chan)
  | tCfgMode (c : Chan)
  | tCfgBits (c : Chan)
  | tCfgHz (c : Chan)
  | tXfer (c : Chan) (f : Frame)
  | tClose (c : Chan)
  -- control lines (codes L0 to L2)
  | lExport (k : Nat)
  | lDir (k : Nat)
  | lLevel (k : Nat) (v : Bool)
  -- sequencers (codes S0 to S3)
  | sProgram (c : Chan)
  | sInitLines
  | sDelay (name : DelayName) (t : Nat)
  | sReadback
  -- phases of the bring-up FSM (codes 0 to 12)
  | pReset
  | pLines
  | pLineSettle
  | pOpen
  | pProgCnd
  | pSettleCnd
  | pProgSyn1
  | pSettleSyn1
  | pProgSyn2
  | pSettleSyn2
  | pClose
  | pDone
  | pFault
  deriving DecidableEq, Repr, Inhabited

end Sys2Proof
end

