-- ==== Sys2Proof/Config.lean ====
section
/-!
DEFINITION. What an implementation fixes (the parameters of 00_scope.md rule R3), the types of
the environment's questions and answers (10_state.md rule R32), and the free values: constants
with no body, one for each thing the spec leaves open.
-/

namespace Sys2Proof

/-- One value per channel. -/
structure Three (α : Type) where
  cnd : α
  syn1 : α
  syn2 : α
  deriving DecidableEq, Repr, Inhabited

/-- The channel's value. -/
def Three.get {α : Type} (t : Three α) : Chan → α
  | .cnd => t.cnd
  | .syn1 => t.syn1
  | .syn2 => t.syn2

/-- Replace the channel's value. -/
def Three.set {α : Type} (t : Three α) (c : Chan) (x : α) : Three α :=
  match c with
  | .cnd => { t with cnd := x }
  | .syn1 => { t with syn1 := x }
  | .syn2 => { t with syn2 := x }

/-- Clock polarity and clock phase, the two bits of a transfer mode (rule R3). -/
structure ClkMode where
  cpol : Bool
  cpha : Bool
  deriving DecidableEq, Repr, Inhabited

/-- The fixed configuration of one channel: PATH, CFG_MODE, CFG_BITS, CFG_HZ, CFG_IWD (rule R3).
A path is an opaque identifier, a rate is in hertz, a duration in microseconds. -/
structure ChanCfg where
  path : Nat
  mode : ClkMode
  bits : Nat
  hz : Nat
  iwd : Nat
  deriving DecidableEq, Repr, Inhabited

/-- A control line's fixed policy: a reset pulse, or a static level (rules R3, R184, R185). -/
inductive Policy where
  | pulse
  | static (v : Bool)
  deriving DecidableEq, Repr, Inhabited

/-- The fixed configuration of one control line: its identifier, its policy and the width of its
pulse (rule R3). -/
structure LineCfg where
  id : Nat
  policy : Policy
  tPulse : Nat
  deriving DecidableEq, Repr, Inhabited

/-- An entry of the conditioner image. The containers' widths are not in the source, so the
numbers are unbounded and only their named bits are used (rules R4, R77, D15). -/
structure CndEntry where
  addr : Nat
  data : Nat
  deriving DecidableEq, Repr, Inhabited

/-- The parameters of rule R3, fixed before the block starts and never written (rule R34).
Durations are in microseconds. N_CND and N_SYN are the images' lengths; N_CH is 3 and
FRAME_BYTES is 3 by the types `Chan` and `Frame`. -/
structure Params where
  cndImage : List CndEntry
  synImage : List Nat
  chans : Three ChanCfg
  tTxn : Three Nat
  tLineSettle : Nat
  tPostCnd : Nat
  tInterDev : Nat
  readbackEnable : Bool
  exitFatal : Nat
  csActive : Bool
  deriving DecidableEq, Repr, Inhabited

/-- A well-formed image entry: `addr < 2^13` and `data < 2^8` (rule R4). -/
def CndEntry.wf (e : CndEntry) : Bool := decide (e.addr < 2 ^ 13) && decide (e.data < 2 ^ 8)

/-- Well-formed images (rule R4). -/
def Params.imagesWf (p : Params) : Bool :=
  p.cndImage.all CndEntry.wf && p.synImage.all (fun w => decide (w < 2 ^ 24))

/-- A configuration the spec allows: EXIT_FATAL is nonzero and READBACK_ENABLE is false
(rule R3, D9, D16). -/
def Params.wf (p : Params) : Bool := decide (p.exitFatal ≠ 0) && !p.readbackEnable

/-- The three configuration steps of a channel (rule R31). -/
inductive CfgWhich where
  | mode
  | bits
  | hz
  deriving DecidableEq, Repr, Inhabited

/-- A value set in or read back from a channel (rule R105). -/
inductive CfgVal where
  | mode (m : ClkMode)
  | bits (n : Nat)
  | hz (n : Nat)
  deriving DecidableEq, Repr, Inhabited

/-- The value a configuration step sets and verifies. -/
def ChanCfg.value (p : ChanCfg) : CfgWhich → CfgVal
  | .mode => .mode p.mode
  | .bits => .bits p.bits
  | .hz => .hz p.hz

/-- An answer that says only whether the primitive worked (rule R32). -/
inductive Ans where
  | ok
  | fail
  deriving DecidableEq, Repr, Inhabited

/-- An answer to `CfgGet` (rule R32). -/
inductive GetAns where
  | value (v : CfgVal)
  | fail
  deriving DecidableEq, Repr, Inhabited

/-- The result of a transfer that was answered: a reply, a short count in 0..2, or a failure
(rules R32, R57). -/
inductive XferRes where
  | ok (r : Frame)
  | short (n : Fin 3)
  | fail
  deriving DecidableEq, Repr, Inhabited

/-- The questions of rule R32, with the arguments the block puts to the environment. -/
inductive Question where
  | lineExport (id : Nat)
  | lineSetDir (id : Nat)
  | lineSetLevel (id : Nat) (v : Bool)
  | chanOpen (path : Nat)
  | cfgSet (c : Chan) (w : CfgWhich) (v : CfgVal)
  | cfgGet (c : Chan) (w : CfgWhich)
  | xfer (c : Chan) (f : Frame)
  | chanClose (c : Chan)
  deriving DecidableEq, Repr, Inhabited

namespace Config

/-- Conditioner read/write bit of a write frame (rule R72). -/
def cndRwWrite : BitVec 1 := 0#1
/-- Conditioner read/write bit of a read frame (rule R72). -/
def cndRwRead : BitVec 1 := 1#1
/-- Synthesizer read/write bit of a write word (rules R75, R149): a constant of its own. -/
def synRwWrite : BitVec 1 := 0#1
/-- Synthesizer read/write bit of a read word (rules R75, R149): a constant of its own. -/
def synRwRead : BitVec 1 := 1#1

/-- FREE VALUE (log 5): the answer to the n-th question drawn, when it is `LineExport`, `LineSetDir`,
`ChanOpen` or `CfgSet`. -/
opaque freeAns : Nat → Question → Ans

/-- FREE VALUE (log 5): the answer to the n-th question drawn, when it is `CfgGet`. -/
opaque freeGet : Nat → Question → GetAns

/-- FREE VALUE (log 5): the answer to the n-th question drawn, when it is `Xfer`; `none` is a
transfer that never returns (rule R275). -/
opaque freeXfer : Nat → Question → Option XferRes

/-- FREE VALUE (logs 4 and 15): a frame buffer whose content the spec leaves unspecified. -/
opaque freeFrame : Nat → Frame

/-- FREE VALUE (log 4): an operand latch whose content the spec leaves unspecified. -/
opaque freeWord24 : Nat → Word24

/-- PARAMETER left open by rule R3 (log 2): PATH[c]. -/
opaque openPath : Chan → Nat

/-- PARAMETER left open by rule R3, D4 (log 2): CFG_MODE[c]. -/
opaque openMode : Chan → ClkMode

/-- PARAMETER left open by rule R3, D4 (log 2): CFG_HZ[c]. -/
opaque openHz : Chan → Nat

/-- PARAMETER left open by rule R3 (log 2): T_LINE_SETTLE. -/
opaque openLineSettle : Nat

/-- PARAMETER left open by rule R3 (log 2): T_INTER_DEV. -/
opaque openInterDev : Nat

/-- PARAMETER left open by D2 (log 2): CS_ACTIVE. -/
opaque openCsActive : Bool

/-- The channel configuration in State.reset: CFG_BITS = 8 (D4), CFG_IWD = 0 (D5), the rest open. -/
def resetChan (c : Chan) : ChanCfg :=
  { path := openPath c, mode := openMode c, bits := 8, hz := openHz c, iwd := 0 }

/-- The configuration in State.reset (log 2): rule R3's values where it gives them
(T_TXN = 0, T_POST_CND = 1 ms, READBACK_ENABLE = false, EXIT_FATAL = 1), open constants where it
gives none, and empty images: no program is loaded. -/
def resetParams : Params where
  cndImage := []
  synImage := []
  chans := ⟨resetChan .cnd, resetChan .syn1, resetChan .syn2⟩
  tTxn := ⟨0, 0, 0⟩
  tLineSettle := openLineSettle
  tPostCnd := 1000
  tInterDev := openInterDev
  readbackEnable := false
  exitFatal := 1
  csActive := openCsActive

end Config

end Sys2Proof
end

