-- ==== Sys2Proof/Machine/Operands.lean ====
section
/-!
DEFINITION. Operand assembly: the two codecs as pure functions between operands and frames
(30_encoding.md rules R71, R74, R78, R79, R86; 41_codec_conditioner.md; 42_codec_synthesizer.md).
-/

namespace Sys2Proof.Machine

/-- `word24(F) = F[0] ++ F[1] ++ F[2]`: the big-endian concatenation (rule R40). -/
def word24 (f : Frame) : Word24 := f.b0 ++ f.b1 ++ f.b2

/-- The CND24 layout (rules R71, R78): rw, two reserved bits 0, address, data. -/
def cndFrame (rw : BitVec 1) (a : BitVec 13) (d : Byte) : Frame where
  b0 := rw ++ 0#2 ++ a.extractLsb' 8 5
  b1 := a.extractLsb' 0 8
  b2 := d

/-- `cnd_enc_wr(a, d)` (rule R121). -/
def cndEncWr (a : BitVec 13) (d : Byte) : Frame := cndFrame Config.cndRwWrite a d

/-- `cnd_enc_rd(a)` (rule R123): the third byte is sent as 0x00 (rule R82). -/
def cndEncRd (a : BitVec 13) : Frame := cndFrame Config.cndRwRead a 0x00#8

/-- The read/write bit of a CND24 frame: byte 0, bit 7. -/
def cndRw (f : Frame) : BitVec 1 := f.b0.extractLsb' 7 1

/-- The reserved bits of a CND24 frame: byte 0, bits 6:5. -/
def cndRsv (f : Frame) : BitVec 2 := f.b0.extractLsb' 5 2

/-- The address of a CND24 frame: byte 0, bits 4:0, then byte 1. -/
def cndAddr (f : Frame) : BitVec 13 := f.b0.extractLsb' 0 5 ++ f.b1

/-- The data of a CND24 frame: byte 2. -/
def cndData (f : Frame) : Byte := f.b2

/-- `cnd_frame_valid(F)` (rule R124): a frame one of the two encoders can produce. -/
def cndFrameValid (f : Frame) : Bool :=
  cndRsv f == 0#2 && (cndRw f == Config.cndRwWrite || cndData f == 0x00#8)

/-- `cnd_rd_value(R) = R[2]` (rule R125). -/
def cndRdValue (r : Frame) : Byte := r.b2

/-- `syn_split(w)` (rule R141). -/
def synSplit (w : Word24) : Frame where
  b0 := w.extractLsb' 16 8
  b1 := w.extractLsb' 8 8
  b2 := w.extractLsb' 0 8

/-- `syn_join(F)` (rule R142). -/
def synJoin (f : Frame) : Word24 := word24 f

/-- The read/write bit of a synthesizer word: bit 23 (rule R143). -/
def synRw (w : Word24) : BitVec 1 := w.extractLsb' 23 1

/-- The address of a synthesizer word: bits 22:16 (rule R143). -/
def synAddr (w : Word24) : BitVec 7 := w.extractLsb' 16 7

/-- The data of a synthesizer word: bits 15:0 (rule R143). -/
def synData (w : Word24) : BitVec 16 := w.extractLsb' 0 16

/-- `syn_pack(rw, addr, data) = rw ++ addr ++ data` (rule R144). -/
def synPack (rw : BitVec 1) (addr : BitVec 7) (data : BitVec 16) : Word24 := rw ++ addr ++ data

/-- The conditioner address in an image entry: its 13 named bits (D15). -/
def cndEntryAddr (e : CndEntry) : BitVec 13 := BitVec.ofNat 13 e.addr

/-- The conditioner data in an image entry: its 8 named bits (D15). -/
def cndEntryData (e : CndEntry) : Byte := BitVec.ofNat 8 e.data

/-- The word in a synthesizer image entry: its 24 named bits (D15). -/
def synEntryWord (w : Nat) : Word24 := BitVec.ofNat 24 w

/-- The 24 bits of a frame in the order they go out on the wire: byte 0 first, each byte's most
significant bit first (rule R41, D3: general knowledge, no rule rests on it; log 27). For a word size
other than 8 the order of the bytes is not given (N6), and byte 0 first is the model's choice there
(log 33). -/
def wireBits (f : Frame) : List Bool :=
  (List.range 24).map fun i => (word24 f).getMsbD i

end Sys2Proof.Machine
end

