-- ==== Sys2Proof/WellFormed.lean ====
section
/-!
DEFINITION. Which instructions can be written as an operation word: a line index fits the
two bytes the model's operation words give it and a duration its four (log 9). The fields of
every other operand are bounded by their types.
-/

namespace Sys2Proof

/-- A line index fits an operand of two bytes. -/
def lineIndexFits (k : Nat) : Bool := decide (k < 2 ^ 16)

/-- A duration fits an operand of four bytes. -/
def durationFits (t : Nat) : Bool := decide (t < 2 ^ 32)

/-- A delay's name fits its operand bytes. -/
def DelayName.wf : DelayName → Bool
  | .pulse k => lineIndexFits k
  | .lineSettle => true
  | .txn _ => true
  | .postCnd => true
  | .interDev => true

/-- Well-formed instructions: those `encode` can write. -/
def Instr.wf : Instr → Bool
  | .lExport k => lineIndexFits k
  | .lDir k => lineIndexFits k
  | .lLevel k _ => lineIndexFits k
  | .sDelay name t => name.wf && durationFits t
  | .cndWr _ _ => true
  | .cndRd _ => true
  | .synWr _ _ _ => true
  | .synRd _ _ _ => true
  | .cndEncWr _ _ => true
  | .cndEncRd _ => true
  | .cndParse _ => true
  | .cndRdValue _ => true
  | .synSplit _ => true
  | .synJoin _ => true
  | .synFields _ => true
  | .synPack _ _ _ => true
  | .tOpen _ => true
  | .tCfgMode _ => true
  | .tCfgBits _ => true
  | .tCfgHz _ => true
  | .tXfer _ _ => true
  | .tClose _ => true
  | .sProgram _ => true
  | .sInitLines => true
  | .sReadback => true
  | .pReset => true
  | .pLines => true
  | .pLineSettle => true
  | .pOpen => true
  | .pProgCnd => true
  | .pSettleCnd => true
  | .pProgSyn1 => true
  | .pSettleSyn1 => true
  | .pProgSyn2 => true
  | .pSettleSyn2 => true
  | .pClose => true
  | .pDone => true
  | .pFault => true

end Sys2Proof
end

