-- ==== Sys2Proof/Decode.lean ====
section
/-!
DEFINITION. The decoder, total on any bytes and rejecting by name, and the encoder.

Three encodings exist, told apart by where the bytes stand, never by the bytes (rule R76):
a phase code in the phase register (format PHASE4), an operation word at the operation port
(format OP8: the code byte of rule R83, then operand bytes laid out by log 9), and a 24-bit
frame on a channel (formats CND24 and SYN24, rule R80).
-/

namespace Sys2Proof

/-- Where the bytes of an instruction stand; it decides their format (rules R76, R83). -/
inductive Port where
  | phase4
  | op8
  | wire (c : Chan)
  deriving DecidableEq, Repr, Inhabited

/-- Why bytes are no instruction. -/
inductive DecodeErr where
  /-- No byte at all. -/
  | empty
  /-- Fewer operand bytes than the operation takes. -/
  | truncated
  /-- An operation code rule R83 does not list. -/
  | unknownOperation
  /-- A channel operand above 2 (rule R13). -/
  | badChannel
  /-- A delay name operand above 4 (rule R165). -/
  | badDelayName
  /-- A level operand other than 0 or 1 (rule R183). -/
  | badLevel
  /-- Operand bytes the delay name does not use are not 0 (log 9). -/
  | reservedOperand
  /-- A frame that is not exactly three bytes (rule R70). -/
  | frameLength
  /-- A CND24 frame with reserved bits set (rules R73, R81, U1). -/
  | reservedBits
  /-- A phase code above 12 (rule R200). -/
  | noSuchPhase
  deriving DecidableEq, Repr, Inhabited

/-- The phase's 4-bit code (rule R200). -/
def Phase.code : Phase → Byte
  | .pReset => 0x0
  | .pLines => 0x1
  | .pLineSettle => 0x2
  | .pOpen => 0x3
  | .pProgCnd => 0x4
  | .pSettleCnd => 0x5
  | .pProgSyn1 => 0x6
  | .pSettleSyn1 => 0x7
  | .pProgSyn2 => 0x8
  | .pSettleSyn2 => 0x9
  | .pClose => 0xA
  | .pDone => 0xB
  | .pFault => 0xC

/-- The phase with a given code (rule R200). -/
def phaseOfCode (b : Byte) : Option Phase :=
  match b.toNat with
  | 0x0 => some .pReset
  | 0x1 => some .pLines
  | 0x2 => some .pLineSettle
  | 0x3 => some .pOpen
  | 0x4 => some .pProgCnd
  | 0x5 => some .pSettleCnd
  | 0x6 => some .pProgSyn1
  | 0x7 => some .pSettleSyn1
  | 0x8 => some .pProgSyn2
  | 0x9 => some .pSettleSyn2
  | 0xA => some .pClose
  | 0xB => some .pDone
  | 0xC => some .pFault
  | _ => none

/-- The instruction a phase performs. -/
def Phase.instr : Phase → Instr
  | .pReset => .pReset
  | .pLines => .pLines
  | .pLineSettle => .pLineSettle
  | .pOpen => .pOpen
  | .pProgCnd => .pProgCnd
  | .pSettleCnd => .pSettleCnd
  | .pProgSyn1 => .pProgSyn1
  | .pSettleSyn1 => .pSettleSyn1
  | .pProgSyn2 => .pProgSyn2
  | .pSettleSyn2 => .pSettleSyn2
  | .pClose => .pClose
  | .pDone => .pDone
  | .pFault => .pFault

/-- A channel operand byte. -/
def chanOfByte (b : Byte) : Except DecodeErr Chan :=
  match b.toNat with
  | 0 => .ok .cnd
  | 1 => .ok .syn1
  | 2 => .ok .syn2
  | _ => .error .badChannel

/-- The operand byte of a channel. -/
def byteOfChan (c : Chan) : Byte := BitVec.ofNat 8 c.index

/-- A level operand byte. -/
def levelOfByte (b : Byte) : Except DecodeErr Bool :=
  match b.toNat with
  | 0 => .ok false
  | 1 => .ok true
  | _ => .error .badLevel

/-- The operand byte of a level. -/
def byteOfLevel (v : Bool) : Byte := if v then 1#8 else 0#8

/-- Two operand bytes, most significant first. -/
def of16 (hi lo : Byte) : BitVec 16 := hi ++ lo

/-- The two operand bytes of a 16-bit value, most significant first. -/
def bytes16 (v : BitVec 16) : List Byte := [v.extractLsb' 8 8, v.extractLsb' 0 8]

/-- Four operand bytes, most significant first. -/
def of32 (x3 x2 x1 x0 : Byte) : BitVec 32 := x3 ++ x2 ++ x1 ++ x0

/-- The four operand bytes of a 32-bit value, most significant first. -/
def bytes32 (v : BitVec 32) : List Byte :=
  [v.extractLsb' 24 8, v.extractLsb' 16 8, v.extractLsb' 8 8, v.extractLsb' 0 8]

/-- A delay name operand: its code, and the two bytes of its line or image index. -/
def delayNameOf (code hi lo : Byte) : Except DecodeErr DelayName :=
  match code.toNat with
  | 0 => .ok (.pulse (of16 hi lo).toNat)
  | 1 => if of16 hi lo = 0#16 then .ok .lineSettle else .error .reservedOperand
  | 2 => if hi = 0#8 then (chanOfByte lo).map .txn else .error .reservedOperand
  | 3 => if of16 hi lo = 0#16 then .ok .postCnd else .error .reservedOperand
  | 4 => if of16 hi lo = 0#16 then .ok .interDev else .error .reservedOperand
  | _ => .error .badDelayName

/-- The three operand bytes of a delay name. -/
def bytesOfDelayName : DelayName → List Byte
  | .pulse k => 0#8 :: bytes16 (BitVec.ofNat 16 k)
  | .lineSettle => [1#8, 0#8, 0#8]
  | .txn img => [2#8, 0#8, byteOfChan img]
  | .postCnd => [3#8, 0#8, 0#8]
  | .interDev => [4#8, 0#8, 0#8]

/-- Decode an operation word: the code byte of rule R83, then the operand bytes of log 9. Bytes
after the operands are not looked at. -/
def decodeOp (bs : List Byte) : Except DecodeErr Instr :=
  match bs with
  | [] => .error .empty
  | code :: args =>
    match code.toNat with
    | 0x00 => match args with
      | a1 :: a0 :: d1 :: d0 :: _ => .ok (.cndEncWr (of16 a1 a0) (of16 d1 d0))
      | _ => .error .truncated
    | 0x01 => match args with
      | a1 :: a0 :: _ => .ok (.cndEncRd (of16 a1 a0))
      | _ => .error .truncated
    | 0x02 => match args with
      | b0 :: b1 :: b2 :: _ => .ok (.cndParse ⟨b0, b1, b2⟩)
      | _ => .error .truncated
    | 0x03 => match args with
      | b0 :: b1 :: b2 :: _ => .ok (.cndRdValue ⟨b0, b1, b2⟩)
      | _ => .error .truncated
    | 0x04 => match args with
      | w3 :: w2 :: w1 :: w0 :: _ => .ok (.synSplit (of32 w3 w2 w1 w0))
      | _ => .error .truncated
    | 0x05 => match args with
      | b0 :: b1 :: b2 :: _ => .ok (.synJoin ⟨b0, b1, b2⟩)
      | _ => .error .truncated
    | 0x06 => match args with
      | w3 :: w2 :: w1 :: w0 :: _ => .ok (.synFields (of32 w3 w2 w1 w0))
      | _ => .error .truncated
    | 0x07 => match args with
      | rw :: addr :: d1 :: d0 :: _ => .ok (.synPack rw addr (of16 d1 d0))
      | _ => .error .truncated
    | 0x10 => match args with
      | c :: _ => (chanOfByte c).map .tOpen
      | _ => .error .truncated
    | 0x11 => match args with
      | c :: _ => (chanOfByte c).map .tCfgMode
      | _ => .error .truncated
    | 0x12 => match args with
      | c :: _ => (chanOfByte c).map .tCfgBits
      | _ => .error .truncated
    | 0x13 => match args with
      | c :: _ => (chanOfByte c).map .tCfgHz
      | _ => .error .truncated
    | 0x14 => match args with
      | c :: b0 :: b1 :: b2 :: _ => (chanOfByte c).map fun c => .tXfer c ⟨b0, b1, b2⟩
      | _ => .error .truncated
    | 0x15 => match args with
      | c :: _ => (chanOfByte c).map .tClose
      | _ => .error .truncated
    | 0x20 => match args with
      | k1 :: k0 :: _ => .ok (.lExport (of16 k1 k0).toNat)
      | _ => .error .truncated
    | 0x21 => match args with
      | k1 :: k0 :: _ => .ok (.lDir (of16 k1 k0).toNat)
      | _ => .error .truncated
    | 0x22 => match args with
      | k1 :: k0 :: v :: _ => (levelOfByte v).map (.lLevel (of16 k1 k0).toNat)
      | _ => .error .truncated
    | 0x30 => match args with
      | c :: _ => (chanOfByte c).map .sProgram
      | _ => .error .truncated
    | 0x31 => .ok .sInitLines
    | 0x32 => match args with
      | n :: k1 :: k0 :: t3 :: t2 :: t1 :: t0 :: _ =>
        (delayNameOf n k1 k0).map fun name => .sDelay name (of32 t3 t2 t1 t0).toNat
      | _ => .error .truncated
    | 0x33 => .ok .sReadback
    | _ => .error .unknownOperation

/-- Decode a phase code (format PHASE4, rule R200). -/
def decodePhase (bs : List Byte) : Except DecodeErr Instr :=
  match bs with
  | [] => .error .empty
  | b :: _ =>
    match phaseOfCode b with
    | some p => .ok p.instr
    | none => .error .noSuchPhase

/-- A conditioner frame (rule R80). Reserved bits set: reserved (R81 a). A read whose third byte
is not 0x00 means the same read (R81 b, R82). -/
def decodeCnd (f : Frame) : Except DecodeErr Instr :=
  if Machine.cndRsv f ≠ 0#2 then .error .reservedBits
  else if Machine.cndRw f = Config.cndRwWrite then
    .ok (.cndWr (Machine.cndAddr f) (Machine.cndData f))
  else .ok (.cndRd (Machine.cndAddr f))

/-- A synthesizer frame: every 24-bit word is a write or a read (rules R80, R81 c). -/
def decodeSyn (n : SynChan) (f : Frame) : Except DecodeErr Instr :=
  let w := Machine.synJoin f
  if Machine.synRw w = Config.synRwWrite then
    .ok (.synWr n (Machine.synAddr w) (Machine.synData w))
  else .ok (.synRd n (Machine.synAddr w) (Machine.synData w))

/-- Decode a frame on a channel: the channel decides the format (rule R76). -/
def decodeWire (c : Chan) (bs : List Byte) : Except DecodeErr Instr :=
  match bs with
  | [] => .error .empty
  | [b0, b1, b2] =>
    match c with
    | .cnd => decodeCnd ⟨b0, b1, b2⟩
    | .syn1 => decodeSyn .first ⟨b0, b1, b2⟩
    | .syn2 => decodeSyn .second ⟨b0, b1, b2⟩
  | _ => .error .frameLength

/-- The decoder: total on any bytes at any port. -/
def decode (p : Port) (bs : List Byte) : Except DecodeErr Instr :=
  match p with
  | .phase4 => decodePhase bs
  | .op8 => decodeOp bs
  | .wire c => decodeWire c bs

/-- The three bytes of a frame, byte 0 first. -/
def frameBytes (f : Frame) : List Byte := [f.b0, f.b1, f.b2]

/-- Where an instruction's words stand. -/
def Instr.port : Instr → Port
  | .cndWr _ _ => .wire .cnd
  | .cndRd _ => .wire .cnd
  | .synWr n _ _ => .wire n.chan
  | .synRd n _ _ => .wire n.chan
  | .pReset => .phase4
  | .pLines => .phase4
  | .pLineSettle => .phase4
  | .pOpen => .phase4
  | .pProgCnd => .phase4
  | .pSettleCnd => .phase4
  | .pProgSyn1 => .phase4
  | .pSettleSyn1 => .phase4
  | .pProgSyn2 => .phase4
  | .pSettleSyn2 => .phase4
  | .pClose => .phase4
  | .pDone => .phase4
  | .pFault => .phase4
  | .cndEncWr _ _ => .op8
  | .cndEncRd _ => .op8
  | .cndParse _ => .op8
  | .cndRdValue _ => .op8
  | .synSplit _ => .op8
  | .synJoin _ => .op8
  | .synFields _ => .op8
  | .synPack _ _ _ => .op8
  | .tOpen _ => .op8
  | .tCfgMode _ => .op8
  | .tCfgBits _ => .op8
  | .tCfgHz _ => .op8
  | .tXfer _ _ => .op8
  | .tClose _ => .op8
  | .lExport _ => .op8
  | .lDir _ => .op8
  | .lLevel _ _ => .op8
  | .sProgram _ => .op8
  | .sInitLines => .op8
  | .sDelay _ _ => .op8
  | .sReadback => .op8

/-- The encoder, from the same tables (rules R78, R79, R83, R200; log 9). -/
def encode : Instr → List Byte
  | .cndWr a d => frameBytes (Machine.cndEncWr a d)
  | .cndRd a => frameBytes (Machine.cndEncRd a)
  | .synWr _ addr data => frameBytes (Machine.synSplit (Machine.synPack Config.synRwWrite addr data))
  | .synRd _ addr data => frameBytes (Machine.synSplit (Machine.synPack Config.synRwRead addr data))
  | .cndEncWr a d => 0x00#8 :: (bytes16 a ++ bytes16 d)
  | .cndEncRd a => 0x01#8 :: bytes16 a
  | .cndParse f => 0x02#8 :: frameBytes f
  | .cndRdValue r => 0x03#8 :: frameBytes r
  | .synSplit w => 0x04#8 :: bytes32 w
  | .synJoin f => 0x05#8 :: frameBytes f
  | .synFields w => 0x06#8 :: bytes32 w
  | .synPack rw addr data => 0x07#8 :: rw :: addr :: bytes16 data
  | .tOpen c => [0x10#8, byteOfChan c]
  | .tCfgMode c => [0x11#8, byteOfChan c]
  | .tCfgBits c => [0x12#8, byteOfChan c]
  | .tCfgHz c => [0x13#8, byteOfChan c]
  | .tXfer c f => 0x14#8 :: byteOfChan c :: frameBytes f
  | .tClose c => [0x15#8, byteOfChan c]
  | .lExport k => 0x20#8 :: bytes16 (BitVec.ofNat 16 k)
  | .lDir k => 0x21#8 :: bytes16 (BitVec.ofNat 16 k)
  | .lLevel k v => 0x22#8 :: (bytes16 (BitVec.ofNat 16 k) ++ [byteOfLevel v])
  | .sProgram c => [0x30#8, byteOfChan c]
  | .sInitLines => [0x31#8]
  | .sDelay name t => 0x32#8 :: (bytesOfDelayName name ++ bytes32 (BitVec.ofNat 32 t))
  | .sReadback => [0x33#8]
  | .pReset => [Phase.pReset.code]
  | .pLines => [Phase.pLines.code]
  | .pLineSettle => [Phase.pLineSettle.code]
  | .pOpen => [Phase.pOpen.code]
  | .pProgCnd => [Phase.pProgCnd.code]
  | .pSettleCnd => [Phase.pSettleCnd.code]
  | .pProgSyn1 => [Phase.pProgSyn1.code]
  | .pSettleSyn1 => [Phase.pSettleSyn1.code]
  | .pProgSyn2 => [Phase.pProgSyn2.code]
  | .pSettleSyn2 => [Phase.pSettleSyn2.code]
  | .pClose => [Phase.pClose.code]
  | .pDone => [Phase.pDone.code]
  | .pFault => [Phase.pFault.code]

/-- The longest operation word: `S.DELAY`, eight bytes. -/
def maxOpBytes : Nat := 8

/-- An operation word given by its code byte alone: every operand byte is 0. -/
def opWindow (w : Nat) : List Byte := BitVec.ofNat 8 w :: List.replicate (maxOpBytes - 1) 0#8

/-- Where a word of spec/opcode_table.json stands, and its bytes. The table's three formats
overlap as bare numbers, so the choice is by length and then by the formats themselves (log 10):
up to 4 bits a phase; up to 8 bits an operation code where there is one, else a phase; otherwise a
24-bit frame, on channel 0 where its reserved bits are 0, else on channel 1. -/
def tableWord (nbits w : Nat) : Port × List Byte :=
  if nbits ≤ 4 then (.phase4, [BitVec.ofNat 8 w])
  else if nbits ≤ 8 then
    match decodeOp (opWindow w) with
    | .ok _ => (.op8, opWindow w)
    | .error _ => (.phase4, [BitVec.ofNat 8 w])
  else
    let f := Machine.synSplit (BitVec.ofNat 24 w)
    if Machine.cndRsv f = 0#2 then (.wire .cnd, frameBytes f) else (.wire .syn1, frameBytes f)

/-- The instruction the decoder reads from a table word. -/
def decodeTableWord (nbits w : Nat) : Option Instr :=
  match decode (tableWord nbits w).1 (tableWord nbits w).2 with
  | .ok i => some i
  | .error _ => none

end Sys2Proof
end

