-- ==== Sys2Proof/Machine/State.lean ====
section
/-!
DEFINITION. The machine's state as plain data, holding everything the spec gives the block
(10_state.md), the reasons a step can stop, and the state after reset (70_reset_and_hazards.md
rule R260).
-/

namespace Sys2Proof.Machine

/-- One channel, the source's `BusChannel` (rule R20). -/
structure Channel where
  isOpen : Bool
  mode : Option ClkMode
  bits : Option Nat
  hz : Option Nat
  iwd : Option Nat
  deriving DecidableEq, Repr, Inhabited

/-- A channel at reset (rules R20, R260). -/
def Channel.fresh : Channel := { isOpen := false, mode := none, bits := none, hz := none, iwd := none }

/-- A line's direction: never set, or output (rule R23). -/
inductive Dir where
  | unset
  | out
  deriving DecidableEq, Repr, Inhabited

/-- One control line: its fixed configuration, and the state rule R23 gives it (`level = none`
is UNSET). `exportedNow` and `dirNow` are the model's own: whether `L.EXPORT` and `L.DIR` succeeded
in this run, which the preconditions of rules R182 and R183 ask (log 14). -/
structure Line where
  cfg : LineCfg
  exported : Bool
  dir : Dir
  level : Option Bool
  exportedNow : Bool
  dirNow : Bool
  deriving DecidableEq, Repr, Inhabited

/-- The four error kinds (rule R230). -/
inductive ErrKind where
  | channelOpen
  | channelConfig
  | transaction
  | lineSetup
  deriving DecidableEq, Repr, Inhabited

/-- The step that failed, in a diagnostic record (rule R231). -/
inductive DiagWhich where
  | cfg (w : CfgWhich)
  | lineExport
  | lineDir
  deriving DecidableEq, Repr, Inhabited

/-- A diagnostic record `(code, kind, chan, which, index)`, unused fields empty (rule R231). -/
structure Diag where
  code : Nat
  kind : ErrKind
  chan : Option Chan
  which : Option DiagWhich
  index : Option Nat
  deriving DecidableEq, Repr, Inhabited

/-- The result recorded by a configuration step (rules R31, R105). -/
inductive CfgRes where
  | verified
  | setFailed
  | getFailed
  | mismatch (v : CfgVal)
  deriving DecidableEq, Repr, Inhabited

/-- The events of the trace (rule R31). -/
inductive Event where
  | lineExport (k : Nat) (a : Ans)
  | lineDir (k : Nat) (a : Ans)
  | lineLevel (k : Nat) (v : Bool)
  | delay (name : DelayName) (t : Nat)
  | chanOpen (c : Chan) (a : Ans)
  | cfg (c : Chan) (w : CfgWhich) (v : CfgVal) (r : CfgRes)
  | xfer (c : Chan) (f : Frame) (r : XferRes)
  | close (c : Chan)
  | diag (d : Diag)
  | exit (status : Nat)
  deriving DecidableEq, Repr, Inhabited

/-- A device register space: a list of (register, value) pairs in canonical form. For the
conditioner, whose registers hold a byte, it is a list of `Host.Cell`. -/
abbrev Mem (w : Nat) := List (Nat × BitVec w)

/-- Which environment answers (rules R32, R52). -/
inductive EnvKind where
  /-- The free oracle of rule R32, against which claims are stated. -/
  | oracle
  /-- The ideal device of rule R52, for examples. -/
  | ideal
  deriving DecidableEq, Repr, Inhabited

/-- The environment (logs 5 and 16): the answers it has queued for each question, the counter of
the free values drawn where no answer is queued, and the ideal device's register spaces.
`none` in the queue of transfers is a transfer that never returns (rule R275). -/
structure Env where
  kind : EnvKind
  lineExport : List Ans
  lineSetDir : List Ans
  chanOpen : List Ans
  cfgSet : List Ans
  cfgGet : List GetAns
  xfer : List (Option XferRes)
  draws : Nat
  devCnd : Mem 8
  devSyn1 : Mem 16
  devSyn2 : Mem 16
  deriving DecidableEq, Repr, Inhabited

/-- An operation requested from outside the FSM: an operation word, or a frame on a channel
(log 8). -/
inductive Request where
  | op8 (bytes : List Byte)
  | wire (c : Chan) (bytes : List Byte)
  deriving DecidableEq, Repr, Inhabited

/-- What an operation-level call returned to its caller (log 11). -/
inductive Ret where
  | none
  | frame (f : Frame)
  | cndFields (rw : BitVec 1) (rsv : BitVec 2) (addr : BitVec 13) (data : Byte) (valid : Bool)
  | byte (v : Byte)
  | word (w : Word24)
  | synFields (rw : BitVec 1) (addr : BitVec 7) (data : BitVec 16)
  | xfer (r : XferRes)
  | value (v : Byte)
  deriving DecidableEq, Repr, Inhabited

/-- A transfer that was asked for (rule R106). -/
structure XferReq where
  chan : Chan
  frame : Frame
  deriving DecidableEq, Repr, Inhabited

/-- Reasons the machine stops with a fault: an access outside an address space of the block. -/
inductive Fault where
  /-- Raised by `L.EXPORT`, `L.DIR`, `L.LEVEL` and `P_LINES` for a line index `>= N_LINES`: the
  control-line space has no such line (rule R28). Safe: the model stops (log 30). -/
  | noSuchLine (k : Nat)
  /-- Raised by the replay phases for an index beyond the image: the image space has no such entry
  (rules R14, R27). Safe: no run reaches it (log 30). -/
  | noSuchEntry (c : Chan) (idx : Nat)
  deriving DecidableEq, Repr

/-- Reasons a step has no meaning. -/
inductive Refusal where
  /-- Raised only by an arm of `exec` whose instruction has no meaning yet. Safe. -/
  | notModelled (mnemonic : String)
  /-- Raised by `step` when the bytes fetched are no instruction (rules R81, U1; log 9). Safe. -/
  | undecodable (why : DecodeErr)
  /-- Raised by `T.OPEN` on a channel that is open: its precondition fails (rule R101). Safe. -/
  | channelAlreadyOpen (c : Chan)
  /-- Raised by `T.OPEN` on a channel closed earlier in this run: it is not opened again in the same
  run (rule R22). Safe. -/
  | channelReleased (c : Chan)
  /-- Raised by `T.CFG_MODE`, `T.CFG_BITS`, `T.CFG_HZ` out of order (preconditions of rules R102,
  R103, R104). Safe. -/
  | configOutOfOrder (c : Chan) (w : CfgWhich)
  /-- Raised by `T.XFER` and everything built on it when the channel is not configured (rule R106,
  D18, U16). Safe. -/
  | channelNotConfigured (c : Chan)
  /-- Raised by `T.CLOSE` on a channel that is not open (precondition of rule R107). Safe. -/
  | channelNotOpen (c : Chan)
  /-- Raised by `L.DIR` on a line not exported in this run (precondition of rule R182). Safe. -/
  | lineNotExported (k : Nat)
  /-- Raised by `L.LEVEL` on a line not made an output in this run (precondition of rule R183). Safe. -/
  | lineNotOutput (k : Nat)
  /-- Raised by a phase whose sub-step register holds a code the phase does not have (rules R12,
  R200). Safe: no run reaches it (log 20). -/
  | illegalSub (p : Phase) (sub : Sub)
  /-- Raised by `S.READBACK` while READBACK_ENABLE is false: the path is disabled by design (rule
  R215). Safe. -/
  | readbackDisabled
  /-- Raised by `S.READBACK` and by a start while READBACK_ENABLE is true: the model refuses that
  value (rule R215, D16, U15). Safe. -/
  | readbackEnabled
  deriving DecidableEq, Repr

/-- A reason to stop before anything is done. -/
inductive Stop where
  | fault (f : Fault)
  | refuse (r : Refusal)
  deriving DecidableEq, Repr

/-- The machine's state. INVENTORY.md's `State` section names the rule of each field. -/
structure State where
  /-- The FSM phase (rule R11). -/
  phase : Phase
  /-- The sub-step (rule R12). -/
  sub : Sub
  /-- The line being set up (rule R13). -/
  li : Nat
  /-- The channel being opened (rule R13). -/
  ci : Chan
  /-- The next image entry (rule R14). -/
  idx : Nat
  /-- The transmit frame buffer (rule R15). -/
  txf : Frame
  /-- The receive frame buffer (rule R15). -/
  rxf : Frame
  /-- The conditioner address latch (rule R16). -/
  opA : BitVec 13
  /-- The conditioner data latch (rule R16). -/
  opD : Byte
  /-- The synthesizer word latch (rule R16). -/
  opW : Word24
  /-- The exit status (rule R18). -/
  exitStatus : Option Nat
  /-- The count of non-fatal errors (rule R19). -/
  txnErrCount : Nat
  /-- The most recent diagnostic record (rule R19). -/
  lastErr : Option Diag
  /-- The three channels (rule R20). -/
  ch : Three Channel
  /-- The control lines, with their configuration (rules R23, R28); N_LINES is the length. -/
  lines : List Line
  /-- The ghost trace (rule R30). -/
  trace : List Event
  /-- The transfer that was asked for and never answered (rule R275), if there is one. -/
  hung : Option XferReq
  /-- The `start` input (rule R201). -/
  pinStart : Bool
  /-- The `reset` input (rule R261). -/
  pinReset : Bool
  /-- The configuration, which no step changes (rules R3, R34; log 1). -/
  cfg : Params
  /-- The environment (rule R32; log 5). -/
  env : Env
  /-- Operations requested from outside the FSM (log 8). -/
  ops : List Request
  /-- What the last operation-level call returned (log 11). -/
  ret : Ret
  deriving DecidableEq, Repr, Inhabited

/-- The free oracle with nothing queued (log 5). -/
def Env.reset : Env where
  kind := .oracle
  lineExport := []
  lineSetDir := []
  chanOpen := []
  cfgSet := []
  cfgGet := []
  xfer := []
  draws := 0
  devCnd := []
  devSyn1 := []
  devSyn2 := []

/-- The state right after reset (rule R260). The registers the spec leaves unspecified are 0
(log 3), the lines and images are empty and the open parameters are constants with no body
(log 2), `start` is asserted and `reset` is not (log 17). -/
def State.reset : State where
  phase := .pReset
  sub := .s0
  li := 0
  ci := .cnd
  idx := 0
  txf := ⟨0, 0, 0⟩
  rxf := ⟨0, 0, 0⟩
  opA := 0
  opD := 0
  opW := 0
  exitStatus := none
  txnErrCount := 0
  lastErr := none
  ch := ⟨Channel.fresh, Channel.fresh, Channel.fresh⟩
  lines := []
  trace := []
  hung := none
  pinStart := true
  pinReset := false
  cfg := Config.resetParams
  env := Env.reset
  ops := []
  ret := .none

end Sys2Proof.Machine
end

