-- ==== Sys2Proof/Machine/Flags.lean ====
section
/-!
DEFINITION. Status: the flags and predicates derived from the state (10_state.md rules R17, R21,
R28; 45_bringup_fsm.md rules R213, R214, R217).
-/

namespace Sys2Proof.Machine

/-- `done`: 1 exactly when the phase is P_DONE (rule R17). -/
def State.done (s : State) : Bool := s.phase == .pDone

/-- `fault`: 1 exactly when the phase is P_FAULT (rule R17). -/
def State.fault (s : State) : Bool := s.phase == .pFault

/-- A run has ended (rule R217): a hang is not an end. -/
def State.ended (s : State) : Bool := s.done || s.fault

/-- N_LINES (rule R3). -/
def State.nLines (s : State) : Nat := s.lines.length

/-- The length of the image replayed on a channel: N_CND, or N_SYN for both synthesizers (rules
R27, R168). -/
def State.imageLength (s : State) : Chan → Nat
  | .cnd => s.cfg.cndImage.length
  | .syn1 => s.cfg.synImage.length
  | .syn2 => s.cfg.synImage.length

/-- `configured(c)` over a channel and its configuration (rule R21). -/
def channelConfigured (h : Channel) (p : ChanCfg) : Bool :=
  h.isOpen && h.mode == some p.mode && h.bits == some p.bits && h.hz == some p.hz

/-- `configured(c)` (rule R21). -/
def State.configured (s : State) (c : Chan) : Bool :=
  channelConfigured (s.ch.get c) (s.cfg.chans.get c)

/-- The identifier by which a line is named to the environment (rule R28). -/
def State.lineId (s : State) (k : Nat) : Nat :=
  match s.lines[k]? with
  | some l => l.cfg.id
  | none => 0

end Sys2Proof.Machine
end

