-- ==== Sys2Proof/Machine/Ops.lean ====
section
/-!
DEFINITION. The named operations over the state that every meaning shares: the trace, channels
and lines, the device register spaces, the environment's answers, the error entries of
60_exceptions.md and the reset input of 70_reset_and_hazards.md.
-/

namespace Sys2Proof.Machine

/-! ### Outcomes -/

/-- What an operation leaves: the state, and whether its caller goes on. `go = false` after a fatal
entry and after a transfer that is never answered. -/
structure Eff where
  st : State
  go : Bool
  deriving DecidableEq, Repr

/-- Do the next operation, unless the one before ended the run (rule R108: "stopping at the first
raise"). -/
def Eff.andThen (e : Eff) (f : State → Eff) : Eff := if e.go then f e.st else e

/-- Write a few registers after an operation, unless it ended the run. -/
def Eff.update (e : Eff) (f : State → State) : State := if e.go then f e.st else e.st

/-- Answer with a next state, or stop before anything is done. -/
def guarded (stop : Option Stop) (t : State) : Host.Outcome State Fault Refusal :=
  match stop with
  | none => .next t
  | some (.fault f) => .fault f
  | some (.refuse r) => .refused r

/-! ### The trace, channels and lines -/

/-- `emit ev` (rule R30). -/
def State.emit (s : State) (ev : Event) : State := { s with trace := s.trace ++ [ev] }

/-- Write one channel. -/
def State.setCh (s : State) (c : Chan) (h : Channel) : State := { s with ch := s.ch.set c h }

/-- Write one control line; an index beyond the list names no line. -/
def State.modifyLine (s : State) (k : Nat) (f : Line → Line) : State :=
  { s with lines := s.lines.modify k f }

/-- Replace the environment, after it answered. -/
def State.setEnv (s : State) (e : Env) : State := { s with env := e }

/-- `S.DELAY(name, T)`: the event, and nothing else (rule R165). -/
def State.delay (s : State) (name : DelayName) (t : Nat) : State := s.emit (.delay name t)

/-! ### Device register spaces (rules R25, R26, R52) -/

/-- Read one register; a register not listed holds 0 (rule R52: "all entries initially 0"). -/
def memRead {w : Nat} (m : Mem w) (a : Nat) : BitVec w :=
  match m with
  | [] => 0#w
  | (b, x) :: rest => if a = b then x else memRead rest a

/-- Put a register in front of a list, unless it holds what an unlisted register reads as. -/
def memCons {w : Nat} (a : Nat) (v : BitVec w) (m : Mem w) : Mem w :=
  if v = 0#w then m else (a, v) :: m

/-- Write one register, keeping the canonical form. -/
def memWrite {w : Nat} (m : Mem w) (a : Nat) (v : BitVec w) : Mem w :=
  match m with
  | [] => memCons a v []
  | (b, x) :: rest =>
    if a < b then memCons a v ((b, x) :: rest)
    else if a = b then memCons a v rest
    else (b, x) :: memWrite rest a v

/-- Canonical form: registers strictly rising from `low` and below `size`, none listed with 0. -/
def memWfFrom {w : Nat} (size low : Nat) (m : Mem w) : Bool :=
  match m with
  | [] => true
  | (b, x) :: rest =>
    decide (low ≤ b) && decide (b < size) && decide (x ≠ 0#w) && memWfFrom size (b + 1) rest

/-- The canonical form of a register space of `size` registers. -/
def memWf {w : Nat} (size : Nat) (m : Mem w) : Bool := memWfFrom size 0 m

/-- The three device spaces are canonical: 2^13 registers of the conditioner, 2^7 of each
synthesizer (rules R25, R26). -/
def Env.devicesWf (e : Env) : Bool :=
  memWf (2 ^ 13) e.devCnd && memWf (2 ^ 7) e.devSyn1 && memWf (2 ^ 7) e.devSyn2

/-! ### The environment's answers (rules R32, R52)

For each question, what the environment answers and the environment after it has answered. The
oracle gives the answer queued first, or, where none is queued, a free value drawn at the counter. -/

/-- The answer: the ideal device's, the one queued first, or the free value. -/
def answerOf {α : Type} (kind : EnvKind) (ideal : α) (queue : List α) (free : α) : α :=
  match kind with
  | .ideal => ideal
  | .oracle =>
    match queue with
    | a :: _ => a
    | [] => free

/-- The counter of free values after a question: one more when a free value was drawn. -/
def drawsAfter {α : Type} (kind : EnvKind) (queue : List α) (draws : Nat) : Nat :=
  match kind, queue with
  | .oracle, [] => draws + 1
  | _, _ => draws

/-- The queue after a question: the oracle takes the answer it gave. -/
def queueAfter {α : Type} (kind : EnvKind) (queue : List α) : List α :=
  match kind with
  | .ideal => queue
  | .oracle => queue.tail

/-- The answer to `LineExport(id)`. -/
def Env.lineExportAns (e : Env) (id : Nat) : Ans :=
  answerOf e.kind .ok e.lineExport (Config.freeAns e.draws (.lineExport id))

/-- The environment after `LineExport`. -/
def Env.afterLineExport (e : Env) : Env :=
  { e with
    lineExport := queueAfter e.kind e.lineExport
    draws := drawsAfter e.kind e.lineExport e.draws }

/-- The answer to `LineSetDir(id, OUT)`. -/
def Env.lineSetDirAns (e : Env) (id : Nat) : Ans :=
  answerOf e.kind .ok e.lineSetDir (Config.freeAns e.draws (.lineSetDir id))

/-- The environment after `LineSetDir`. -/
def Env.afterLineSetDir (e : Env) : Env :=
  { e with
    lineSetDir := queueAfter e.kind e.lineSetDir
    draws := drawsAfter e.kind e.lineSetDir e.draws }

/-- The answer to `ChanOpen(path)`. -/
def Env.chanOpenAns (e : Env) (path : Nat) : Ans :=
  answerOf e.kind .ok e.chanOpen (Config.freeAns e.draws (.chanOpen path))

/-- The environment after `ChanOpen`. -/
def Env.afterChanOpen (e : Env) : Env :=
  { e with
    chanOpen := queueAfter e.kind e.chanOpen
    draws := drawsAfter e.kind e.chanOpen e.draws }

/-- The answer to `CfgSet(c, which, v)`. -/
def Env.cfgSetAns (e : Env) (c : Chan) (w : CfgWhich) (v : CfgVal) : Ans :=
  answerOf e.kind .ok e.cfgSet (Config.freeAns e.draws (.cfgSet c w v))

/-- The environment after `CfgSet`. -/
def Env.afterCfgSet (e : Env) : Env :=
  { e with
    cfgSet := queueAfter e.kind e.cfgSet
    draws := drawsAfter e.kind e.cfgSet e.draws }

/-- The answer to `CfgGet(c, which)`; the ideal device answers the value `last` given to `CfgSet`. -/
def Env.cfgGetAns (e : Env) (c : Chan) (w : CfgWhich) (last : CfgVal) : GetAns :=
  answerOf e.kind (.value last) e.cfgGet (Config.freeGet e.draws (.cfgGet c w))

/-- The environment after `CfgGet`. -/
def Env.afterCfgGet (e : Env) : Env :=
  { e with
    cfgGet := queueAfter e.kind e.cfgGet
    draws := drawsAfter e.kind e.cfgGet e.draws }

/-- The ideal device's reply to a frame (rule R52): the register's value in the third byte of a
conditioner read, zeros otherwise. -/
def Env.idealReply (e : Env) (c : Chan) (f : Frame) : Frame :=
  match c with
  | .cnd =>
    if cndRw f = Config.cndRwRead then ⟨0, 0, memRead e.devCnd (cndAddr f).toNat⟩ else ⟨0, 0, 0⟩
  | .syn1 => ⟨0, 0, 0⟩
  | .syn2 => ⟨0, 0, 0⟩

/-- The ideal device's register spaces after a frame (rule R52): a write stores its data. -/
def Env.idealStore (e : Env) (c : Chan) (f : Frame) : Env :=
  match c with
  | .cnd =>
    if cndRw f = Config.cndRwWrite then
      { e with devCnd := memWrite e.devCnd (cndAddr f).toNat (cndData f) }
    else e
  | .syn1 =>
    if synRw (synJoin f) = Config.synRwWrite then
      { e with devSyn1 := memWrite e.devSyn1 (synAddr (synJoin f)).toNat (synData (synJoin f)) }
    else e
  | .syn2 =>
    if synRw (synJoin f) = Config.synRwWrite then
      { e with devSyn2 := memWrite e.devSyn2 (synAddr (synJoin f)).toNat (synData (synJoin f)) }
    else e

/-- The answer to `Xfer(c, F)`; `none` is a transfer that never returns (rule R275). -/
def Env.xferAns (e : Env) (c : Chan) (f : Frame) : Option XferRes :=
  answerOf e.kind (some (.ok (e.idealReply c f))) e.xfer (Config.freeXfer e.draws (.xfer c f))

/-- The environment after `Xfer`. -/
def Env.afterXfer (e : Env) (c : Chan) (f : Frame) : Env :=
  match e.kind with
  | .ideal => e.idealStore c f
  | .oracle =>
    { e with
      xfer := queueAfter e.kind e.xfer
      draws := drawsAfter e.kind e.xfer e.draws }

/-! ### The error entries (60_exceptions.md) -/

/-- The record of a `ChannelOpenError` (rules R231, R235). -/
def diagChannelOpen (c : Chan) : Diag :=
  { code := 1, kind := .channelOpen, chan := some c, which := none, index := none }

/-- The record of a `ChannelConfigError` (rules R231, R236). -/
def diagChannelConfig (c : Chan) (w : CfgWhich) : Diag :=
  { code := 2, kind := .channelConfig, chan := some c, which := some (.cfg w), index := none }

/-- The record of a `TransactionError` (rules R231, R237). -/
def diagTransaction (c : Chan) (i : Nat) : Diag :=
  { code := 3, kind := .transaction, chan := some c, which := none, index := some i }

/-- The record of a `LineSetupError` (rules R231, R238). -/
def diagLineSetup (w : DiagWhich) (k : Nat) : Diag :=
  { code := 4, kind := .lineSetup, chan := none, which := some w, index := some k }

/-- `T.CLOSE(c)`'s effect: the event, and the handle released (rule R107). -/
def State.closeCh (s : State) (c : Chan) : State :=
  (s.emit (.close c)).setCh c { s.ch.get c with isOpen := false }

/-- Close a channel if it is open. -/
def State.closeIfOpen (s : State) (c : Chan) : State :=
  if (s.ch.get c).isOpen then s.closeCh c else s

/-- Close every open channel, in index order (rules R212, R233, D30). -/
def State.closeAll (s : State) : State :=
  ((s.closeIfOpen .cnd).closeIfOpen .syn1).closeIfOpen .syn2

/-- Record a diagnostic: `emit EvDiag(rec); last_err <- rec` (rules R233, R234). -/
def State.record (s : State) (d : Diag) : State := { s.emit (.diag d) with lastErr := some d }

/-- End the run with a status: `exit_status`, `EvExit`, and the terminal phase (rules R212, R233). -/
def State.finish (s : State) (status : Nat) (p : Phase) : State :=
  { s.emit (.exit status) with exitStatus := some status, phase := p }

/-- The fatal entry, shared by the three fatal error kinds (rule R233): the record, every open
channel closed in index order, the exit status, P_FAULT. `li`, `ci`, `sub`, `idx` and the lines
keep what they had (rules R233, R246; where rule R12 differs: log 35). -/
def State.raise (s : State) (d : Diag) : State :=
  ((s.record d).closeAll).finish s.cfg.exitFatal .pFault

/-- The non-fatal entry (rule R234): the record and the count, and nothing else. -/
def State.report (s : State) (d : Diag) : State :=
  { s.record d with txnErrCount := s.txnErrCount + 1 }

/-! ### The reset input (rules R260, R261, R262) -/

/-- What the reset input leaves: rule R260's values. The frame buffers and operand latches are
unspecified and become free values (log 4); the lines, the devices, the configuration and the
inputs are not reset (rules R23, R262; log 31). -/
def State.blockReset (s : State) : State :=
  { s with
    phase := .pReset
    sub := .s0
    li := 0
    ci := .cnd
    idx := 0
    txf := Config.freeFrame s.env.draws
    rxf := Config.freeFrame (s.env.draws + 1)
    opA := (Config.freeWord24 (s.env.draws + 2)).setWidth 13
    opD := (Config.freeWord24 (s.env.draws + 3)).setWidth 8
    opW := Config.freeWord24 (s.env.draws + 4)
    exitStatus := none
    txnErrCount := 0
    lastErr := none
    ch := ⟨Channel.fresh, Channel.fresh, Channel.fresh⟩
    lines := s.lines.map fun l => { l with exportedNow := false, dirNow := false }
    trace := []
    hung := none
    env := { s.env with draws := s.env.draws + 5 }
    ret := .none }

end Sys2Proof.Machine
end

