-- ==== Sys2Proof/Machine/Codec.lean ====
section
/-!
DEFINITION. The codec functions as operations (41_codec_conditioner.md, 42_codec_synthesizer.md
section 1). They are pure: their result goes to the caller (log 11) and nothing else changes. An
operand in a wider container gives its named bits (rule R86, D15).
-/

namespace Sys2Proof.Machine

/-- `cnd_enc_wr(a, d)` (rule R121). -/
def execCndEncWr (a d : BitVec 16) (s : State) : Host.Outcome State Fault Refusal :=
  .next { s with ret := .frame (cndEncWr (a.setWidth 13) (d.setWidth 8)) }

/-- `cnd_enc_rd(a)` (rule R123). -/
def execCndEncRd (a : BitVec 16) (s : State) : Host.Outcome State Fault Refusal :=
  .next { s with ret := .frame (cndEncRd (a.setWidth 13)) }

/-- `cnd_parse(F)`, with `cnd_frame_valid(F)` (rule R124). -/
def execCndParse (f : Frame) (s : State) : Host.Outcome State Fault Refusal :=
  .next { s with ret := .cndFields (cndRw f) (cndRsv f) (cndAddr f) (cndData f) (cndFrameValid f) }

/-- `cnd_rd_value(R)` (rule R125). -/
def execCndRdValue (r : Frame) (s : State) : Host.Outcome State Fault Refusal :=
  .next { s with ret := .byte (cndRdValue r) }

/-- `syn_split(w)` (rule R141). -/
def execSynSplit (w : BitVec 32) (s : State) : Host.Outcome State Fault Refusal :=
  .next { s with ret := .frame (synSplit (w.setWidth 24)) }

/-- `syn_join(F)` (rule R142). -/
def execSynJoin (f : Frame) (s : State) : Host.Outcome State Fault Refusal :=
  .next { s with ret := .word (synJoin f) }

/-- `syn_fields(w)` (rule R143). -/
def execSynFields (w : BitVec 32) (s : State) : Host.Outcome State Fault Refusal :=
  .next { s with ret := .synFields (synRw (w.setWidth 24)) (synAddr (w.setWidth 24)) (synData (w.setWidth 24)) }

/-- `syn_pack(rw, addr, data)` (rule R144). -/
def execSynPack (rw addr : Byte) (data : BitVec 16) (s : State) : Host.Outcome State Fault Refusal :=
  .next { s with ret := .word (synPack (rw.setWidth 1) (addr.setWidth 7) data) }

end Sys2Proof.Machine
end

