-- ==== Sys2Proof/Machine/Lines.lean ====
section
/-!
DEFINITION. The reset/enable sequencer's line operations and `S.INIT_LINES`
(44_reset_enable_sequencer.md).
-/

namespace Sys2Proof.Machine

/-! ### Preconditions -/

/-- The line exists (rule R28). -/
def exportStop (k : Nat) (s : State) : Option Stop :=
  if k < s.nLines then none else some (.fault (.noSuchLine k))

/-- `L.DIR(k)`: `L.EXPORT(k)` succeeded in this run (rule R182). -/
def dirStop (k : Nat) (s : State) : Option Stop :=
  match s.lines[k]? with
  | none => some (.fault (.noSuchLine k))
  | some l => if l.exportedNow then none else some (.refuse (.lineNotExported k))

/-- `L.LEVEL(k, v)`: the direction was set to output in this run (rule R183). -/
def levelStop (k : Nat) (s : State) : Option Stop :=
  match s.lines[k]? with
  | none => some (.fault (.noSuchLine k))
  | some l => if l.dirNow then none else some (.refuse (.lineNotOutput k))

/-! ### Effects -/

/-- `L.EXPORT(k)` (rule R181). -/
def exportEff (k : Nat) (s : State) : Eff :=
  let a := s.env.lineExportAns (s.lineId k)
  let s1 := (s.setEnv s.env.afterLineExport).emit (.lineExport k a)
  match a with
  | .ok => ⟨s1.modifyLine k fun l => { l with exported := true, exportedNow := true }, true⟩
  | .fail => ⟨s1.raise (diagLineSetup .lineExport k), false⟩

/-- `L.DIR(k)` (rule R182). -/
def dirEff (k : Nat) (s : State) : Eff :=
  let a := s.env.lineSetDirAns (s.lineId k)
  let s1 := (s.setEnv s.env.afterLineSetDir).emit (.lineDir k a)
  match a with
  | .ok => ⟨s1.modifyLine k fun l => { l with dir := .out, dirNow := true }, true⟩
  | .fail => ⟨s1.raise (diagLineSetup .lineDir k), false⟩

/-- `L.LEVEL(k, v)` (rule R183): its question has only the answer `ok`. -/
def State.levelLine (s : State) (k : Nat) (v : Bool) : State :=
  (s.emit (.lineLevel k v)).modifyLine k fun l => { l with level := some v }

/-- The last part of a line's lifecycle, by its policy: high, hold, low; or the static level (rules
R180, R184, R185). -/
def State.applyPolicy (s : State) (k : Nat) : State :=
  match s.lines[k]? with
  | none => s
  | some l =>
    match l.cfg.policy with
    | .pulse => ((s.levelLine k true).delay (.pulse k) l.cfg.tPulse).levelLine k false
    | .static v => s.levelLine k v

/-- One line's lifecycle: export, direction, level or pulse (rules R180, R186). -/
def initLineEff (k : Nat) (s : State) : Eff :=
  ((exportEff k s).andThen (dirEff k)).andThen fun s' => ⟨s'.applyPolicy k, true⟩

/-- The lifecycles of `n` lines from line `k` on, in list order, stopping at the first raise. -/
def initLinesFrom : Nat → Nat → State → Eff
  | 0, _, s => ⟨s, true⟩
  | n + 1, k, s => (initLineEff k s).andThen (initLinesFrom n (k + 1))

/-! ### Meanings -/

/-- `L.EXPORT(k)` (rule R181). -/
def execLExport (k : Nat) (s : State) : Host.Outcome State Fault Refusal :=
  guarded (exportStop k s) (exportEff k s).st

/-- `L.DIR(k)` (rule R182). -/
def execLDir (k : Nat) (s : State) : Host.Outcome State Fault Refusal :=
  guarded (dirStop k s) (dirEff k s).st

/-- `L.LEVEL(k, v)` (rule R183). That a call made from outside drives a line which `S.INIT_LINES` has
set up again is the model's choice (rules R185, R189; log 37). -/
def execLLevel (k : Nat) (v : Bool) (s : State) : Host.Outcome State Fault Refusal :=
  guarded (levelStop k s) (s.levelLine k v)

/-- `S.INIT_LINES` (rule R180), the whole procedure in one step (log 29). That a second call goes
through the lines again is the model's choice (rule R189; log 37). -/
def execSInitLines (s : State) : Host.Outcome State Fault Refusal :=
  .next (initLinesFrom s.nLines 0 s).st

end Sys2Proof.Machine
end

