-- ==== Sys2Proof/Machine/Transport.lean ====
section
/-!
DEFINITION. The bus transport (40_bus_transport.md): open, configure with read-back, transfer,
close. For each operation its precondition, its effect, and its meaning.
-/

namespace Sys2Proof.Machine

/-! ### Preconditions -/

/-- `T.OPEN(c)`: the channel is closed (rule R101) and was not opened before in this run (rule
R22; a channel that was opened keeps its `iwd`, rule R107). -/
def openStop (c : Chan) (s : State) : Option Stop :=
  if (s.ch.get c).isOpen then some (.refuse (.channelAlreadyOpen c))
  else if (s.ch.get c).iwd.isSome then some (.refuse (.channelReleased c))
  else none

/-- The configuration steps come in the order mode, word size, clock rate, each once, on an open
channel (rules R100, R102, R103, R104). -/
def cfgReady (h : Channel) : CfgWhich → Bool
  | .mode => h.isOpen && h.mode.isNone
  | .bits => h.isOpen && h.mode.isSome && h.bits.isNone
  | .hz => h.isOpen && h.bits.isSome && h.hz.isNone

/-- The precondition of a configuration step. -/
def cfgStop (c : Chan) (w : CfgWhich) (s : State) : Option Stop :=
  if cfgReady (s.ch.get c) w then none else some (.refuse (.configOutOfOrder c w))

/-- `T.XFER(c, F)`: `configured(c)` (rule R106). -/
def xferStop (c : Chan) (s : State) : Option Stop :=
  if s.configured c then none else some (.refuse (.channelNotConfigured c))

/-- `T.CLOSE(c)`: the channel is open (rule R107). -/
def closeStop (c : Chan) (s : State) : Option Stop :=
  if (s.ch.get c).isOpen then none else some (.refuse (.channelNotOpen c))

/-! ### Effects -/

/-- `T.OPEN(c)` (rule R101). -/
def openEff (c : Chan) (s : State) : Eff :=
  let path := (s.cfg.chans.get c).path
  let a := s.env.chanOpenAns path
  let s1 := (s.setEnv s.env.afterChanOpen).emit (.chanOpen c a)
  match a with
  | .ok => ⟨s1.setCh c { s1.ch.get c with isOpen := true, iwd := some (s1.cfg.chans.get c).iwd }, true⟩
  | .fail => ⟨s1.raise (diagChannelOpen c), false⟩

/-- What `verify` records (rule R105): a failed set, else a failed read-back, else a mismatch, else
verified. -/
def verifyRes (c : Chan) (w : CfgWhich) (v : CfgVal) (e : Env) : CfgRes :=
  match e.cfgSetAns c w v with
  | .fail => .setFailed
  | .ok =>
    match e.afterCfgSet.cfgGetAns c w v with
    | .fail => .getFailed
    | .value v' => if v' = v then .verified else .mismatch v'

/-- The environment after `verify`: the read-back is not asked after a failed set (D27). -/
def verifyEnv (c : Chan) (w : CfgWhich) (v : CfgVal) (e : Env) : Env :=
  match e.cfgSetAns c w v with
  | .fail => e.afterCfgSet
  | .ok => e.afterCfgSet.afterCfgGet

/-- Store a verified value in the channel (rules R102, R103, R104). -/
def Channel.store (h : Channel) : CfgVal → Channel
  | .mode m => { h with mode := some m }
  | .bits n => { h with bits := some n }
  | .hz n => { h with hz := some n }

/-- A configuration step: set and verify, then store the value or raise `ChannelConfigError`
(rules R102 to R105). -/
def cfgEff (c : Chan) (w : CfgWhich) (s : State) : Eff :=
  let v := (s.cfg.chans.get c).value w
  let r := verifyRes c w v s.env
  let s1 := (s.setEnv (verifyEnv c w v s.env)).emit (.cfg c w v r)
  if r = .verified then ⟨s1.setCh c ((s1.ch.get c).store v), true⟩
  else ⟨s1.raise (diagChannelConfig c w), false⟩

/-- The receive buffer after a transfer: the reply, or, after a transfer that did not succeed, a free
value (rules R15, R106, D19; log 15). -/
def rxAfter (r : XferRes) (s : State) : State :=
  match r with
  | .ok f => { s with rxf := f }
  | .short _ => { s with rxf := Config.freeFrame s.env.draws, env := { s.env with draws := s.env.draws + 1 } }
  | .fail => { s with rxf := Config.freeFrame s.env.draws, env := { s.env with draws := s.env.draws + 1 } }

/-- `T.XFER(c, F)` (rule R106) with what its caller does with the result. TXF is not written (rule
R15). Where the question is never answered the block is left waiting (rule R275). -/
def xferEff (c : Chan) (f : Frame) (s : State) (caller : XferRes → State → State) : Eff :=
  let s1 := s.setEnv (s.env.afterXfer c f)
  match s.env.xferAns c f with
  | none => ⟨{ s1 with hung := some ⟨c, f⟩ }, false⟩
  | some r => ⟨caller r (rxAfter r (s1.emit (.xfer c f r))), true⟩

/-- The composition `open_channel(c)` (rules R85, R100, R108): open, mode, word size, clock rate,
stopping at the first raise. -/
def openChannelEff (c : Chan) (s : State) : Eff :=
  (((openEff c s).andThen (cfgEff c .mode)).andThen (cfgEff c .bits)).andThen (cfgEff c .hz)

/-- An operation-level call returns the transfer's result to its caller (rules R106, R110). -/
def returnXfer (r : XferRes) (s : State) : State := { s with ret := .xfer r }

/-! ### Meanings -/

/-- `T.OPEN(c)` (rule R101). -/
def execTOpen (c : Chan) (s : State) : Host.Outcome State Fault Refusal :=
  guarded (openStop c s) (openEff c s).st

/-- `T.CFG_MODE(c)` (rule R102). -/
def execTCfgMode (c : Chan) (s : State) : Host.Outcome State Fault Refusal :=
  guarded (cfgStop c .mode s) (cfgEff c .mode s).st

/-- `T.CFG_BITS(c)` (rule R103). -/
def execTCfgBits (c : Chan) (s : State) : Host.Outcome State Fault Refusal :=
  guarded (cfgStop c .bits s) (cfgEff c .bits s).st

/-- `T.CFG_HZ(c)` (rule R104). -/
def execTCfgHz (c : Chan) (s : State) : Host.Outcome State Fault Refusal :=
  guarded (cfgStop c .hz s) (cfgEff c .hz s).st

/-- `T.XFER(c, F)` (rule R106): the frame given is transferred; TXF, which only the encode functions
write, stays as it is (rule R15; log 12). The frame is sent as it stands, one no encoder builds too:
that is the model's choice (rules R73, R82; log 36). -/
def execTXfer (c : Chan) (f : Frame) (s : State) : Host.Outcome State Fault Refusal :=
  guarded (xferStop c s) (xferEff c f s returnXfer).st

/-- `T.CLOSE(c)` (rule R107). -/
def execTClose (c : Chan) (s : State) : Host.Outcome State Fault Refusal :=
  guarded (closeStop c s) (s.closeCh c)

end Sys2Proof.Machine
end

