-- ==== Sys2Proof/Machine/Sequencer.lean ====
section
/-!
DEFINITION. The programming sequencer (43_programming_sequencer.md): the sub-steps of a replay,
`S.PROGRAM`, `S.DELAY`, and the disabled `S.READBACK`.
-/

namespace Sys2Proof.Machine

/-- Fetch and encode entry `idx` of the channel's image: the operand latches and TXF (rule R161);
nothing where the image has no such entry. -/
def State.loadEntry (s : State) (c : Chan) : Option State :=
  match c with
  | .cnd =>
    match s.cfg.cndImage[s.idx]? with
    | none => none
    | some e =>
      some { s with
        opA := cndEntryAddr e
        opD := cndEntryData e
        txf := cndEncWr (cndEntryAddr e) (cndEntryData e) }
  | .syn1 =>
    match s.cfg.synImage[s.idx]? with
    | none => none
    | some w => some { s with opW := synEntryWord w, txf := synSplit (synEntryWord w) }
  | .syn2 =>
    match s.cfg.synImage[s.idx]? with
    | none => none
    | some w => some { s with opW := synEntryWord w, txf := synSplit (synEntryWord w) }

/-- The sequencer's use of a transfer's result: a failed one is reported and the replay goes on
(rules R161, R162); then the gap. -/
def afterEntry (c : Chan) (r : XferRes) (s : State) : State :=
  match r with
  | .ok _ => { s with sub := .s1 }
  | .short _ => { s.report (diagTransaction c s.idx) with sub := .s1 }
  | .fail => { s.report (diagTransaction c s.idx) with sub := .s1 }

/-- The XFER sub-step (rule R161). -/
def xferSubEff (c : Chan) (s : State) : Eff :=
  match s.loadEntry c with
  | none => ⟨s, false⟩
  | some s1 => xferEff c s1.txf s1 (afterEntry c)

/-- The precondition of the XFER sub-step: the entry exists (`idx < N`) and the channel is configured
(rules R106, R161). -/
def xferSubStop (c : Chan) (s : State) : Option Stop :=
  if s.idx < s.imageLength c then xferStop c s else some (.fault (.noSuchEntry c s.idx))

/-- The GAP sub-step: the inter-transaction delay, then advance (rule R163). -/
def State.gap (s : State) (c : Chan) : State :=
  { s.delay (.txn c) (s.cfg.tTxn.get c) with idx := s.idx + 1, sub := .s0 }

/-- One entry: XFER then GAP. -/
def entryEff (c : Chan) (s : State) : Eff := (xferSubEff c s).andThen fun s' => ⟨s'.gap c, true⟩

/-- The next `n` entries, in order. -/
def replayEff (c : Chan) : Nat → State → Eff
  | 0, s => ⟨s, true⟩
  | n + 1, s => (entryEff c s).andThen (replayEff c n)

/-- `S.PROGRAM(c, image, codec)`, the whole replay (rules R160, R169); the image and the codec are the
channel's (rule R55). -/
def programEff (c : Chan) (s : State) : Eff :=
  replayEff c (s.imageLength c) { s with idx := 0, sub := .s0 }

/-- `S.PROGRAM(c)` (rule R160), the whole procedure in one step (log 29). -/
def execSProgram (c : Chan) (s : State) : Host.Outcome State Fault Refusal :=
  guarded (xferStop c s) (programEff c s).st

/-- `S.DELAY(name, T)` (rule R165). -/
def execSDelay (name : DelayName) (t : Nat) (s : State) : Host.Outcome State Fault Refusal :=
  .next (s.delay name t)

/-- `S.READBACK` (rule R215): disabled by design; the model refuses READBACK_ENABLE = true (D16). -/
def execSReadback (s : State) : Host.Outcome State Fault Refusal :=
  if s.cfg.readbackEnable then .refused .readbackEnabled else .refused .readbackDisabled

end Sys2Proof.Machine
end

