-- ==== Sys2Proof/Machine/Fsm.lean ====
section
/-!
DEFINITION. The bring-up FSM (45_bringup_fsm.md): one meaning per phase, each one step.
-/

namespace Sys2Proof.Machine

/-- A phase whose sub-step register holds a code it does not have (log 20). -/
def badSub (s : State) (p : Phase) : Host.Outcome State Fault Refusal :=
  .refused (.illegalSub p s.sub)

/-- Enter a phase at its first sub-step. -/
def State.enter (s : State) (p : Phase) : State := { s with phase := p, sub := .s0 }

/-- Enter a phase with the image index at 0 (rules R205, R207, R209). -/
def State.enterProg (s : State) (p : Phase) : State := { s with phase := p, sub := .s0, idx := 0 }

/-- `P_RESET` (rule R202): nothing until `start`; then the counters are cleared and the lines are set
up, or, with no lines, the line settle follows. A start with READBACK_ENABLE = true is refused
(rule R215). -/
def execPReset (s : State) : Host.Outcome State Fault Refusal :=
  if s.pinStart then
    if s.cfg.readbackEnable then .refused .readbackEnabled
    else .next { s with
      li := 0
      ci := .cnd
      idx := 0
      sub := .s0
      phase := if s.nLines = 0 then .pLineSettle else .pLines }
  else .next s

/-- `next_line` (rule R203). -/
def State.nextLine (s : State) : State :=
  if s.li + 1 < s.nLines then { s with li := s.li + 1, sub := .s0 } else s.enter .pLineSettle

/-- The level a line's first level write gives it, by its policy: high for a pulse. -/
def firstLevel : Policy → Bool
  | .pulse => true
  | .static v => v

/-- What follows the first level write: the hold of a pulse, or the next line. -/
def State.afterLevelA (s : State) : Policy → State
  | .pulse => { s with sub := .s3 }
  | .static _ => s.nextLine

/-- `P_LINES` (rule R203): EXPORT, DIR, LEVEL_A, HOLD, LEVEL_B. -/
def execPLines (s : State) : Host.Outcome State Fault Refusal :=
  match s.sub, s.lines[s.li]? with
  | _, none => .fault (.noSuchLine s.li)
  | .s0, some _ =>
    guarded (exportStop s.li s) ((exportEff s.li s).update fun t => { t with sub := .s1 })
  | .s1, some _ =>
    guarded (dirStop s.li s) ((dirEff s.li s).update fun t => { t with sub := .s2 })
  | .s2, some l =>
    guarded (levelStop s.li s)
      ((s.levelLine s.li (firstLevel l.cfg.policy)).afterLevelA l.cfg.policy)
  | .s3, some l => .next { s.delay (.pulse s.li) l.cfg.tPulse with sub := .s4 }
  | .s4, some _ => guarded (levelStop s.li s) (s.levelLine s.li false).nextLine

/-- `P_LINE_SETTLE` (rules R187, R204). -/
def execPLineSettle (s : State) : Host.Outcome State Fault Refusal :=
  .next { (s.delay .lineSettle s.cfg.tLineSettle).enter .pOpen with ci := .cnd }

/-- After the third configuration step: the next channel, or the conditioner's image (rule R205). -/
def State.nextChannel (s : State) : State :=
  match s.ci with
  | .cnd => { s with ci := .syn1, sub := .s0 }
  | .syn1 => { s with ci := .syn2, sub := .s0 }
  | .syn2 => s.enterProg .pProgCnd

/-- `P_OPEN` (rule R205): OPEN, MODE, BITS, HZ for each channel in order. -/
def execPOpen (s : State) : Host.Outcome State Fault Refusal :=
  match s.sub with
  | .s0 => guarded (openStop s.ci s) ((openEff s.ci s).update fun t => { t with sub := .s1 })
  | .s1 => guarded (cfgStop s.ci .mode s) ((cfgEff s.ci .mode s).update fun t => { t with sub := .s2 })
  | .s2 => guarded (cfgStop s.ci .bits s) ((cfgEff s.ci .bits s).update fun t => { t with sub := .s3 })
  | .s3 => guarded (cfgStop s.ci .hz s) ((cfgEff s.ci .hz s).update State.nextChannel)
  | .s4 => badSub s .pOpen

/-- A replay phase (rule R206): leave when `idx = N`, else the XFER or the GAP sub-step. -/
def progPhase (p : Phase) (c : Chan) (exitTo : Phase) (s : State) : Host.Outcome State Fault Refusal :=
  match s.sub with
  | .s0 =>
    if s.idx = s.imageLength c then .next (s.enter exitTo)
    else guarded (xferSubStop c s) (xferSubEff c s).st
  | .s1 => .next (s.gap c)
  | .s2 => badSub s p
  | .s3 => badSub s p
  | .s4 => badSub s p

/-- `P_PROG_CND` (rule R206). -/
def execPProgCnd (s : State) : Host.Outcome State Fault Refusal :=
  progPhase .pProgCnd .cnd .pSettleCnd s

/-- `P_SETTLE_CND` (rules R166, R207). -/
def execPSettleCnd (s : State) : Host.Outcome State Fault Refusal :=
  .next ((s.delay .postCnd s.cfg.tPostCnd).enterProg .pProgSyn1)

/-- `P_PROG_SYN1` (rule R208). -/
def execPProgSyn1 (s : State) : Host.Outcome State Fault Refusal :=
  progPhase .pProgSyn1 .syn1 .pSettleSyn1 s

/-- `P_SETTLE_SYN1` (rules R167, R209). -/
def execPSettleSyn1 (s : State) : Host.Outcome State Fault Refusal :=
  .next ((s.delay .interDev s.cfg.tInterDev).enterProg .pProgSyn2)

/-- `P_PROG_SYN2` (rule R210). -/
def execPProgSyn2 (s : State) : Host.Outcome State Fault Refusal :=
  progPhase .pProgSyn2 .syn2 .pSettleSyn2 s

/-- `P_SETTLE_SYN2` (rules R167, R211). -/
def execPSettleSyn2 (s : State) : Host.Outcome State Fault Refusal :=
  .next ((s.delay .interDev s.cfg.tInterDev).enter .pClose)

/-- `P_CLOSE` (rule R212): every open channel closed in index order, exit status 0. -/
def execPClose (s : State) : Host.Outcome State Fault Refusal :=
  .next (s.closeAll.finish 0 .pDone)

/-- `P_DONE` (rule R213): terminal; the state stays as it is (log 7). -/
def execPDone (s : State) : Host.Outcome State Fault Refusal := .next s

/-- `P_FAULT` (rule R214): terminal; the state stays as it is (log 7). -/
def execPFault (s : State) : Host.Outcome State Fault Refusal := .next s

end Sys2Proof.Machine
end

