-- ==== Sys2Proof/Machine/Wire.lean ====
section
/-!
DEFINITION. The four wire frames as operations: `MemWrite` and `MemRead`
(20_memory.md rules R44, R45; 41_codec_conditioner.md rules R122, R126;
42_codec_synthesizer.md rules R145, R146).
-/

namespace Sys2Proof.Machine

/-- Put an encoded frame in TXF (rule R15) and transfer what TXF holds on a channel; the result goes to
`caller`. -/
def sendFrame (c : Chan) (f : Frame) (caller : XferRes → State → State) (s : State) :
    Host.Outcome State Fault Refusal :=
  let s1 := { s with txf := f }
  guarded (xferStop c s1) (xferEff c s1.txf s1 caller).st

/-- `CND.WR`: `MemWrite(CND, a, 1, d)` (rules R44, R122); the reply frame is discarded. -/
def execCndWr (a : BitVec 13) (d : Byte) (s : State) : Host.Outcome State Fault Refusal :=
  sendFrame .cnd (cndEncWr a d) returnXfer s

/-- The caller of `CND.RD`: the value is taken from the reply in RXF, an error is returned (rule
R126). -/
def returnRead (r : XferRes) (s : State) : State :=
  match r with
  | .ok _ => { s with ret := .value (cndRdValue s.rxf) }
  | .short n => { s with ret := .xfer (.short n) }
  | .fail => { s with ret := .xfer .fail }

/-- `CND.RD`: `MemRead(CND, a, 1)` (rules R45, R126). -/
def execCndRd (a : BitVec 13) (s : State) : Host.Outcome State Fault Refusal :=
  sendFrame .cnd (cndEncRd a) returnRead s

/-- `SYN.WR`: `MemWrite(SYNn, w)` with bit 23 = 0 (rules R44, R145). -/
def execSynWr (n : SynChan) (addr : BitVec 7) (data : BitVec 16) (s : State) :
    Host.Outcome State Fault Refusal :=
  sendFrame n.chan (synSplit (synPack Config.synRwWrite addr data)) returnXfer s

/-- `SYN.RD`: a synthesizer frame with bit 23 = 1; its reply has no meaning and is discarded (rule
R146, D13). -/
def execSynRd (n : SynChan) (addr : BitVec 7) (data : BitVec 16) (s : State) :
    Host.Outcome State Fault Refusal :=
  sendFrame n.chan (synSplit (synPack Config.synRwRead addr data)) returnXfer s

end Sys2Proof.Machine
end

