-- ==== Sys2Proof/Machine/Dispatch.lean ====
section
/-!
DEFINITION. One arm per instruction, each one direct call of its meaning.
-/

namespace Sys2Proof.Machine

def exec (i : Instr) (s : State) : Host.Outcome State Fault Refusal :=
  match i with
  | .cndWr a d => Sys2Proof.Machine.execCndWr a d s
  | .cndRd a => Sys2Proof.Machine.execCndRd a s
  | .synWr n addr data => Sys2Proof.Machine.execSynWr n addr data s
  | .synRd n addr data => Sys2Proof.Machine.execSynRd n addr data s
  | .cndEncWr a d => Sys2Proof.Machine.execCndEncWr a d s
  | .cndEncRd a => Sys2Proof.Machine.execCndEncRd a s
  | .cndParse f => Sys2Proof.Machine.execCndParse f s
  | .cndRdValue r => Sys2Proof.Machine.execCndRdValue r s
  | .synSplit w => Sys2Proof.Machine.execSynSplit w s
  | .synJoin f => Sys2Proof.Machine.execSynJoin f s
  | .synFields w => Sys2Proof.Machine.execSynFields w s
  | .synPack rw addr data => Sys2Proof.Machine.execSynPack rw addr data s
  | .tOpen c => Sys2Proof.Machine.execTOpen c s
  | .tCfgMode c => Sys2Proof.Machine.execTCfgMode c s
  | .tCfgBits c => Sys2Proof.Machine.execTCfgBits c s
  | .tCfgHz c => Sys2Proof.Machine.execTCfgHz c s
  | .tXfer c f => Sys2Proof.Machine.execTXfer c f s
  | .tClose c => Sys2Proof.Machine.execTClose c s
  | .lExport k => Sys2Proof.Machine.execLExport k s
  | .lDir k => Sys2Proof.Machine.execLDir k s
  | .lLevel k v => Sys2Proof.Machine.execLLevel k v s
  | .sProgram c => Sys2Proof.Machine.execSProgram c s
  | .sInitLines => Sys2Proof.Machine.execSInitLines s
  | .sDelay name t => Sys2Proof.Machine.execSDelay name t s
  | .sReadback => Sys2Proof.Machine.execSReadback s
  | .pReset => Sys2Proof.Machine.execPReset s
  | .pLines => Sys2Proof.Machine.execPLines s
  | .pLineSettle => Sys2Proof.Machine.execPLineSettle s
  | .pOpen => Sys2Proof.Machine.execPOpen s
  | .pProgCnd => Sys2Proof.Machine.execPProgCnd s
  | .pSettleCnd => Sys2Proof.Machine.execPSettleCnd s
  | .pProgSyn1 => Sys2Proof.Machine.execPProgSyn1 s
  | .pSettleSyn1 => Sys2Proof.Machine.execPSettleSyn1 s
  | .pProgSyn2 => Sys2Proof.Machine.execPProgSyn2 s
  | .pSettleSyn2 => Sys2Proof.Machine.execPSettleSyn2 s
  | .pClose => Sys2Proof.Machine.execPClose s
  | .pDone => Sys2Proof.Machine.execPDone s
  | .pFault => Sys2Proof.Machine.execPFault s

end Sys2Proof.Machine
end

