-- ==== Sys2Proof/Machine/Fetch.lean ====
section
/-!
DEFINITION. Fetching: where the machine's next instruction stands, its bytes, and the state once it
has been taken (logs 6, 7, 8).
-/

namespace Sys2Proof.Machine

/-- Where a requested operation's bytes stand. -/
def Request.port : Request → Port
  | .op8 _ => .op8
  | .wire c _ => .wire c

/-- A requested operation's bytes. -/
def Request.bytes : Request → List Byte
  | .op8 bs => bs
  | .wire _ bs => bs

/-- The operation requested from outside the FSM that is taken next: only while the FSM waits in
P_RESET, since a run once started takes no command (rule R201; log 8). -/
def State.request (s : State) : Option Request :=
  match s.phase, s.ops with
  | .pReset, r :: _ => some r
  | _, _ => none

/-- The bytes of the next instruction and where they stand: a requested operation, else the code in
the phase register. -/
def State.fetch (s : State) : Port × List Byte :=
  match s.request with
  | some r => (r.port, r.bytes)
  | none => (.phase4, [s.phase.code])

/-- The state once the instruction has been fetched: a requested operation is taken off the list. -/
def State.taken (s : State) : State :=
  match s.request with
  | some _ => { s with ops := s.ops.tail }
  | none => s

/-- The sequencer is waiting for a transfer that never returns: no step is enabled (rule R275). -/
def State.waiting (s : State) : Bool := s.hung.isSome

/-- Put an instruction's bytes where `fetch` takes them next: a phase code in the phase register, an
operation at the head of the requests while the FSM waits in P_RESET. A transfer still waited for
and the reset input, which come before any fetch, are taken away. -/
def State.place (s : State) (p : Port) (bs : List Byte) : State :=
  match p with
  | .phase4 =>
    { s with hung := none, pinReset := false, ops := [], phase := (phaseOfCode (bs.headD 0)).getD s.phase }
  | .op8 => { s with hung := none, pinReset := false, phase := .pReset, ops := .op8 bs :: s.ops }
  | .wire c => { s with hung := none, pinReset := false, phase := .pReset, ops := .wire c bs :: s.ops }

end Sys2Proof.Machine
end

