-- ==== Sys2Proof/Machine/Step.lean ====
section
/-!
DEFINITION. One step of the machine: the reset input, else the held state of a transfer that never
returns, else the instruction fetched (rules R216, R261, R275).
-/

namespace Sys2Proof.Machine

/-- Run the instruction fetched, or refuse bytes that are no instruction. -/
def runFetched (r : Except DecodeErr Instr) (s : State) : Host.Outcome State Fault Refusal :=
  match r with
  | .ok i => exec i s
  | .error e => .refused (.undecodable e)

/-- One step. -/
def step (s : State) : Host.Outcome State Fault Refusal :=
  if s.pinReset then .next s.blockReset
  else if s.waiting then .next s
  else runFetched (decode s.fetch.1 s.fetch.2) s.taken

/-- The state with a word of spec/opcode_table.json placed where the next step fetches (log 10). -/
def State.withFetchWord (s : State) (nbits w : Nat) : State :=
  s.place (tableWord nbits w).1 (tableWord nbits w).2

end Sys2Proof.Machine
end

