-- ==== Sys2Proof/Machine/Pins.lean ====
section
/-!
DEFINITION. The pin-level view of rule R33 (D2: informative, the spec's own names). Nothing of it is
state: every pin is computed from the state or from an event of the trace.
-/

namespace Sys2Proof.Machine

/-- `LINE_OE[k]`: 1 when line k is an output (rule R33). -/
def State.pinLineOe (s : State) (k : Nat) : Bool :=
  match s.lines[k]? with
  | some l => l.dir == .out
  | none => false

/-- `LINE_OUT[k]`: the level of line k, where one was set (rule R33). -/
def State.pinLineOut (s : State) (k : Nat) : Option Bool :=
  match s.lines[k]? with
  | some l => l.level
  | none => none

/-- The channel whose chip select is active while an event happens: a transfer's own channel, and
none at any other event (rules R33, R101, R111). -/
def selectedBy : Event → Option Chan
  | .xfer c _ _ => some c
  | .lineExport _ _ => none
  | .lineDir _ _ => none
  | .lineLevel _ _ => none
  | .delay _ _ => none
  | .chanOpen _ _ => none
  | .cfg _ _ _ _ => none
  | .close _ => none
  | .diag _ => none
  | .exit _ => none

/-- `CS[c]` as a level while an event happens; the active level is the parameter CS_ACTIVE (D2, U21). -/
def State.pinCs (s : State) (ev : Event) (c : Chan) : Bool :=
  if selectedBy ev = some c then s.cfg.csActive else !s.cfg.csActive

/-- `MOSI` during a transfer: the request frame's 24 bits in wire order (rules R33, R41, R106). Byte 0
first whatever word size the channel has is the model's choice where CFG_BITS is not 8 (log 33). -/
def pinMosi : Event → List Bool
  | .xfer _ f _ => wireBits f
  | .lineExport _ _ => []
  | .lineDir _ _ => []
  | .lineLevel _ _ => []
  | .delay _ _ => []
  | .chanOpen _ _ => []
  | .cfg _ _ _ _ => []
  | .close _ => []
  | .diag _ => []
  | .exit _ => []

/-- `MISO` during a transfer answered `ok`: the reply frame's 24 bits, in the same order (rules R33, R41;
log 33). What the pin carries in a short or failed transfer is not given (rule R57, D32); that the view
then lists no bits is the model's choice and says nothing of the pin (log 34). -/
def pinMiso : Event → List Bool
  | .xfer _ _ (.ok r) => wireBits r
  | .xfer _ _ (.short _) => []
  | .xfer _ _ .fail => []
  | .lineExport _ _ => []
  | .lineDir _ _ => []
  | .lineLevel _ _ => []
  | .delay _ _ => []
  | .chanOpen _ _ => []
  | .cfg _ _ _ _ => []
  | .close _ => []
  | .diag _ => []
  | .exit _ => []

/-- `bus_err`: the transport's verdict on a transfer (rule R33). -/
def pinBusErr : XferRes → Bool
  | .ok _ => false
  | .short _ => true
  | .fail => true

/-- `bus_count`: the bytes moved when the transfer was short (rule R33). -/
def pinBusCount : XferRes → Option Nat
  | .ok _ => none
  | .short n => some n.val
  | .fail => none

/-- `diag_valid`, `diag_rec`: one pulse per `EvDiag`, in order (rule R33). -/
def State.pinDiag (s : State) : List Diag :=
  s.trace.filterMap fun
    | .diag d => some d
    | _ => none

end Sys2Proof.Machine
end

