-- ==== Sys2Proof/Safety.lean ====
section
/-!
DEFINITION. What counts as a safe run, in the terms the claims use: the fatal entry as one record,
the bus traces, the hazards of 70_reset_and_hazards.md as properties of the trace, the invariant of
a bring-up run, and the trace of a clean run.
-/

namespace Sys2Proof.Safety

open Sys2Proof.Machine

/-! ### The fatal entry, written out (rule R233) -/

/-- A channel with its handle released. -/
def released (h : Channel) : Channel := { h with isOpen := false }

/-- All three handles released. -/
def releasedAll (ch : Three Channel) : Three Channel :=
  ⟨released ch.cnd, released ch.syn1, released ch.syn2⟩

/-- The close events of the open channels, in index order. -/
def closeEvents (ch : Three Channel) : List Event :=
  ([Chan.cnd, .syn1, .syn2].filter fun c => (ch.get c).isOpen).map .close

/-- The state after the fatal entry. -/
def afterFatal (s : State) (d : Diag) : State :=
  { s with
    phase := .pFault
    lastErr := some d
    exitStatus := some s.cfg.exitFatal
    ch := releasedAll s.ch
    trace := s.trace ++ ([.diag d] ++ closeEvents s.ch ++ [.exit s.cfg.exitFatal]) }

/-! ### Traces (rules R30, R31) -/

/-- An `EvXfer` event. -/
def isXfer : Event → Bool
  | .xfer _ _ _ => true
  | _ => false

/-- An `EvXfer` event on a channel. -/
def isXferOn (c : Chan) : Event → Bool
  | .xfer c' _ _ => c' == c
  | _ => false

/-- An `EvOpen` event. -/
def isChanOpen : Event → Bool
  | .chanOpen _ _ => true
  | _ => false

/-- A successful `EvOpen` event of a channel. -/
def isOpenOk (c : Chan) : Event → Bool
  | .chanOpen c' .ok => c' == c
  | _ => false

/-- An `EvClose` event of a channel. -/
def isCloseOf (c : Chan) : Event → Bool
  | .close c' => c' == c
  | _ => false

/-- An `EvDelay` event with a given name. -/
def isDelay (n : DelayName) : Event → Bool
  | .delay n' _ => n' == n
  | _ => false

/-- A verified `EvCfg` event of a channel and a step. -/
def isVerified (c : Chan) (w : CfgWhich) : Event → Bool
  | .cfg c' w' _ .verified => c' == c && w' == w
  | _ => false

/-- `bus_trace_all` (rule R30). -/
def busTraceAll (t : List Event) : List Event := t.filter isXfer

/-- `bus_trace(c)` (rule R30). -/
def busTrace (c : Chan) (t : List Event) : List Event := t.filter (isXferOn c)

/-- The request frames put on a channel, in order. -/
def requestFrames (c : Chan) (t : List Event) : List Frame :=
  t.filterMap fun
    | .xfer c' f _ => if c' = c then some f else none
    | _ => none

/-- Every `q` event comes after some `p` event. -/
def Precedes (p q : Event → Bool) (t : List Event) : Prop :=
  ∀ pre ev post, t = pre ++ ev :: post → q ev = true → ∃ e ∈ pre, p e = true

/-- No `q` event comes before a `p` event. -/
def NoneBefore (q p : Event → Bool) (t : List Event) : Prop :=
  ∀ pre ev post, t = pre ++ ev :: post → p ev = true → ∀ e ∈ pre, q e = false

/-! ### The encoded images (rules R77, R164) -/

/-- The frame entry `i` of a channel's image is sent as. -/
def entryFrame (p : Params) (c : Chan) (i : Nat) : Option Frame :=
  match c with
  | .cnd => (p.cndImage[i]?).map fun e => cndEncWr (BitVec.ofNat 13 e.addr) (BitVec.ofNat 8 e.data)
  | .syn1 => (p.synImage[i]?).map fun w => synSplit (BitVec.ofNat 24 w)
  | .syn2 => (p.synImage[i]?).map fun w => synSplit (BitVec.ofNat 24 w)

/-- The frames of a channel's whole image, in stored order. -/
def imageFrames (p : Params) (c : Chan) : List Frame :=
  match c with
  | .cnd => p.cndImage.map fun e => cndEncWr (BitVec.ofNat 13 e.addr) (BitVec.ofNat 8 e.data)
  | .syn1 => p.synImage.map fun w => synSplit (BitVec.ofNat 24 w)
  | .syn2 => p.synImage.map fun w => synSplit (BitVec.ofNat 24 w)

/-! ### The invariant of a bring-up run (rules R11 to R23, R200 to R217) -/

/-- A channel opened, with none of its three steps done. -/
def opened (p : ChanCfg) : Channel :=
  { isOpen := true, mode := none, bits := none, hz := none, iwd := some p.iwd }

/-- A channel opened and fully configured. -/
def ready (p : ChanCfg) : Channel :=
  { isOpen := true, mode := some p.mode, bits := some p.bits, hz := some p.hz, iwd := some p.iwd }

/-- A channel on its way through P_OPEN, by sub-step (rule R205). -/
def opening (p : ChanCfg) : Sub → Option Channel
  | .s0 => some Channel.fresh
  | .s1 => some (opened p)
  | .s2 => some { opened p with mode := some p.mode }
  | .s3 => some { opened p with mode := some p.mode, bits := some p.bits }
  | .s4 => none

/-- All channels as reset leaves them. -/
def allFresh : Three Channel := ⟨Channel.fresh, Channel.fresh, Channel.fresh⟩

/-- All channels open and configured. -/
def allReady (p : Three ChanCfg) : Three Channel := ⟨ready p.cnd, ready p.syn1, ready p.syn2⟩

/-- The channels in P_OPEN: those before `ci` ready, those after it fresh, and `ci` on its way. -/
def OpenProgress (s : State) : Prop :=
  match s.ci with
  | .cnd => opening s.cfg.chans.cnd s.sub = some s.ch.cnd ∧
      s.ch.syn1 = Channel.fresh ∧ s.ch.syn2 = Channel.fresh
  | .syn1 => s.ch.cnd = ready s.cfg.chans.cnd ∧
      opening s.cfg.chans.syn1 s.sub = some s.ch.syn1 ∧ s.ch.syn2 = Channel.fresh
  | .syn2 => s.ch.cnd = ready s.cfg.chans.cnd ∧ s.ch.syn1 = ready s.cfg.chans.syn1 ∧
      opening s.cfg.chans.syn2 s.sub = some s.ch.syn2

/-- The level a line's policy leaves it at (rules R184, R185). -/
def finalLevel : Policy → Bool
  | .pulse => false
  | .static v => v

/-- The line in P_LINES: it exists, and the steps before `sub` were done in this run (rule R203). -/
def LineProgress (s : State) : Prop :=
  match s.lines[s.li]? with
  | none => False
  | some l =>
    match s.sub with
    | .s0 => True
    | .s1 => l.exportedNow = true ∧ l.exported = true
    | .s2 => l.dirNow = true ∧ l.exported = true ∧ l.dir = .out
    | .s3 => l.dirNow = true ∧ l.exported = true ∧ l.dir = .out ∧ l.cfg.policy = .pulse
    | .s4 => l.dirNow = true ∧ l.exported = true ∧ l.dir = .out ∧ l.cfg.policy = .pulse

/-- A line whose lifecycle is complete: exported, an output, at the level of its policy (rules R180,
R186). -/
def LineSetUp (l : Line) : Prop :=
  l.exported = true ∧ l.dir = .out ∧ l.level = some (finalLevel l.cfg.policy)

/-- How many lines, in list order, a run has set up: those before `li` while it works on the lines, and
in P_FAULT, where `li` is as the run left it; all of them from P_LINE_SETTLE on. -/
def linesSetUp (s : State) : Nat :=
  match s.phase with
  | .pReset => 0
  | .pLines => s.li
  | .pFault => s.li
  | _ => s.lines.length

/-- Every line the run has been through is set up (rules R186, R187, R189). -/
def LinesInv (s : State) : Prop :=
  ∀ (k : Nat) (l : Line), k < linesSetUp s → s.lines[k]? = some l → LineSetUp l

/-- The image index in a replay phase: within the image, and on an entry at a gap (rule R14). -/
def ReplayProgress (s : State) (c : Chan) : Prop :=
  s.ch = allReady s.cfg.chans ∧ s.idx ≤ s.imageLength c ∧
    (s.sub = .s0 ∨ s.sub = .s1 ∧ s.idx < s.imageLength c) ∧
    (s.hung.isSome → s.sub = .s0 ∧ s.idx < s.imageLength c)

/-- What each phase of a run promises. -/
def PhaseInv (s : State) : Prop :=
  match s.phase with
  | .pReset => s.ch = allFresh ∧ s.sub = .s0 ∧ s.hung = none
  | .pLines => s.ch = allFresh ∧ LineProgress s ∧ s.hung = none
  | .pLineSettle => s.ch = allFresh ∧ s.sub = .s0 ∧ s.hung = none
  | .pOpen => OpenProgress s ∧ s.hung = none
  | .pProgCnd => ReplayProgress s .cnd
  | .pSettleCnd => s.ch = allReady s.cfg.chans ∧ s.sub = .s0 ∧ s.hung = none
  | .pProgSyn1 => ReplayProgress s .syn1
  | .pSettleSyn1 => s.ch = allReady s.cfg.chans ∧ s.sub = .s0 ∧ s.hung = none
  | .pProgSyn2 => ReplayProgress s .syn2
  | .pSettleSyn2 => s.ch = allReady s.cfg.chans ∧ s.sub = .s0 ∧ s.hung = none
  | .pClose => s.ch = allReady s.cfg.chans ∧ s.sub = .s0 ∧ s.hung = none
  | .pDone => (∀ c, (s.ch.get c).isOpen = false) ∧ s.sub = .s0 ∧ s.hung = none
  | .pFault => (∀ c, (s.ch.get c).isOpen = false) ∧ s.hung = none

/-- The exit status of a run: none before a terminal phase, 0 in P_DONE, EXIT_FATAL in P_FAULT
(rules R18, R213, R214). -/
def ExitInv (s : State) : Prop :=
  s.exitStatus = match s.phase with
    | .pDone => some 0
    | .pFault => some s.cfg.exitFatal
    | _ => none

/-- The invariant of a bring-up run: no operation is requested from outside, the configuration is one
the spec allows, each phase keeps its promise, and the lines gone through are set up. -/
def RunInv (s : State) : Prop :=
  s.ops = [] ∧ s.cfg.wf = true ∧ PhaseInv s ∧ LinesInv s ∧ ExitInv s

/-! ### The hazards as invariants (rules R51, R219, R22, R270 to R274) -/

/-- Phases in which no frame has been sent yet in a run, and P_FAULT (rule R219). -/
def noFramePhase : Phase → Bool
  | .pReset => true
  | .pLines => true
  | .pLineSettle => true
  | .pOpen => true
  | .pFault => true
  | _ => false

/-- Abort before start (rules R188, R219). -/
def NoFrameBeforeFault (s : State) : Prop :=
  s.ops = [] ∧ (noFramePhase s.phase = true → busTraceAll s.trace = [])

/-- Phases before the first channel is opened. -/
def beforeBus : Phase → Bool
  | .pReset => true
  | .pLines => true
  | .pLineSettle => true
  | _ => false

/-- Lines before bus (rules R187, R270): no channel is opened before the line settle. -/
def LinesBeforeBus (s : State) : Prop :=
  s.ops = [] ∧
    (beforeBus s.phase = true → ∀ e ∈ s.trace, isChanOpen e = false) ∧
    (beforeBus s.phase = false → s.phase ≠ .pFault → ∃ e ∈ s.trace, isDelay .lineSettle e = true) ∧
    Precedes (isDelay .lineSettle) isChanOpen s.trace

/-- Configure before transmit (rule R271): what a channel holds was verified, and every frame on a
channel comes after its three verified steps. -/
def ConfiguredBeforeTransmit (s : State) : Prop :=
  ∀ c, ((s.ch.get c).mode.isSome → ∃ e ∈ s.trace, isVerified c .mode e = true) ∧
    ((s.ch.get c).bits.isSome → ∃ e ∈ s.trace, isVerified c .bits e = true) ∧
    ((s.ch.get c).hz.isSome → ∃ e ∈ s.trace, isVerified c .hz e = true) ∧
    ∀ w, Precedes (isVerified c w) (isXferOn c) s.trace

/-- The channel whose replay a phase belongs to or has just finished. -/
def replayedUpTo : Phase → Nat
  | .pReset => 0
  | .pLines => 0
  | .pLineSettle => 0
  | .pOpen => 0
  | .pFault => 0
  | .pProgCnd => 1
  | .pSettleCnd => 1
  | .pProgSyn1 => 2
  | .pSettleSyn1 => 2
  | .pProgSyn2 => 3
  | .pSettleSyn2 => 3
  | .pClose => 3
  | .pDone => 3

/-- The order of the channels (rules R51, R274): conditioner fully before either synthesizer, the
first synthesizer fully before the second. -/
def ChannelOrder (s : State) : Prop :=
  s.ops = [] ∧
    (∀ c, replayedUpTo s.phase ≤ c.index → ∀ e ∈ s.trace, isXferOn c e = false) ∧
    NoneBefore (isXferOn .syn1) (isXferOn .cnd) s.trace ∧
    NoneBefore (isXferOn .syn2) (isXferOn .cnd) s.trace ∧
    NoneBefore (isXferOn .syn2) (isXferOn .syn1) s.trace

/-- Every frame put on a channel is the encoding of an entry of that channel's image (rules R55, R164,
R215, R276). -/
def OnlyImageFrames (s : State) : Prop :=
  s.ops = [] ∧ ∀ c f r, Event.xfer c f r ∈ s.trace → f ∈ imageFrames s.cfg c

/-- Each handle is opened at most once in a run and released at most once, and only while open
(rules R22, R107). -/
def HandleOnce (s : State) : Prop :=
  ∀ c, (s.trace.filter (isOpenOk c)).length = (if (s.ch.get c).iwd.isSome then 1 else 0) ∧
    (s.trace.filter (isCloseOf c)).length + (if (s.ch.get c).isOpen then 1 else 0) =
      (if (s.ch.get c).iwd.isSome then 1 else 0)

/-! ### Durations (rule R280) -/

/-- A delay event with its duration erased. -/
def eraseEvent : Event → Event
  | .delay n _ => .delay n 0
  | e => e

/-- The configuration with every named duration set to 0. -/
def eraseParams (p : Params) : Params :=
  { p with tTxn := ⟨0, 0, 0⟩, tLineSettle := 0, tPostCnd := 0, tInterDev := 0 }

/-- A line with its pulse width set to 0. -/
def eraseLine (l : Line) : Line := { l with cfg := { l.cfg with tPulse := 0 } }

/-- The state with every duration set to 0 and erased from the trace. -/
def eraseDurations (s : State) : State :=
  { s with
    cfg := eraseParams s.cfg
    lines := s.lines.map eraseLine
    trace := s.trace.map eraseEvent }

/-- An outcome with every duration erased. -/
def eraseOutcome : Host.Outcome State Fault Refusal → Host.Outcome State Fault Refusal
  | .next s => .next (eraseDurations s)
  | .fault f => .fault f
  | .refused r => .refused r

/-! ### A whole run (rule R218) -/

/-- The events of one line's lifecycle when every answer is `ok` (rule R180). -/
def lineEvents (k : Nat) (l : LineCfg) : List Event :=
  [.lineExport k .ok, .lineDir k .ok] ++
    match l.policy with
    | .pulse => [.lineLevel k true, .delay (.pulse k) l.tPulse, .lineLevel k false]
    | .static v => [.lineLevel k v]

/-- The events of the lines from index `k` on. -/
def linesEvents : Nat → List Line → List Event
  | _, [] => []
  | k, l :: rest => lineEvents k l.cfg ++ linesEvents (k + 1) rest

/-- The four events of a channel opened and configured (rule R108). -/
def openEvents (p : Params) (c : Chan) : List Event :=
  .chanOpen c .ok ::
    [CfgWhich.mode, .bits, .hz].map fun w => .cfg c w ((p.chans.get c).value w) .verified

/-- A result that is a transport error (rule R57). -/
def failed : XferRes → Bool
  | .ok _ => false
  | .short _ => true
  | .fail => true

/-- The events of one image entry: its transfer, the record of a failed one right after it, and the
gap (rules R161, R162, R163). -/
def entryEvents (c : Chan) (gap i : Nat) (f : Frame) (r : XferRes) : List Event :=
  .xfer c f r ::
    ((if failed r then
        [.diag { code := 3, kind := .transaction, chan := some c, which := none, index := some i }]
      else []) ++
    [.delay (.txn c) gap])

/-- The events of the entries from index `i` on, with their frames and the results of their transfers
(rule R169). -/
def replayEvents (c : Chan) (gap : Nat) : Nat → List (Frame × XferRes) → List Event
  | _, [] => []
  | i, (f, r) :: rest => entryEvents c gap i f r ++ replayEvents c gap (i + 1) rest

/-- The events of an image's entries, as many as were answered. -/
def imageEvents (p : Params) (c : Chan) (rs : List XferRes) : List Event :=
  replayEvents c (p.tTxn.get c) 0 ((imageFrames p c).zip rs)

/-- The trace of a run that reaches P_DONE, from the results of its transfers (rule R218). -/
def bringUpTrace (p : Params) (lines : List Line) (r0 r1 r2 : List XferRes) : List Event :=
  linesEvents 0 lines ++ [.delay .lineSettle p.tLineSettle] ++
    openEvents p .cnd ++ openEvents p .syn1 ++ openEvents p .syn2 ++
    imageEvents p .cnd r0 ++ [.delay .postCnd p.tPostCnd] ++
    imageEvents p .syn1 r1 ++ [.delay .interDev p.tInterDev] ++
    imageEvents p .syn2 r2 ++ [.delay .interDev p.tInterDev] ++
    [.close .cnd, .close .syn1, .close .syn2, .exit 0]

/-- Every transfer of an image answered with a reply of zeros. -/
def zeroReplies (p : Params) (c : Chan) : List XferRes :=
  (imageFrames p c).map fun _ => .ok ⟨0, 0, 0⟩

/-- The trace of a clean run with the ideal device (rules R52, R218). -/
def cleanTrace (p : Params) (lines : List Line) : List Event :=
  bringUpTrace p lines (zeroReplies p .cnd) (zeroReplies p .syn1) (zeroReplies p .syn2)

/-- The last record in a list of events. -/
def lastDiag (t : List Event) : Option Diag :=
  (t.filterMap fun
    | .diag d => some d
    | _ => none).getLast?

/-- Every question the lines' lifecycles ask is answered `ok`. -/
def linesAnsweredOk : List Line → Env → Prop
  | [], _ => True
  | l :: rest, e =>
    e.lineExportAns l.cfg.id = .ok ∧ e.afterLineExport.lineSetDirAns l.cfg.id = .ok ∧
      linesAnsweredOk rest e.afterLineExport.afterLineSetDir

/-- The environment after it answered the lines' questions. -/
def envAfterLines : List Line → Env → Env
  | [], e => e
  | _ :: rest, e => envAfterLines rest e.afterLineExport.afterLineSetDir

/-- Every configuration step of a list is set and reads back equal on a channel (rule R105). -/
def cfgAnsweredOk (p : Params) (c : Chan) : List CfgWhich → Env → Prop
  | [], _ => True
  | w :: rest, e =>
    e.cfgSetAns c w ((p.chans.get c).value w) = .ok ∧
      e.afterCfgSet.cfgGetAns c w ((p.chans.get c).value w) = .value ((p.chans.get c).value w) ∧
      cfgAnsweredOk p c rest e.afterCfgSet.afterCfgGet

/-- The environment after it answered a list of configuration steps. -/
def envAfterCfg : List CfgWhich → Env → Env
  | [], e => e
  | _ :: rest, e => envAfterCfg rest e.afterCfgSet.afterCfgGet

/-- The three configuration steps, in their order (rule R100). -/
def cfgOrder : List CfgWhich := [.mode, .bits, .hz]

/-- Every question asked in opening a list of channels is answered well (rule R108). -/
def opensAnsweredOk (p : Params) : List Chan → Env → Prop
  | [], _ => True
  | c :: rest, e =>
    e.chanOpenAns (p.chans.get c).path = .ok ∧ cfgAnsweredOk p c cfgOrder e.afterChanOpen ∧
      opensAnsweredOk p rest (envAfterCfg cfgOrder e.afterChanOpen)

/-- The environment after it answered the opening of a list of channels. -/
def envAfterOpens : List Chan → Env → Env
  | [], e => e
  | _ :: rest, e => envAfterOpens rest (envAfterCfg cfgOrder e.afterChanOpen)

/-- The channels in the order they are opened and programmed (rules R13, R205). -/
def chanOrder : List Chan := [.cnd, .syn1, .syn2]

/-- Every question before the first transfer is answered well: the lines', then the channels'. -/
def SetupAnsweredOk (s : State) : Prop :=
  linesAnsweredOk s.lines s.env ∧ opensAnsweredOk s.cfg chanOrder (envAfterLines s.lines s.env)

/-- The environment when the first transfer is asked. -/
def envAfterSetup (s : State) : Env := envAfterOpens chanOrder (envAfterLines s.lines s.env)

/-- The environment once a transfer was answered: after a transport error one free value more was drawn,
the one left in RXF (log 15). -/
def envAnswered (c : Chan) (f : Frame) (r : XferRes) (e : Env) : Env :=
  { e.afterXfer c f with draws := (e.afterXfer c f).draws + if failed r then 1 else 0 }

/-- The answers to the transfers of a list of frames, asked one after the other, up to the first that
never comes (rule R275). -/
def replayAnswers (c : Chan) : List Frame → Env → List XferRes
  | [], _ => []
  | f :: rest, e =>
    match e.xferAns c f with
    | none => []
    | some r => r :: replayAnswers c rest (envAnswered c f r e)

/-- The environment after those transfers. -/
def envAfterReplay (c : Chan) : List Frame → Env → Env
  | [], e => e
  | f :: rest, e =>
    match e.xferAns c f with
    | none => e.afterXfer c f
    | some r => envAfterReplay c rest (envAnswered c f r e)

/-- The operand latches after a replay on a channel: those of the other format keep what they held; those
of the channel's own format hold the entry whose frame is in TXF, once one was fetched (rules R16,
R161). -/
def Latches (c : Chan) (fetched : Prop) (s t : State) : Prop :=
  (c = .cnd → t.opW = s.opW ∧
    (fetched → cndEncWr t.opA t.opD = t.txf) ∧ (¬fetched → t.opA = s.opA ∧ t.opD = s.opD)) ∧
  (c ≠ .cnd → t.opA = s.opA ∧ t.opD = s.opD ∧
    (fetched → synSplit t.opW = t.txf) ∧ (¬fetched → t.opW = s.opW))

/-- The state a run starts from: just reset, started, nothing requested from outside. -/
def AtStart (s : State) : Prop :=
  s.phase = .pReset ∧ s.pinStart = true ∧ s.pinReset = false ∧ s.hung = none ∧ s.ops = [] ∧
    s.ch = allFresh ∧ s.trace = [] ∧ s.exitStatus = none ∧ s.cfg.wf = true

/-! ### Names the claims use -/

/-- The configuration operation of a step (rules R102, R103, R104). -/
def cfgInstr : CfgWhich → Chan → Instr
  | .mode, c => .tCfgMode c
  | .bits, c => .tCfgBits c
  | .hz, c => .tCfgHz c

/-- The phase that replays a channel's image (rules R206, R208, R210). -/
def progPhaseOf : Chan → Phase
  | .cnd => .pProgCnd
  | .syn1 => .pProgSyn1
  | .syn2 => .pProgSyn2

/-- The phase after a replay (rules R206, R208, R210). -/
def settlePhaseOf : Chan → Phase
  | .cnd => .pSettleCnd
  | .syn1 => .pSettleSyn1
  | .syn2 => .pSettleSyn2

/-- The operations that put frames on the bus. -/
def transfers : Instr → Bool
  | .cndWr _ _ => true
  | .cndRd _ => true
  | .synWr _ _ _ => true
  | .synRd _ _ _ => true
  | .tXfer _ _ => true
  | .sProgram _ => true
  | .pProgCnd => true
  | .pProgSyn1 => true
  | .pProgSyn2 => true
  | _ => false

/-- A line after its whole lifecycle (rules R180, R186). -/
def lineDone (l : Line) : Line :=
  { l with
    exported := true
    dir := .out
    level := some (finalLevel l.cfg.policy)
    exportedNow := true
    dirNow := true }

/-- A line keeps its configuration, and what was done to it is not undone (rules R23, R34, R189). -/
def LineKept (l l' : Line) : Prop :=
  l'.cfg = l.cfg ∧ (l.exported = true → l'.exported = true) ∧ (l.dir = .out → l'.dir = .out)

end Sys2Proof.Safety
end

