-- ==== Sys2Proof/Certificates/Slice0/Obligations.lean ====
section
/-!
DEFINITION. The statements about the model, each a Prop. OBLIGATIONS.json gives the rule or the
sections of spec/ each rests on.
-/

open Sys2Proof Sys2Proof.Machine Sys2Proof.Safety

/-! ### Encoding -/

/-- Decoding the words of a well-formed instruction gives it back, with every operand at every
value. The operation codes are the spec's decision D17; how operands follow a code byte is the
model's (log 9). -/
def Obligations.DecodeEncodeRoundTrip : Prop :=
  ∀ i : Instr, i.wf = true → decode i.port (encode i) = .ok i

/-- Words written out from rules R80, R83 and R200 decode to their instructions. The operation
codes are the spec's decision D17; the operand bytes after a code are the model's (log 9). -/
def Obligations.WrittenWordsDecode : Prop :=
  decode (.wire .cnd) [0x01, 0x23, 0x45] = .ok (.cndWr 0x0123 0x45) ∧
  decode (.wire .cnd) [0x9F, 0xFF, 0x00] = .ok (.cndRd 0x1FFF) ∧
  decode (.wire .syn1) [0x01, 0x23, 0x45] = .ok (.synWr .first 0x01 0x2345) ∧
  decode (.wire .syn2) [0xF0, 0x00, 0x00] = .ok (.synRd .second 0x70 0x0000) ∧
  decode .op8 [0x14, 0x01, 0x70, 0x00, 0x00] = .ok (.tXfer .syn1 ⟨0x70, 0x00, 0x00⟩) ∧
  decode .op8 [0x22, 0x00, 0x07, 0x01] = .ok (.lLevel 7 true) ∧
  decode .op8 [0x33] = .ok .sReadback ∧
  decode .phase4 [0xC] = .ok .pFault

/-- The conditioner codec's laws (rule R127): both round trips, injectivity, and the way back
from a valid write frame. The spec marks the rule as derived from rules R121, R123 and R124. -/
def Obligations.ConditionerCodecRoundTrip : Prop :=
  (∀ (a : BitVec 13) (d : Byte),
    (cndRw (cndEncWr a d), cndRsv (cndEncWr a d), cndAddr (cndEncWr a d), cndData (cndEncWr a d)) =
      (0#1, 0#2, a, d)) ∧
  (∀ a : BitVec 13,
    (cndRw (cndEncRd a), cndRsv (cndEncRd a), cndAddr (cndEncRd a), cndData (cndEncRd a)) =
      (1#1, 0#2, a, 0#8)) ∧
  (∀ (a a' : BitVec 13) (d d' : Byte), cndEncWr a d = cndEncWr a' d' → a = a' ∧ d = d') ∧
  (∀ f : Frame, cndFrameValid f = true → f.b0.getLsbD 7 = false →
    cndEncWr (cndAddr f) (cndData f) = f)

/-- The synthesizer codec's laws (rule R147): split and join, pack and fields, are inverse to
each other both ways, so the split is a bijection. The spec marks the rule as derived from rules
R141 to R144. -/
def Obligations.SynthesizerCodecBijection : Prop :=
  (∀ w : Word24, synJoin (synSplit w) = w) ∧
  (∀ f : Frame, synSplit (synJoin f) = f) ∧
  (∀ w : Word24, synPack (synRw w) (synAddr w) (synData w) = w) ∧
  (∀ (rw : BitVec 1) (a : BitVec 7) (d : BitVec 16),
    (synRw (synPack rw a d), synAddr (synPack rw a d), synData (synPack rw a d)) = (rw, a, d)) ∧
  Function.Bijective synSplit

/-- `cnd_frame_valid` is true exactly of the frames the two encoders can produce (rule R124).
The spec marks the sentence as derived; the predicate is its decision D14. -/
def Obligations.ValidFramesAreTheEncoded : Prop :=
  ∀ f : Frame, cndFrameValid f = true ↔ ∃ (a : BitVec 13) (d : Byte), f = cndEncWr a d ∨ f = cndEncRd a

/-- On a synthesizer channel every frame is a write or a read, by its top bit, and encoding what was
decoded gives the frame back (rules R80, R81). -/
def Obligations.SynthesizerFramesPartition : Prop :=
  ∀ (n : SynChan) (b0 b1 b2 : Byte), ∃ i : Instr,
    decode (.wire n.chan) [b0, b1, b2] = .ok i ∧ encode i = [b0, b1, b2] ∧
    (b0.getLsbD 7 = false → ∃ a d, i = .synWr n a d) ∧
    (b0.getLsbD 7 = true → ∃ a d, i = .synRd n a d)

/-- On the conditioner channel: reserved bits set are rejected by name, a write decodes to a
write, a read to a read whatever its third byte (rule R81). That a read's third byte is ignored
is the spec's own derivation; refusing reserved bits is the model's choice (log 28). -/
def Obligations.ConditionerFramesDecode : Prop :=
  ∀ b0 b1 b2 : Byte,
    (b0.toNat / 32 % 4 ≠ 0 → decode (.wire .cnd) [b0, b1, b2] = .error .reservedBits) ∧
    (b0.toNat < 32 → ∃ a d, decode (.wire .cnd) [b0, b1, b2] = .ok (.cndWr a d) ∧
      encode (.cndWr a d) = [b0, b1, b2]) ∧
    (b0.toNat / 32 = 4 → ∃ a, decode (.wire .cnd) [b0, b1, b2] = .ok (.cndRd a) ∧
      encode (.cndRd a) = [b0, b1, 0x00])

/-! ### Codec operations -/

/-- `cnd_enc_wr` and `cnd_enc_rd` answer with the frame of rules R121 and R123, operands in
wider containers losing their upper bits, and change nothing but what they return. Dropping the
upper bits is the spec's decision D15; where the result goes is the model's (log 11). -/
def Obligations.ConditionerEncodersResult : Prop :=
  ∀ (a d : BitVec 16) (s : State),
    (∃ f : Frame, exec (.cndEncWr a d) s = .next { s with ret := .frame f } ∧
      f.b0.toNat = a.toNat / 256 % 32 ∧ f.b1.toNat = a.toNat % 256 ∧ f.b2.toNat = d.toNat % 256 ∧
      (word24 f).toNat = a.toNat % 8192 * 256 + d.toNat % 256 ∧ (word24 f).toNat < 0x200000) ∧
    (∃ f : Frame, exec (.cndEncRd a) s = .next { s with ret := .frame f } ∧
      f.b0.toNat = 128 + a.toNat / 256 % 32 ∧ f.b1.toNat = a.toNat % 256 ∧ f.b2 = 0x00 ∧
      (word24 f).toNat = 0x800000 + a.toNat % 8192 * 256)

/-- `cnd_parse` with `cnd_frame_valid`, and `cnd_rd_value`, answer with the fields of rules R124
and R125 and change nothing but what they return. Returning the reserved bits is the spec's
decision D14; where the result goes is the model's (log 11). -/
def Obligations.ConditionerParseResult : Prop :=
  ∀ (f : Frame) (s : State),
    (∃ (rw : BitVec 1) (rsv : BitVec 2) (a : BitVec 13) (d : Byte) (valid : Bool),
      exec (.cndParse f) s = .next { s with ret := .cndFields rw rsv a d valid } ∧
      rw.toNat = f.b0.toNat / 128 ∧ rsv.toNat = f.b0.toNat / 32 % 4 ∧
      a.toNat = f.b0.toNat % 32 * 256 + f.b1.toNat ∧ d = f.b2 ∧
      (valid = true ↔ f.b0.toNat / 32 % 4 = 0 ∧ (f.b0.toNat < 128 ∨ f.b2 = 0x00))) ∧
    exec (.cndRdValue f) s = .next { s with ret := .byte f.b2 }

/-- The four synthesizer codec functions answer as rules R141 to R144 say and change nothing but
what they return. Rules R142 and R144 are marked as derived, wide operands are the spec's
decision D15; where the result goes is the model's (log 11). -/
def Obligations.SynthesizerCodecResult : Prop :=
  ∀ (w : BitVec 32) (g : Frame) (rw addr : Byte) (data : BitVec 16) (s : State),
    (∃ f : Frame, exec (.synSplit w) s = .next { s with ret := .frame f } ∧
      f.b0.toNat = w.toNat / 65536 % 256 ∧ f.b1.toNat = w.toNat / 256 % 256 ∧
      f.b2.toNat = w.toNat % 256) ∧
    (∃ x : Word24, exec (.synJoin g) s = .next { s with ret := .word x } ∧
      x.toNat = g.b0.toNat * 65536 + g.b1.toNat * 256 + g.b2.toNat) ∧
    (∃ (r : BitVec 1) (a : BitVec 7) (d : BitVec 16),
      exec (.synFields w) s = .next { s with ret := .synFields r a d } ∧
      r.toNat = w.toNat / 8388608 % 2 ∧ a.toNat = w.toNat / 65536 % 128 ∧
      d.toNat = w.toNat % 65536) ∧
    (∃ x : Word24, exec (.synPack rw addr data) s = .next { s with ret := .word x } ∧
      x.toNat = rw.toNat % 2 * 8388608 + addr.toNat % 128 * 65536 + data.toNat)

/-! ### Bus transport -/

/-- `T.OPEN` (rule R101): on `ok` the handle is open and the inter-word delay loaded; on `fail`
the fatal entry is taken with a `ChannelOpenError`. Nothing else changes. Loading the delay is
the spec's decision D5, the record and the order of the releases its decisions D8, D24 and D30. -/
def Obligations.OpenResult : Prop :=
  ∀ (c : Chan) (s : State), (s.ch.get c).isOpen = false → (s.ch.get c).iwd = none →
    (s.env.chanOpenAns (s.cfg.chans.get c).path = .ok →
      exec (.tOpen c) s = .next { s with
        env := s.env.afterChanOpen
        trace := s.trace ++ [.chanOpen c .ok]
        ch := s.ch.set c { s.ch.get c with isOpen := true, iwd := some (s.cfg.chans.get c).iwd } }) ∧
    (s.env.chanOpenAns (s.cfg.chans.get c).path = .fail →
      exec (.tOpen c) s = .next (afterFatal
        { s with env := s.env.afterChanOpen, trace := s.trace ++ [.chanOpen c .fail] }
        { code := 1, kind := .channelOpen, chan := some c, which := none, index := none }))

/-- `T.CFG_MODE`, `T.CFG_BITS`, `T.CFG_HZ` (rules R102 to R105): the value is stored when it
reads back equal; a failed set (after which no read-back is asked), a failed read-back and a
mismatch each take the fatal entry with a `ChannelConfigError`. That the three failures are one
error, and that no read-back follows a failed set, is the spec's decision D27; the record and
the order of the releases are its D8, D24 and D30. -/
def Obligations.ConfigStepsSetAndVerify : Prop :=
  ∀ (w : CfgWhich) (c : Chan) (s : State), cfgReady (s.ch.get c) w = true →
    let v := (s.cfg.chans.get c).value w
    let bad (e : Env) (r : CfgRes) : State := afterFatal
      { s with env := e, trace := s.trace ++ [.cfg c w v r] }
      { code := 2, kind := .channelConfig, chan := some c, which := some (.cfg w), index := none }
    (s.env.cfgSetAns c w v = .ok → s.env.afterCfgSet.cfgGetAns c w v = .value v →
      exec (cfgInstr w c) s = .next { s with
        env := s.env.afterCfgSet.afterCfgGet
        trace := s.trace ++ [.cfg c w v .verified]
        ch := s.ch.set c ((s.ch.get c).store v) }) ∧
    (s.env.cfgSetAns c w v = .fail →
      exec (cfgInstr w c) s = .next (bad s.env.afterCfgSet .setFailed)) ∧
    (s.env.cfgSetAns c w v = .ok → s.env.afterCfgSet.cfgGetAns c w v = .fail →
      exec (cfgInstr w c) s = .next (bad s.env.afterCfgSet.afterCfgGet .getFailed)) ∧
    (∀ v', s.env.cfgSetAns c w v = .ok → s.env.afterCfgSet.cfgGetAns c w v = .value v' → v' ≠ v →
      exec (cfgInstr w c) s = .next (bad s.env.afterCfgSet.afterCfgGet (.mismatch v')))

/-- `T.XFER` on a configured channel (rule R106): the reply goes to RXF; after a short or failed
transfer RXF is some frame (a free value) and nothing is raised; a transfer never answered
leaves the block waiting, with no event. TXF is not written (rule R15). That the frame is the
operand, where the result goes, the free value and the waiting state are the model's (logs 12,
11, 15, 6); so is sending a frame that no encoder builds, on channel 0 one with reserved bits set
or a read with a nonzero third byte, as it stands (log 36). -/
def Obligations.TransferResult : Prop :=
  ∀ (c : Chan) (f : Frame) (s : State), s.configured c = true →
    (∀ r, s.env.xferAns c f = some (.ok r) →
      exec (.tXfer c f) s = .next { s with
        rxf := r
        env := s.env.afterXfer c f
        trace := s.trace ++ [.xfer c f (.ok r)]
        ret := .xfer (.ok r) }) ∧
    (∀ r, failed r = true → s.env.xferAns c f = some r →
      ∃ (junk : Frame) (n : Nat), exec (.tXfer c f) s = .next { s with
        rxf := junk
        env := { s.env.afterXfer c f with draws := n }
        trace := s.trace ++ [.xfer c f r]
        ret := .xfer r }) ∧
    (s.env.xferAns c f = none →
      exec (.tXfer c f) s = .next { s with
        env := s.env.afterXfer c f
        hung := some ⟨c, f⟩ })

/-- Every operation that puts a frame on a channel is refused, with no effect, while the channel
is not configured (rule R106, D18): `T.XFER`, the wire operations, `S.PROGRAM`, and the XFER
sub-step of the three replay phases where there is an entry to send. For `T.XFER` this is the
spec's decision D18; for what is built on it, the model's (log 13). -/
def Obligations.TransferRefusedUnlessConfigured : Prop :=
  ∀ (c : Chan) (s : State), s.configured c = false →
    (∀ f, exec (.tXfer c f) s = .refused (.channelNotConfigured c)) ∧
    exec (.sProgram c) s = .refused (.channelNotConfigured c) ∧
    (s.sub = .s0 → s.idx < s.imageLength c →
      exec (progPhaseOf c).instr s = .refused (.channelNotConfigured c)) ∧
    (c = .cnd → (∀ a d, exec (.cndWr a d) s = .refused (.channelNotConfigured c)) ∧
      ∀ a, exec (.cndRd a) s = .refused (.channelNotConfigured c)) ∧
    (∀ n : SynChan, c = n.chan → ∀ a d, exec (.synWr n a d) s = .refused (.channelNotConfigured c) ∧
      exec (.synRd n a d) s = .refused (.channelNotConfigured c))

/-- `T.CLOSE` on an open channel (rule R107): the event and the released handle, the negotiated
parameters kept, and nothing else. -/
def Obligations.CloseResult : Prop :=
  ∀ (c : Chan) (s : State), (s.ch.get c).isOpen = true →
    exec (.tClose c) s = .next { s with
      trace := s.trace ++ [.close c]
      ch := s.ch.set c { s.ch.get c with isOpen := false } }

/-- An operation whose stated precondition fails is refused by name: `T.OPEN` on an open or a
released channel, a configuration step out of order, `T.CLOSE` on a channel that is not open, `L.DIR`
and `L.LEVEL` before their line's earlier steps of this run. The refusal is the model's choice
(log 13): the rules state the preconditions only. -/
def Obligations.OutOfOrderOperationsRefused : Prop :=
  ∀ (c : Chan) (w : CfgWhich) (k : Nat) (v : Bool) (l : Line) (s : State),
    ((s.ch.get c).isOpen = true → exec (.tOpen c) s = .refused (.channelAlreadyOpen c)) ∧
    ((s.ch.get c).isOpen = false → (s.ch.get c).iwd.isSome = true →
      exec (.tOpen c) s = .refused (.channelReleased c)) ∧
    (cfgReady (s.ch.get c) w = false → exec (cfgInstr w c) s = .refused (.configOutOfOrder c w)) ∧
    ((s.ch.get c).isOpen = false → exec (.tClose c) s = .refused (.channelNotOpen c)) ∧
    (s.lines[k]? = some l → l.exportedNow = false →
      exec (.lDir k) s = .refused (.lineNotExported k)) ∧
    (s.lines[k]? = some l → l.dirNow = false →
      exec (.lLevel k v) s = .refused (.lineNotOutput k))

/-! ### Wire frames -/

/-- `CND.WR` (rule R122) on a configured channel: the write frame goes into TXF and out on
channel 0, the transfer's result to the caller, whatever it is; a transfer never answered leaves
the block waiting, with no event (rule R275). The latches keep what they held. Where the result
goes, the latches, RXF after an error (a free value) and the waiting state are the model's (logs
11, 12, 15, 6). -/
def Obligations.ConditionerWriteResult : Prop :=
  ∀ (a : BitVec 13) (d : Byte) (s : State), s.configured .cnd = true →
    (∀ r, s.env.xferAns .cnd (cndEncWr a d) = some r →
      ∃ (x : Frame) (n : Nat), exec (.cndWr a d) s = .next { s with
          txf := cndEncWr a d
          rxf := x
          env := { s.env.afterXfer .cnd (cndEncWr a d) with draws := n }
          trace := s.trace ++ [.xfer .cnd (cndEncWr a d) r]
          ret := .xfer r } ∧
        ∀ y, r = .ok y → x = y ∧ n = (s.env.afterXfer .cnd (cndEncWr a d)).draws) ∧
    (s.env.xferAns .cnd (cndEncWr a d) = none →
      exec (.cndWr a d) s = .next { s with
        txf := cndEncWr a d
        env := s.env.afterXfer .cnd (cndEncWr a d)
        hung := some ⟨.cnd, cndEncWr a d⟩ })

/-- `CND.RD` (rule R126) on a configured channel: the read frame goes out on channel 0 and the
reply's third byte is the value returned; a transfer that did not succeed returns its error, and
one never answered leaves the block waiting, with no event (rule R275). The latches keep what
they held. Where the value goes, the latches, RXF after an error (a free value) and the waiting
state are the model's (logs 11, 12, 15, 6). -/
def Obligations.ConditionerReadResult : Prop :=
  ∀ (a : BitVec 13) (s : State), s.configured .cnd = true →
    (∀ y, s.env.xferAns .cnd (cndEncRd a) = some (.ok y) →
      exec (.cndRd a) s = .next { s with
        txf := cndEncRd a
        rxf := y
        env := s.env.afterXfer .cnd (cndEncRd a)
        trace := s.trace ++ [.xfer .cnd (cndEncRd a) (.ok y)]
        ret := .value y.b2 }) ∧
    (∀ r, failed r = true → s.env.xferAns .cnd (cndEncRd a) = some r →
      ∃ (x : Frame) (n : Nat), exec (.cndRd a) s = .next { s with
        txf := cndEncRd a
        rxf := x
        env := { s.env.afterXfer .cnd (cndEncRd a) with draws := n }
        trace := s.trace ++ [.xfer .cnd (cndEncRd a) r]
        ret := .xfer r }) ∧
    (s.env.xferAns .cnd (cndEncRd a) = none →
      exec (.cndRd a) s = .next { s with
        txf := cndEncRd a
        env := s.env.afterXfer .cnd (cndEncRd a)
        hung := some ⟨.cnd, cndEncRd a⟩ })

/-- `SYN.WR` and `SYN.RD` (rules R145, R146) on a configured channel: the word with bit 23 = 0 or
1 is split into TXF and goes out on the synthesizer's channel; the reply means nothing; a
transfer never answered leaves the block waiting, with no event (rule R275). The latches keep
what they held. No meaning for the reply is the spec's decision D13; that the result of either
goes to the caller, the latches, RXF after an error (a free value) and the waiting state are the
model's (logs 11, 12, 15, 6). -/
def Obligations.SynthesizerFrameResult : Prop :=
  ∀ (n : SynChan) (addr : BitVec 7) (data : BitVec 16) (rw : BitVec 1) (s : State),
    s.configured n.chan = true →
    let f : Frame := ⟨rw ++ addr, data.extractLsb' 8 8, data.extractLsb' 0 8⟩
    let i : Instr := if rw = 0#1 then .synWr n addr data else .synRd n addr data
    (∀ r, s.env.xferAns n.chan f = some r →
      ∃ (x : Frame) (m : Nat), exec i s = .next { s with
          txf := f
          rxf := x
          env := { s.env.afterXfer n.chan f with draws := m }
          trace := s.trace ++ [.xfer n.chan f r]
          ret := .xfer r } ∧
        ∀ y, r = .ok y → x = y ∧ m = (s.env.afterXfer n.chan f).draws) ∧
    (s.env.xferAns n.chan f = none →
      exec i s = .next { s with
        txf := f
        env := s.env.afterXfer n.chan f
        hung := some ⟨n.chan, f⟩ })

/-- With the ideal device of rule R52: a conditioner write is read back at its register and no
other register of any device changes; a conditioner read returns the register and changes none;
a synthesizer write reaches its own device alone. The ideal device is the spec's decision D21,
no claim about the devices; how its spaces are held is the model's (log 16). -/
def Obligations.IdealDeviceStoresAndReplies : Prop :=
  ∀ (s t : State), s.env.kind = .ideal → s.env.devicesWf = true →
    (∀ a d, exec (.cndWr a d) s = .next t →
      t.env.devSyn1 = s.env.devSyn1 ∧ t.env.devSyn2 = s.env.devSyn2 ∧
      ∀ x, memRead t.env.devCnd x = if x = a.toNat then d else memRead s.env.devCnd x) ∧
    (∀ a, exec (.cndRd a) s = .next t →
      t.env = s.env ∧ t.ret = .value (memRead s.env.devCnd a.toNat)) ∧
    (∀ a d, exec (.synWr .first a d) s = .next t →
      t.env.devCnd = s.env.devCnd ∧ t.env.devSyn2 = s.env.devSyn2 ∧
      ∀ x, memRead t.env.devSyn1 x = if x = a.toNat then d else memRead s.env.devSyn1 x) ∧
    (∀ a d, exec (.synWr .second a d) s = .next t →
      t.env.devCnd = s.env.devCnd ∧ t.env.devSyn1 = s.env.devSyn1 ∧
      ∀ x, memRead t.env.devSyn2 x = if x = a.toNat then d else memRead s.env.devSyn2 x) ∧
    (∀ n a d, exec (.synRd n a d) s = .next t → t.env = s.env)

/-- The pin-level view of a transfer (rules R33, R41, R106, R111; the spec's decisions D2 and D3,
log 27): the 24 bits of the request, and of the reply where there is one, byte 0 first and each
byte's top bit first; its own channel's chip select at the active level and no other channel's,
and no chip select active at any other event. Byte 0 first where CFG_BITS is not 8 (log 33), and
all 24 bits of the request in a short or failed transfer (log 34), are the model's. -/
def Obligations.PinViewOfATransfer : Prop :=
  ∀ (c c' : Chan) (f : Frame) (r : XferRes) (s : State),
    (∀ i : Nat, i < 8 →
      (pinMosi (.xfer c f r))[i]? = some (f.b0.getLsbD (7 - i)) ∧
      (pinMosi (.xfer c f r))[8 + i]? = some (f.b1.getLsbD (7 - i)) ∧
      (pinMosi (.xfer c f r))[16 + i]? = some (f.b2.getLsbD (7 - i))) ∧
    (pinMosi (.xfer c f r)).length = 24 ∧
    (∀ (y : Frame) (i : Nat), i < 24 → (pinMiso (.xfer c f (.ok y)))[i]? = some ((word24 y).getLsbD (23 - i))) ∧
    (s.pinCs (.xfer c f r) c' = s.cfg.csActive ↔ c' = c) ∧
    (∀ ev, isXfer ev = false → s.pinCs ev c' = !s.cfg.csActive)

/-! ### Control lines -/

/-- `L.EXPORT` (rule R181): on `ok` the line is exported and nothing else changes; on `fail` the
fatal entry is taken with a `LineSetupError`. Exporting a line already exported is the spec's
decision D20, the record and the order of the releases its D8, D24 and D30; the flag
`exportedNow` is the model's (log 14). -/
def Obligations.LineExportResult : Prop :=
  ∀ (k : Nat) (l : Line) (s : State), s.lines[k]? = some l →
    (s.env.lineExportAns l.cfg.id = .ok →
      exec (.lExport k) s = .next { s with
        env := s.env.afterLineExport
        trace := s.trace ++ [.lineExport k .ok]
        lines := s.lines.set k { l with exported := true, exportedNow := true } }) ∧
    (s.env.lineExportAns l.cfg.id = .fail →
      exec (.lExport k) s = .next (afterFatal
        { s with env := s.env.afterLineExport, trace := s.trace ++ [.lineExport k .fail] }
        { code := 4, kind := .lineSetup, chan := none, which := some .lineExport, index := some k }))

/-- `L.DIR` on a line exported in this run (rule R182): on `ok` the line is an output; on `fail`
the fatal entry is taken with a `LineSetupError`. Nothing else changes. The record and the order
of the releases are the spec's decisions D8, D24 and D30; the flags `exportedNow` and `dirNow` are
the model's (log 14). -/
def Obligations.LineDirectionResult : Prop :=
  ∀ (k : Nat) (l : Line) (s : State), s.lines[k]? = some l → l.exportedNow = true →
    (s.env.lineSetDirAns l.cfg.id = .ok →
      exec (.lDir k) s = .next { s with
        env := s.env.afterLineSetDir
        trace := s.trace ++ [.lineDir k .ok]
        lines := s.lines.set k { l with dir := .out, dirNow := true } }) ∧
    (s.env.lineSetDirAns l.cfg.id = .fail →
      exec (.lDir k) s = .next (afterFatal
        { s with env := s.env.afterLineSetDir, trace := s.trace ++ [.lineDir k .fail] }
        { code := 4, kind := .lineSetup, chan := none, which := some .lineDir, index := some k }))

/-- `L.LEVEL` on a line made an output in this run (rule R183): the event and the level, even
when the line has that level already. That a level write has no failure is the spec's decision
D12; the flag `dirNow`, and driving a line that `S.INIT_LINES` has set up again when it is called
from outside, are the model's (logs 14, 37). -/
def Obligations.LineLevelResult : Prop :=
  ∀ (k : Nat) (v : Bool) (l : Line) (s : State), s.lines[k]? = some l → l.dirNow = true →
    exec (.lLevel k v) s = .next { s with
      trace := s.trace ++ [.lineLevel k v]
      lines := s.lines.set k { l with level := some v } }

/-- A line operation on a line that does not exist faults, naming it (rule R28, log 30). The
fault is the model's choice (log 30). -/
def Obligations.NoSuchLineFaults : Prop :=
  ∀ (k : Nat) (v : Bool) (s : State), s.lines.length ≤ k →
    exec (.lExport k) s = .fault (.noSuchLine k) ∧ exec (.lDir k) s = .fault (.noSuchLine k) ∧
    exec (.lLevel k v) s = .fault (.noSuchLine k)

/-- `S.INIT_LINES` (rule R180). When every question is answered `ok`, each line in list order
goes through its whole lifecycle, with the events of its policy, and ends exported, an output
and at the level of its policy. At the first failed answer the lines before are done, the lines
after are untouched, and the fatal entry is taken with a `LineSetupError`. Nothing else changes.
The order line by line, doing nothing with no lines, and the level write without failure are the
spec's decisions D1, D26 and D12, the hold of a pulse, the record and the order of the releases its
D11, D8, D24 and D30; the whole procedure in one step, the flags of `lineDone`, and a second call
going through the lines again are the model's (logs 29, 14, 37). -/
def Obligations.InitLinesResult : Prop :=
  ∀ s : State,
    (linesAnsweredOk s.lines s.env →
      exec .sInitLines s = .next { s with
        env := envAfterLines s.lines s.env
        trace := s.trace ++ linesEvents 0 s.lines
        lines := s.lines.map lineDone }) ∧
    (∀ (pre rest : List Line) (l : Line), s.lines = pre ++ l :: rest → linesAnsweredOk pre s.env →
      let e := envAfterLines pre s.env
      let bad (e' : Env) (ev : List Event) (l' : Line) (w : DiagWhich) : State := afterFatal
        { s with
          env := e'
          trace := s.trace ++ (linesEvents 0 pre ++ ev)
          lines := pre.map lineDone ++ l' :: rest }
        { code := 4, kind := .lineSetup, chan := none, which := some w, index := some pre.length }
      (e.lineExportAns l.cfg.id = .fail →
        exec .sInitLines s = .next
          (bad e.afterLineExport [.lineExport pre.length .fail] l .lineExport)) ∧
      (e.lineExportAns l.cfg.id = .ok → e.afterLineExport.lineSetDirAns l.cfg.id = .fail →
        exec .sInitLines s = .next
          (bad e.afterLineExport.afterLineSetDir
            [.lineExport pre.length .ok, .lineDir pre.length .fail]
            { l with exported := true, exportedNow := true } .lineDir)))

/-- The phase P_LINES does in single steps what `S.INIT_LINES` does in one (rules R180, R203):
it ends in the line settle with the same lines, trace and answers taken, or in P_FAULT where
`S.INIT_LINES` does; only `li` and `sub` tell where it stands. The whole procedure in one step
is the model's (log 29). -/
def Obligations.LinesPhaseRefinesInitLines : Prop :=
  ∀ s : State, s.phase = .pLines → s.sub = .s0 → s.li = 0 → s.lines ≠ [] → s.hung = none →
    s.pinReset = false →
    ∃ (n : Nat) (t u : State), core.run n s = .next t ∧ exec .sInitLines s = .next u ∧
      ((u.phase = .pLines ∧
          t = { u with phase := .pLineSettle, sub := .s0, li := s.lines.length - 1 }) ∨
        (u.phase = .pFault ∧ t = { u with sub := t.sub, li := t.li }))

/-! ### Sequencer -/

/-- `S.PROGRAM` on a configured channel (rules R160, R161, R164, R169), from the answers its
transfers have one after the other: the entries' own events in stored order, each with its frame
and its answer, a failed one with its record right after it; the count and the last record
follow; `idx` stands past the answered entries. It stops early only at a transfer never
answered, which the block then waits for. TXF and the latches hold the last entry fetched, RXF
the last reply where it succeeded. Nothing else changes. The spec marks rules R164 and R169 as
derived; the gap after the last entry is its decision D10; the whole procedure in one step, the
waiting state, RXF after an error and the environment's counter are the model's (logs 29, 6, 15,
5). -/
def Obligations.ProgramSendsTheWholeImage : Prop :=
  ∀ (c : Chan) (s : State), s.configured c = true → s.hung = none →
    let fs := imageFrames s.cfg c
    let rs := replayAnswers c fs s.env
    ∃ t : State, exec (.sProgram c) s = .next t ∧
      t = { s with
        sub := .s0
        idx := rs.length
        txf := (fs.take (rs.length + 1)).getLast?.getD s.txf
        rxf := t.rxf
        opA := t.opA
        opD := t.opD
        opW := t.opW
        env := envAfterReplay c fs s.env
        trace := s.trace ++ imageEvents s.cfg c rs
        txnErrCount := s.txnErrCount + (rs.filter failed).length
        lastErr := (lastDiag (imageEvents s.cfg c rs)).or s.lastErr
        hung := fs[rs.length]?.map fun f => ⟨c, f⟩ } ∧
      Latches c (fs ≠ []) s t ∧
      (rs = [] → t.rxf = s.rxf) ∧ ∀ y, rs.getLast? = some (.ok y) → t.rxf = y

/-- A replay phase does in single steps what `S.PROGRAM` does in one (rules R160, R169): both
reach the same state, at the end of the image or waiting for the same transfer. The spec marks
the agreement as derived; the whole procedure in one step is the model's (log 29). -/
def Obligations.ReplayPhaseRefinesProgram : Prop :=
  ∀ (c : Chan) (s : State), s.phase = progPhaseOf c → s.sub = .s0 → s.idx = 0 → s.hung = none →
    s.pinReset = false → s.configured c = true →
    ∃ (n : Nat) (t : State), core.run n s = .next t ∧ exec (.sProgram c) s = .next t

/-- `S.DELAY` (rule R165): its event, and no other change, for every name and duration. That a
delay of 0 still records its event is the spec's decision D31. -/
def Obligations.DelayResult : Prop :=
  ∀ (name : DelayName) (t : Nat) (s : State),
    exec (.sDelay name t) s = .next { s with trace := s.trace ++ [.delay name t] }

/-- `S.READBACK` is refused by name, for either value of READBACK_ENABLE, and so is a start
while it is true (rule R215). Refusing `true` is the spec's decision D16; refusing the disabled
operation by name is the model's (log 21). -/
def Obligations.ReadbackRefused : Prop :=
  ∀ s : State,
    (s.cfg.readbackEnable = false → exec .sReadback s = .refused .readbackDisabled) ∧
    (s.cfg.readbackEnable = true → exec .sReadback s = .refused .readbackEnabled ∧
      (s.pinStart = true → exec .pReset s = .refused .readbackEnabled))

/-! ### The bring-up FSM -/

/-- `P_RESET` (rule R202): with `start` the counters are cleared and the lines, or with no lines
the line settle, follow; without it nothing happens. The settle with no lines and the `start`
input are the spec's decisions D26 and D22; a step that changes nothing where none is enabled is
the model's (log 7). -/
def Obligations.StartPhaseResult : Prop :=
  ∀ s : State,
    (s.pinStart = true → s.cfg.readbackEnable = false →
      exec .pReset s = .next { s with
        li := 0
        ci := .cnd
        idx := 0
        sub := .s0
        phase := if s.lines = [] then .pLineSettle else .pLines }) ∧
    (s.pinStart = false → exec .pReset s = .next s)

/-- `P_LINES` (rule R203), sub-step by sub-step, for the line at `li`; a failed export or
direction takes the fatal entry with a `LineSetupError`. The sub-steps are the spec's decision
D1, the hold of a pulse its D11, the level write without failure its D12, the record and the
order of the releases its D8, D24 and D30; the flags `exportedNow` and `dirNow` are the model's
(log 14). -/
def Obligations.LinesPhaseResult : Prop :=
  ∀ (l : Line) (s : State), s.lines[s.li]? = some l →
    let put (l' : Line) (evs : List Event) : State :=
      { s with lines := s.lines.set s.li l', trace := s.trace ++ evs }
    let next (t : State) : State :=
      if s.li + 1 < s.lines.length then { t with li := s.li + 1, sub := .s0 }
      else { t with phase := .pLineSettle, sub := .s0 }
    (s.sub = .s0 → s.env.lineExportAns l.cfg.id = .ok →
      exec .pLines s = .next { put { l with exported := true, exportedNow := true }
        [.lineExport s.li .ok] with env := s.env.afterLineExport, sub := .s1 }) ∧
    (s.sub = .s0 → s.env.lineExportAns l.cfg.id = .fail →
      exec .pLines s = .next (afterFatal
        { s with env := s.env.afterLineExport, trace := s.trace ++ [.lineExport s.li .fail] }
        { code := 4, kind := .lineSetup, chan := none, which := some .lineExport, index := some s.li })) ∧
    (s.sub = .s1 → l.exportedNow = true → s.env.lineSetDirAns l.cfg.id = .ok →
      exec .pLines s = .next { put { l with dir := .out, dirNow := true }
        [.lineDir s.li .ok] with env := s.env.afterLineSetDir, sub := .s2 }) ∧
    (s.sub = .s1 → l.exportedNow = true → s.env.lineSetDirAns l.cfg.id = .fail →
      exec .pLines s = .next (afterFatal
        { s with env := s.env.afterLineSetDir, trace := s.trace ++ [.lineDir s.li .fail] }
        { code := 4, kind := .lineSetup, chan := none, which := some .lineDir, index := some s.li })) ∧
    (s.sub = .s2 → l.dirNow = true → l.cfg.policy = .pulse →
      exec .pLines s = .next { put { l with level := some true }
        [.lineLevel s.li true] with sub := .s3 }) ∧
    (∀ v, s.sub = .s2 → l.dirNow = true → l.cfg.policy = .static v →
      exec .pLines s = .next (next (put { l with level := some v } [.lineLevel s.li v]))) ∧
    (s.sub = .s3 →
      exec .pLines s = .next { s with
        trace := s.trace ++ [.delay (.pulse s.li) l.cfg.tPulse], sub := .s4 }) ∧
    (s.sub = .s4 → l.dirNow = true →
      exec .pLines s = .next (next (put { l with level := some false } [.lineLevel s.li false])))

/-- `P_LINE_SETTLE` (rule R204): the settle, then the first channel's opening. -/
def Obligations.LineSettleResult : Prop :=
  ∀ s : State, exec .pLineSettle s = .next { s with
    trace := s.trace ++ [.delay .lineSettle s.cfg.tLineSettle]
    ci := .cnd
    sub := .s0
    phase := .pOpen }

/-- `P_OPEN` (rule R205), sub-step by sub-step, for the channel `ci`: open, mode, word size,
clock rate, then the next channel, or after the third channel the conditioner's image from entry
0; an operation that fails ends the run just as it does by itself. Opening all three channels
before the first frame is the spec's decision D6. -/
def Obligations.OpenPhaseResult : Prop :=
  ∀ s : State,
    let h := s.ch.get s.ci
    let p := s.cfg.chans.get s.ci
    (s.sub = .s0 → h.isOpen = false → h.iwd = none → s.env.chanOpenAns p.path = .ok →
      exec .pOpen s = .next { s with
        env := s.env.afterChanOpen
        trace := s.trace ++ [.chanOpen s.ci .ok]
        ch := s.ch.set s.ci { h with isOpen := true, iwd := some p.iwd }
        sub := .s1 }) ∧
    (s.sub = .s0 → h.isOpen = false → h.iwd = none → s.env.chanOpenAns p.path = .fail →
      exec .pOpen s = exec (.tOpen s.ci) s) ∧
    (∀ w, s.sub = (match w with | .mode => .s1 | .bits => .s2 | .hz => .s3) →
      cfgReady h w = true →
      (s.env.cfgSetAns s.ci w (p.value w) = .ok →
        s.env.afterCfgSet.cfgGetAns s.ci w (p.value w) = .value (p.value w) →
        let t : State := { s with
          env := s.env.afterCfgSet.afterCfgGet
          trace := s.trace ++ [.cfg s.ci w (p.value w) .verified]
          ch := s.ch.set s.ci (h.store (p.value w)) }
        exec .pOpen s = .next (match w, s.ci with
          | .mode, _ => { t with sub := .s2 }
          | .bits, _ => { t with sub := .s3 }
          | .hz, .cnd => { t with ci := .syn1, sub := .s0 }
          | .hz, .syn1 => { t with ci := .syn2, sub := .s0 }
          | .hz, .syn2 => { t with idx := 0, sub := .s0, phase := .pProgCnd })) ∧
      (s.env.cfgSetAns s.ci w (p.value w) = .fail ∨
          s.env.afterCfgSet.cfgGetAns s.ci w (p.value w) ≠ .value (p.value w) →
        exec .pOpen s = exec (cfgInstr w s.ci) s))

/-- The XFER sub-step of the three replay phases (rules R161, R162): entry `idx` goes out
encoded as the channel's codec says; a failed transfer is recorded and counted and the replay
goes on to the gap all the same; one never answered leaves the block waiting in the sub-step.
The named bits of a wide entry are the spec's decision D15; the free value and the waiting state
are the model's (logs 6, 15). -/
def Obligations.ReplayTransferResult : Prop :=
  ∀ (c : Chan) (f : Frame) (s : State), s.sub = .s0 → entryFrame s.cfg c s.idx = some f →
    s.configured c = true →
    let i := (progPhaseOf c).instr
    let e := s.env.afterXfer c f
    let rec_ : Diag :=
      { code := 3, kind := .transaction, chan := some c, which := none, index := some s.idx }
    ∃ (a : BitVec 13) (d : Byte) (w : Word24),
      (∀ r, s.env.xferAns c f = some (.ok r) →
        exec i s = .next { s with
          opA := a, opD := d, opW := w, txf := f, rxf := r, env := e, sub := .s1
          trace := s.trace ++ [.xfer c f (.ok r)] }) ∧
      (∀ r, failed r = true → s.env.xferAns c f = some r →
        ∃ (junk : Frame) (n : Nat), exec i s = .next { s with
          opA := a, opD := d, opW := w, txf := f, rxf := junk, env := { e with draws := n }, sub := .s1
          trace := s.trace ++ [.xfer c f r, .diag rec_]
          lastErr := some rec_
          txnErrCount := s.txnErrCount + 1 }) ∧
      (s.env.xferAns c f = none →
        exec i s = .next { s with
          opA := a, opD := d, opW := w, txf := f, env := e, hung := some ⟨c, f⟩ }) ∧
      (c = .cnd → w = s.opW ∧ cndEncWr a d = f) ∧ (c ≠ .cnd → a = s.opA ∧ d = s.opD ∧ synSplit w = f)

/-- The rest of the three replay phases (rules R163, R206): the gap records the image's delay
and advances `idx` by one; at the end of the image the phase is left for its settle. The gap
after the last entry and the empty image are the spec's decisions D10 and D26. -/
def Obligations.ReplayGapAndExit : Prop :=
  ∀ (c : Chan) (s : State),
    (s.sub = .s1 → exec (progPhaseOf c).instr s = .next { s with
      trace := s.trace ++ [.delay (.txn c) (s.cfg.tTxn.get c)]
      idx := s.idx + 1
      sub := .s0 }) ∧
    (s.sub = .s0 → s.idx = (imageFrames s.cfg c).length →
      exec (progPhaseOf c).instr s = .next { s with phase := settlePhaseOf c, sub := .s0 })

/-- The settles between the images (rules R207, R209): the named delay, then the next image from entry
0. -/
def Obligations.SettlePhasesResult : Prop :=
  ∀ s : State,
    exec .pSettleCnd s = .next { s with
      trace := s.trace ++ [.delay .postCnd s.cfg.tPostCnd]
      idx := 0, sub := .s0, phase := .pProgSyn1 } ∧
    exec .pSettleSyn1 s = .next { s with
      trace := s.trace ++ [.delay .interDev s.cfg.tInterDev]
      idx := 0, sub := .s0, phase := .pProgSyn2 }

/-- The end of the bring-up (rules R211, R212; the spec's decisions D7, D9, D10): one more inter-device
settle; then the open channels are closed in index order, the exit status is 0 whatever was counted,
and no line, count or image index changes. -/
def Obligations.ClosePhaseResult : Prop :=
  ∀ s : State,
    exec .pSettleSyn2 s = .next { s with
      trace := s.trace ++ [.delay .interDev s.cfg.tInterDev]
      sub := .s0, phase := .pClose } ∧
    exec .pClose s = .next { s with
      ch := releasedAll s.ch
      trace := s.trace ++ (closeEvents s.ch ++ [.exit 0])
      exitStatus := some 0
      phase := .pDone }

/-- P_DONE and P_FAULT are terminal (rules R213, R214, R242): without the reset input no step
changes anything, whatever is requested and however long the machine runs. A step that changes
nothing where none is enabled is the model's (log 7). -/
def Obligations.TerminalPhasesHold : Prop :=
  ∀ s : State, exec .pDone s = .next s ∧ exec .pFault s = .next s ∧
    (s.ended = true → s.pinReset = false → ∀ n, core.run n s = .next s)

/-! ### The machine -/

/-- A step runs the instruction whose bytes it fetches: the operation at the head of the
requests while the FSM waits in P_RESET, with the request taken off the list, else the phase's
own instruction. The requests are the model's (log 8). -/
def Obligations.StepRunsTheFetchedInstruction : Prop :=
  ∀ (s : State) (i : Instr), s.pinReset = false → s.hung = none →
    (∀ bs rest, s.phase = .pReset → s.ops = .op8 bs :: rest → decode .op8 bs = .ok i →
      step s = exec i { s with ops := rest }) ∧
    (∀ c bs rest, s.phase = .pReset → s.ops = .wire c bs :: rest → decode (.wire c) bs = .ok i →
      step s = exec i { s with ops := rest }) ∧
    (s.phase ≠ .pReset ∨ s.ops = [] → decode .phase4 [s.phase.code] = .ok i → step s = exec i s)

/-- The reset input (rules R260, R261, R262): whatever the machine was doing, rule R260's
values; the lines, the devices, the configuration and what is requested stay. The reset input is
the spec's decision D22; that it comes before any instruction, and what it leaves beside rule
R260, is the model's (logs 4, 17, 31). -/
def Obligations.ResetInputResult : Prop :=
  ∀ s : State, s.pinReset = true → ∃ t : State, step s = .next t ∧
    t.phase = .pReset ∧ t.sub = .s0 ∧ t.li = 0 ∧ t.ci = .cnd ∧ t.idx = 0 ∧
    t.done = false ∧ t.fault = false ∧ t.exitStatus = none ∧ t.txnErrCount = 0 ∧ t.lastErr = none ∧
    t.ch = allFresh ∧ t.trace = [] ∧ t.hung = none ∧ t.cfg = s.cfg ∧ t.ops = s.ops ∧
    t.lines.length = s.lines.length ∧
    (∀ (k : Nat) (l : Line), s.lines[k]? = some l → ∃ l' : Line, t.lines[k]? = some l' ∧
      l'.cfg = l.cfg ∧ l'.exported = l.exported ∧ l'.dir = l.dir ∧ l'.level = l.level) ∧
    t.env.devCnd = s.env.devCnd ∧ t.env.devSyn1 = s.env.devSyn1 ∧ t.env.devSyn2 = s.env.devSyn2

/-- The state after reset holds the values rule R260 gives, and no other of its values is claimed. -/
def Obligations.ResetStateValues : Prop :=
  State.reset.phase = .pReset ∧ State.reset.sub = .s0 ∧ State.reset.li = 0 ∧
    State.reset.ci = .cnd ∧ State.reset.idx = 0 ∧ State.reset.done = false ∧
    State.reset.fault = false ∧ State.reset.exitStatus = none ∧ State.reset.txnErrCount = 0 ∧
    State.reset.lastErr = none ∧ State.reset.trace = [] ∧
    ∀ c, State.reset.ch.get c =
      { isOpen := false, mode := none, bits := none, hz := none, iwd := none }

/-- A transfer that is never answered (rule R275): the replay stays in its XFER sub-step for
ever, with the frame in TXF, neither done nor at fault, and no event recorded. A step that
changes nothing while it waits is the model's (log 6). -/
def Obligations.HungTransferHolds : Prop :=
  ∀ (c : Chan) (f : Frame) (s : State), s.phase = progPhaseOf c → s.sub = .s0 → s.hung = none →
    s.pinReset = false → entryFrame s.cfg c s.idx = some f → s.configured c = true →
    s.env.xferAns c f = none →
    ∃ t : State, t.phase = s.phase ∧ t.sub = .s0 ∧ t.idx = s.idx ∧ t.txf = f ∧ t.trace = s.trace ∧
      t.done = false ∧ t.fault = false ∧ t.ch = s.ch ∧ t.exitStatus = s.exitStatus ∧
      ∀ n, core.run (n + 1) s = .next t

/-- No step stores to an image or writes any other part of the configuration: the images, the channels'
and lines' configuration and the durations are what they were (rule R53; also rules R3, R34). -/
def Obligations.ConfigurationKept : Prop :=
  ∀ s t : State, step s = .next t →
    t.cfg = s.cfg ∧ t.lines.map Line.cfg = s.lines.map Line.cfg ∧
      ∀ c, imageFrames t.cfg c = imageFrames s.cfg c

/-- Only operations that put frames on the bus can write a device register, and those only with
the ideal device: every register of every device reads as before otherwise. The device registers
are the model's, after rule R52 (log 16). -/
def Obligations.DeviceRegistersFrame : Prop :=
  ∀ (i : Instr) (s t : State) (a : Nat), exec i s = .next t →
    transfers i = false ∨ s.env.kind = .oracle →
    memRead t.env.devCnd a = memRead s.env.devCnd a ∧
    memRead t.env.devSyn1 a = memRead s.env.devSyn1 a ∧
    memRead t.env.devSyn2 a = memRead s.env.devSyn2 a

/-- Every step keeps the device register spaces in canonical form. The form is the model's (log
16). -/
def Obligations.DevicesStayCanonical : Prop :=
  ∀ s t : State, s.env.devicesWf = true → step s = .next t → t.env.devicesWf = true

/-- Every step keeps the invariant of a bring-up run: each phase's channels, counters and exit
status are as rules R202 to R214 leave them, and every line before `li`, and from P_LINE_SETTLE to
P_DONE every line, is exported, an output and at the level its policy leaves it at (rules R186,
R187, R189). -/
def Obligations.RunInvariantKept : Prop :=
  ∀ s t : State, RunInv s → step s = .next t → RunInv t

/-- In a bring-up run every step has a next state: nothing is refused and nothing faults (rule
R216). The spec marks the rule as derived, and says it of states in which a step is enabled; a
next state, the same one, where none is enabled (P_DONE, P_FAULT, P_RESET without start, and a
transfer waited for) is the model's (logs 7, 6). -/
def Obligations.RunNeverStops : Prop :=
  ∀ s : State, RunInv s → ∃ t, step s = .next t

/-- A run that ends in P_FAULT has put no frame on any channel (rules R188, R219). The spec
marks the general sentence of rule R219 as derived. -/
def Obligations.NoFrameBeforeFaultKept : Prop :=
  ∀ s t : State, NoFrameBeforeFault s → step s = .next t → NoFrameBeforeFault t

/-- No channel is opened before the line settle (rules R187, R270). -/
def Obligations.LinesBeforeBusKept : Prop :=
  ∀ s t : State, LinesBeforeBus s → step s = .next t → LinesBeforeBus t

/-- Whatever instruction runs, no frame goes on a channel before its mode, word size and clock rate were
each set and read back equal (rule R271). -/
def Obligations.ConfiguredBeforeTransmitKept : Prop :=
  ∀ s t : State, ConfiguredBeforeTransmit s → step s = .next t → ConfiguredBeforeTransmit t

/-- The conditioner's frames come before either synthesizer's, the first synthesizer's before the
second's (rules R51, R274). -/
def Obligations.ChannelOrderKept : Prop :=
  ∀ s t : State, ChannelOrder s → step s = .next t → ChannelOrder t

/-- The bring-up puts nothing on a channel but the encoded entries of that channel's image; so a
conditioner frame is always a well-formed write, and no read is ever sent to the conditioner
(rules R55, R164, R215, R276). The spec marks the sentence of rule R164 on the trace as derived;
the named bits of a wide entry are its decision D15. -/
def Obligations.OnlyImageFramesKept : Prop :=
  (∀ s t : State, OnlyImageFrames s → step s = .next t → OnlyImageFrames t) ∧
  (∀ s f r, OnlyImageFrames s → Event.xfer .cnd f r ∈ s.trace →
    cndFrameValid f = true ∧ cndRw f = 0#1)

/-- No step un-exports a line or sets a direction back, on any path; and outside P_LINES the bring-up
drives no line: only the reset input, or a step of P_LINES, changes what the block holds of one
(rule R189). -/
def Obligations.LinesNeverUndone : Prop :=
  (∀ s t : State, step s = .next t →
    t.lines.length = s.lines.length ∧
    ∀ (k : Nat) (l : Line), s.lines[k]? = some l → ∃ l' : Line, t.lines[k]? = some l' ∧ LineKept l l') ∧
  (∀ s t : State, s.ops = [] → s.phase ≠ .pLines → s.pinReset = false → step s = .next t →
    t.lines = s.lines)

/-- Whatever instruction runs, each handle is opened at most once in a run, and released at most once and
only after it was opened (rules R22, R107). -/
def Obligations.HandleOnceKept : Prop :=
  ∀ s t : State, HandleOnce s → step s = .next t → HandleOnce t

/-- The invariants above hold right after reset. -/
def Obligations.InvariantsHoldAtReset : Prop :=
  State.reset.env.devicesWf = true ∧ RunInv State.reset ∧ NoFrameBeforeFault State.reset ∧
    LinesBeforeBus State.reset ∧ ConfiguredBeforeTransmit State.reset ∧
    ChannelOrder State.reset ∧ OnlyImageFrames State.reset ∧ HandleOnce State.reset

/-- No result depends on a duration (rule R280): with every named duration set to 0, each step does the
same but for the second field of the delay events. -/
def Obligations.DurationsChangeNothingElse : Prop :=
  ∀ s : State, eraseOutcome (step (eraseDurations s)) = eraseOutcome (step s)

/-- Every bring-up run, from the answers it has one after the other (rules R217, R218, R219,
R280). Where every line and channel question is answered well and every transfer is answered, it
comes to rest in P_DONE with exit status 0, every line set up, exactly the trace of rule R218
with the answers the transfers had, and each failed one counted. Where a line or channel
question is not answered well, in P_FAULT with the fatal status, no frame sent and nothing
counted. Where a transfer is never answered, waiting for it, which is no end of the run. The
spec marks rules R218 and R219 as derived; a state at rest that each step leaves as it is, and the
waiting state, are the model's (logs 7, 6). -/
def Obligations.BringUpRunEnds : Prop :=
  ∀ s : State, AtStart s →
    let frames := imageFrames s.cfg
    let e0 := envAfterSetup s
    let r0 := replayAnswers .cnd (frames .cnd) e0
    let e1 := envAfterReplay .cnd (frames .cnd) e0
    let r1 := replayAnswers .syn1 (frames .syn1) e1
    let e2 := envAfterReplay .syn1 (frames .syn1) e1
    let r2 := replayAnswers .syn2 (frames .syn2) e2
    let answered := r0.length = (frames .cnd).length ∧ r1.length = (frames .syn1).length ∧
      r2.length = (frames .syn2).length
    ∃ (n : Nat) (t : State), core.run n s = .next t ∧ step t = .next t ∧ t.cfg = s.cfg ∧
      (SetupAnsweredOk s → answered →
        t.phase = .pDone ∧ t.exitStatus = some 0 ∧ t.lines = s.lines.map lineDone ∧
        t.trace = bringUpTrace s.cfg s.lines r0 r1 r2 ∧
        t.txnErrCount = s.txnErrCount + ((r0 ++ r1 ++ r2).filter failed).length ∧
        t.env = envAfterReplay .syn2 (frames .syn2) e2) ∧
      (SetupAnsweredOk s → ¬answered →
        t.done = false ∧ t.fault = false ∧ t.exitStatus = none ∧ t.hung.isSome = true ∧
        t.lines = s.lines.map lineDone) ∧
      (¬SetupAnsweredOk s →
        t.phase = .pFault ∧ t.exitStatus = some s.cfg.exitFatal ∧ busTraceAll t.trace = [] ∧
        t.txnErrCount = s.txnErrCount)

/-- A clean run with the ideal device, from start to end (rules R52, R218): the machine reaches
P_DONE with exit status 0, no error counted beyond those counted before, and exactly the trace
of rule R218 with replies of zeros, whatever the lines and the images. The ideal device is the
spec's decision D21; the spec marks rule R218 as derived. -/
def Obligations.CleanRunTrace : Prop :=
  ∀ s : State, AtStart s → s.env.kind = .ideal →
    ∃ (n : Nat) (t : State), core.run n s = .next t ∧ t.phase = .pDone ∧ t.exitStatus = some 0 ∧
      t.txnErrCount = s.txnErrCount ∧ t.lastErr = s.lastErr ∧
      t.trace = cleanTrace s.cfg s.lines ∧ t.lines = s.lines.map lineDone
end

