-- ==== Sys2Proof/Laws/State.lean ====
section
/-!
SUPPORT. What each named update of the state leaves in each field, one lemma per field per update.
-/

namespace Sys2Proof.Laws

open Sys2Proof.Machine

@[simp] theorem three_get_set_self {α : Type} (t : Three α) (c : Chan) (x : α) :
    (t.set c x).get c = x := by cases c <;> rfl

theorem three_get_set_ne {α : Type} (t : Three α) {c c' : Chan} (x : α) (h : c' ≠ c) :
    (t.set c x).get c' = t.get c' := by cases c <;> cases c' <;> first | rfl | exact absurd rfl h

theorem three_get_set {α : Type} (t : Three α) (c c' : Chan) (x : α) :
    (t.set c x).get c' = if c' = c then x else t.get c' := by
  cases c <;> cases c' <;> rfl

theorem three_ext {α : Type} {t u : Three α} (h : ∀ c, t.get c = u.get c) : t = u := by
  have h0 := h .cnd
  have h1 := h .syn1
  have h2 := h .syn2
  cases t
  cases u
  simp only [Three.get] at h0 h1 h2
  rw [h0, h1, h2]

section updates
variable (s : State)

@[simp] theorem emit_phase (ev : Event) : (s.emit ev).phase = s.phase := rfl
@[simp] theorem emit_sub (ev : Event) : (s.emit ev).sub = s.sub := rfl
@[simp] theorem emit_li (ev : Event) : (s.emit ev).li = s.li := rfl
@[simp] theorem emit_ci (ev : Event) : (s.emit ev).ci = s.ci := rfl
@[simp] theorem emit_idx (ev : Event) : (s.emit ev).idx = s.idx := rfl
@[simp] theorem emit_txf (ev : Event) : (s.emit ev).txf = s.txf := rfl
@[simp] theorem emit_rxf (ev : Event) : (s.emit ev).rxf = s.rxf := rfl
@[simp] theorem emit_opA (ev : Event) : (s.emit ev).opA = s.opA := rfl
@[simp] theorem emit_opD (ev : Event) : (s.emit ev).opD = s.opD := rfl
@[simp] theorem emit_opW (ev : Event) : (s.emit ev).opW = s.opW := rfl
@[simp] theorem emit_exitStatus (ev : Event) : (s.emit ev).exitStatus = s.exitStatus := rfl
@[simp] theorem emit_txnErrCount (ev : Event) : (s.emit ev).txnErrCount = s.txnErrCount := rfl
@[simp] theorem emit_lastErr (ev : Event) : (s.emit ev).lastErr = s.lastErr := rfl
@[simp] theorem emit_ch (ev : Event) : (s.emit ev).ch = s.ch := rfl
@[simp] theorem emit_lines (ev : Event) : (s.emit ev).lines = s.lines := rfl
@[simp] theorem emit_trace (ev : Event) : (s.emit ev).trace = s.trace ++ [ev] := rfl
@[simp] theorem emit_hung (ev : Event) : (s.emit ev).hung = s.hung := rfl
@[simp] theorem emit_pinStart (ev : Event) : (s.emit ev).pinStart = s.pinStart := rfl
@[simp] theorem emit_pinReset (ev : Event) : (s.emit ev).pinReset = s.pinReset := rfl
@[simp] theorem emit_cfg (ev : Event) : (s.emit ev).cfg = s.cfg := rfl
@[simp] theorem emit_env (ev : Event) : (s.emit ev).env = s.env := rfl
@[simp] theorem emit_ops (ev : Event) : (s.emit ev).ops = s.ops := rfl
@[simp] theorem emit_ret (ev : Event) : (s.emit ev).ret = s.ret := rfl

@[simp] theorem setCh_phase (c : Chan) (h : Channel) : (s.setCh c h).phase = s.phase := rfl
@[simp] theorem setCh_sub (c : Chan) (h : Channel) : (s.setCh c h).sub = s.sub := rfl
@[simp] theorem setCh_li (c : Chan) (h : Channel) : (s.setCh c h).li = s.li := rfl
@[simp] theorem setCh_ci (c : Chan) (h : Channel) : (s.setCh c h).ci = s.ci := rfl
@[simp] theorem setCh_idx (c : Chan) (h : Channel) : (s.setCh c h).idx = s.idx := rfl
@[simp] theorem setCh_txf (c : Chan) (h : Channel) : (s.setCh c h).txf = s.txf := rfl
@[simp] theorem setCh_rxf (c : Chan) (h : Channel) : (s.setCh c h).rxf = s.rxf := rfl
@[simp] theorem setCh_opA (c : Chan) (h : Channel) : (s.setCh c h).opA = s.opA := rfl
@[simp] theorem setCh_opD (c : Chan) (h : Channel) : (s.setCh c h).opD = s.opD := rfl
@[simp] theorem setCh_opW (c : Chan) (h : Channel) : (s.setCh c h).opW = s.opW := rfl
@[simp] theorem setCh_exitStatus (c : Chan) (h : Channel) : (s.setCh c h).exitStatus = s.exitStatus := rfl
@[simp] theorem setCh_txnErrCount (c : Chan) (h : Channel) : (s.setCh c h).txnErrCount = s.txnErrCount := rfl
@[simp] theorem setCh_lastErr (c : Chan) (h : Channel) : (s.setCh c h).lastErr = s.lastErr := rfl
@[simp] theorem setCh_ch (c : Chan) (h : Channel) : (s.setCh c h).ch = s.ch.set c h := rfl
@[simp] theorem setCh_lines (c : Chan) (h : Channel) : (s.setCh c h).lines = s.lines := rfl
@[simp] theorem setCh_trace (c : Chan) (h : Channel) : (s.setCh c h).trace = s.trace := rfl
@[simp] theorem setCh_hung (c : Chan) (h : Channel) : (s.setCh c h).hung = s.hung := rfl
@[simp] theorem setCh_pinStart (c : Chan) (h : Channel) : (s.setCh c h).pinStart = s.pinStart := rfl
@[simp] theorem setCh_pinReset (c : Chan) (h : Channel) : (s.setCh c h).pinReset = s.pinReset := rfl
@[simp] theorem setCh_cfg (c : Chan) (h : Channel) : (s.setCh c h).cfg = s.cfg := rfl
@[simp] theorem setCh_env (c : Chan) (h : Channel) : (s.setCh c h).env = s.env := rfl
@[simp] theorem setCh_ops (c : Chan) (h : Channel) : (s.setCh c h).ops = s.ops := rfl
@[simp] theorem setCh_ret (c : Chan) (h : Channel) : (s.setCh c h).ret = s.ret := rfl

@[simp] theorem modifyLine_phase (k : Nat) (f : Line → Line) : (s.modifyLine k f).phase = s.phase := rfl
@[simp] theorem modifyLine_sub (k : Nat) (f : Line → Line) : (s.modifyLine k f).sub = s.sub := rfl
@[simp] theorem modifyLine_li (k : Nat) (f : Line → Line) : (s.modifyLine k f).li = s.li := rfl
@[simp] theorem modifyLine_ci (k : Nat) (f : Line → Line) : (s.modifyLine k f).ci = s.ci := rfl
@[simp] theorem modifyLine_idx (k : Nat) (f : Line → Line) : (s.modifyLine k f).idx = s.idx := rfl
@[simp] theorem modifyLine_txf (k : Nat) (f : Line → Line) : (s.modifyLine k f).txf = s.txf := rfl
@[simp] theorem modifyLine_rxf (k : Nat) (f : Line → Line) : (s.modifyLine k f).rxf = s.rxf := rfl
@[simp] theorem modifyLine_opA (k : Nat) (f : Line → Line) : (s.modifyLine k f).opA = s.opA := rfl
@[simp] theorem modifyLine_opD (k : Nat) (f : Line → Line) : (s.modifyLine k f).opD = s.opD := rfl
@[simp] theorem modifyLine_opW (k : Nat) (f : Line → Line) : (s.modifyLine k f).opW = s.opW := rfl
@[simp] theorem modifyLine_exitStatus (k : Nat) (f : Line → Line) : (s.modifyLine k f).exitStatus = s.exitStatus := rfl
@[simp] theorem modifyLine_txnErrCount (k : Nat) (f : Line → Line) : (s.modifyLine k f).txnErrCount = s.txnErrCount := rfl
@[simp] theorem modifyLine_lastErr (k : Nat) (f : Line → Line) : (s.modifyLine k f).lastErr = s.lastErr := rfl
@[simp] theorem modifyLine_ch (k : Nat) (f : Line → Line) : (s.modifyLine k f).ch = s.ch := rfl
@[simp] theorem modifyLine_lines (k : Nat) (f : Line → Line) : (s.modifyLine k f).lines = s.lines.modify k f := rfl
@[simp] theorem modifyLine_trace (k : Nat) (f : Line → Line) : (s.modifyLine k f).trace = s.trace := rfl
@[simp] theorem modifyLine_hung (k : Nat) (f : Line → Line) : (s.modifyLine k f).hung = s.hung := rfl
@[simp] theorem modifyLine_pinStart (k : Nat) (f : Line → Line) : (s.modifyLine k f).pinStart = s.pinStart := rfl
@[simp] theorem modifyLine_pinReset (k : Nat) (f : Line → Line) : (s.modifyLine k f).pinReset = s.pinReset := rfl
@[simp] theorem modifyLine_cfg (k : Nat) (f : Line → Line) : (s.modifyLine k f).cfg = s.cfg := rfl
@[simp] theorem modifyLine_env (k : Nat) (f : Line → Line) : (s.modifyLine k f).env = s.env := rfl
@[simp] theorem modifyLine_ops (k : Nat) (f : Line → Line) : (s.modifyLine k f).ops = s.ops := rfl
@[simp] theorem modifyLine_ret (k : Nat) (f : Line → Line) : (s.modifyLine k f).ret = s.ret := rfl

@[simp] theorem setEnv_phase (e : Env) : (s.setEnv e).phase = s.phase := rfl
@[simp] theorem setEnv_sub (e : Env) : (s.setEnv e).sub = s.sub := rfl
@[simp] theorem setEnv_li (e : Env) : (s.setEnv e).li = s.li := rfl
@[simp] theorem setEnv_ci (e : Env) : (s.setEnv e).ci = s.ci := rfl
@[simp] theorem setEnv_idx (e : Env) : (s.setEnv e).idx = s.idx := rfl
@[simp] theorem setEnv_txf (e : Env) : (s.setEnv e).txf = s.txf := rfl
@[simp] theorem setEnv_rxf (e : Env) : (s.setEnv e).rxf = s.rxf := rfl
@[simp] theorem setEnv_opA (e : Env) : (s.setEnv e).opA = s.opA := rfl
@[simp] theorem setEnv_opD (e : Env) : (s.setEnv e).opD = s.opD := rfl
@[simp] theorem setEnv_opW (e : Env) : (s.setEnv e).opW = s.opW := rfl
@[simp] theorem setEnv_exitStatus (e : Env) : (s.setEnv e).exitStatus = s.exitStatus := rfl
@[simp] theorem setEnv_txnErrCount (e : Env) : (s.setEnv e).txnErrCount = s.txnErrCount := rfl
@[simp] theorem setEnv_lastErr (e : Env) : (s.setEnv e).lastErr = s.lastErr := rfl
@[simp] theorem setEnv_ch (e : Env) : (s.setEnv e).ch = s.ch := rfl
@[simp] theorem setEnv_lines (e : Env) : (s.setEnv e).lines = s.lines := rfl
@[simp] theorem setEnv_trace (e : Env) : (s.setEnv e).trace = s.trace := rfl
@[simp] theorem setEnv_hung (e : Env) : (s.setEnv e).hung = s.hung := rfl
@[simp] theorem setEnv_pinStart (e : Env) : (s.setEnv e).pinStart = s.pinStart := rfl
@[simp] theorem setEnv_pinReset (e : Env) : (s.setEnv e).pinReset = s.pinReset := rfl
@[simp] theorem setEnv_cfg (e : Env) : (s.setEnv e).cfg = s.cfg := rfl
@[simp] theorem setEnv_env (e : Env) : (s.setEnv e).env = e := rfl
@[simp] theorem setEnv_ops (e : Env) : (s.setEnv e).ops = s.ops := rfl
@[simp] theorem setEnv_ret (e : Env) : (s.setEnv e).ret = s.ret := rfl

@[simp] theorem delay_phase (n : DelayName) (t : Nat) : (s.delay n t).phase = s.phase := rfl
@[simp] theorem delay_sub (n : DelayName) (t : Nat) : (s.delay n t).sub = s.sub := rfl
@[simp] theorem delay_li (n : DelayName) (t : Nat) : (s.delay n t).li = s.li := rfl
@[simp] theorem delay_ci (n : DelayName) (t : Nat) : (s.delay n t).ci = s.ci := rfl
@[simp] theorem delay_idx (n : DelayName) (t : Nat) : (s.delay n t).idx = s.idx := rfl
@[simp] theorem delay_txf (n : DelayName) (t : Nat) : (s.delay n t).txf = s.txf := rfl
@[simp] theorem delay_rxf (n : DelayName) (t : Nat) : (s.delay n t).rxf = s.rxf := rfl
@[simp] theorem delay_opA (n : DelayName) (t : Nat) : (s.delay n t).opA = s.opA := rfl
@[simp] theorem delay_opD (n : DelayName) (t : Nat) : (s.delay n t).opD = s.opD := rfl
@[simp] theorem delay_opW (n : DelayName) (t : Nat) : (s.delay n t).opW = s.opW := rfl
@[simp] theorem delay_exitStatus (n : DelayName) (t : Nat) : (s.delay n t).exitStatus = s.exitStatus := rfl
@[simp] theorem delay_txnErrCount (n : DelayName) (t : Nat) : (s.delay n t).txnErrCount = s.txnErrCount := rfl
@[simp] theorem delay_lastErr (n : DelayName) (t : Nat) : (s.delay n t).lastErr = s.lastErr := rfl
@[simp] theorem delay_ch (n : DelayName) (t : Nat) : (s.delay n t).ch = s.ch := rfl
@[simp] theorem delay_lines (n : DelayName) (t : Nat) : (s.delay n t).lines = s.lines := rfl
@[simp] theorem delay_trace (n : DelayName) (t : Nat) : (s.delay n t).trace = s.trace ++ [.delay n t] := rfl
@[simp] theorem delay_hung (n : DelayName) (t : Nat) : (s.delay n t).hung = s.hung := rfl
@[simp] theorem delay_pinStart (n : DelayName) (t : Nat) : (s.delay n t).pinStart = s.pinStart := rfl
@[simp] theorem delay_pinReset (n : DelayName) (t : Nat) : (s.delay n t).pinReset = s.pinReset := rfl
@[simp] theorem delay_cfg (n : DelayName) (t : Nat) : (s.delay n t).cfg = s.cfg := rfl
@[simp] theorem delay_env (n : DelayName) (t : Nat) : (s.delay n t).env = s.env := rfl
@[simp] theorem delay_ops (n : DelayName) (t : Nat) : (s.delay n t).ops = s.ops := rfl
@[simp] theorem delay_ret (n : DelayName) (t : Nat) : (s.delay n t).ret = s.ret := rfl

@[simp] theorem closeCh_phase (c : Chan) : (s.closeCh c).phase = s.phase := rfl
@[simp] theorem closeCh_sub (c : Chan) : (s.closeCh c).sub = s.sub := rfl
@[simp] theorem closeCh_li (c : Chan) : (s.closeCh c).li = s.li := rfl
@[simp] theorem closeCh_ci (c : Chan) : (s.closeCh c).ci = s.ci := rfl
@[simp] theorem closeCh_idx (c : Chan) : (s.closeCh c).idx = s.idx := rfl
@[simp] theorem closeCh_txf (c : Chan) : (s.closeCh c).txf = s.txf := rfl
@[simp] theorem closeCh_rxf (c : Chan) : (s.closeCh c).rxf = s.rxf := rfl
@[simp] theorem closeCh_opA (c : Chan) : (s.closeCh c).opA = s.opA := rfl
@[simp] theorem closeCh_opD (c : Chan) : (s.closeCh c).opD = s.opD := rfl
@[simp] theorem closeCh_opW (c : Chan) : (s.closeCh c).opW = s.opW := rfl
@[simp] theorem closeCh_exitStatus (c : Chan) : (s.closeCh c).exitStatus = s.exitStatus := rfl
@[simp] theorem closeCh_txnErrCount (c : Chan) : (s.closeCh c).txnErrCount = s.txnErrCount := rfl
@[simp] theorem closeCh_lastErr (c : Chan) : (s.closeCh c).lastErr = s.lastErr := rfl
@[simp] theorem closeCh_ch (c : Chan) : (s.closeCh c).ch = s.ch.set c { s.ch.get c with isOpen := false } := rfl
@[simp] theorem closeCh_lines (c : Chan) : (s.closeCh c).lines = s.lines := rfl
@[simp] theorem closeCh_trace (c : Chan) : (s.closeCh c).trace = s.trace ++ [.close c] := rfl
@[simp] theorem closeCh_hung (c : Chan) : (s.closeCh c).hung = s.hung := rfl
@[simp] theorem closeCh_pinStart (c : Chan) : (s.closeCh c).pinStart = s.pinStart := rfl
@[simp] theorem closeCh_pinReset (c : Chan) : (s.closeCh c).pinReset = s.pinReset := rfl
@[simp] theorem closeCh_cfg (c : Chan) : (s.closeCh c).cfg = s.cfg := rfl
@[simp] theorem closeCh_env (c : Chan) : (s.closeCh c).env = s.env := rfl
@[simp] theorem closeCh_ops (c : Chan) : (s.closeCh c).ops = s.ops := rfl
@[simp] theorem closeCh_ret (c : Chan) : (s.closeCh c).ret = s.ret := rfl

@[simp] theorem record_phase (d : Diag) : (s.record d).phase = s.phase := rfl
@[simp] theorem record_sub (d : Diag) : (s.record d).sub = s.sub := rfl
@[simp] theorem record_li (d : Diag) : (s.record d).li = s.li := rfl
@[simp] theorem record_ci (d : Diag) : (s.record d).ci = s.ci := rfl
@[simp] theorem record_idx (d : Diag) : (s.record d).idx = s.idx := rfl
@[simp] theorem record_txf (d : Diag) : (s.record d).txf = s.txf := rfl
@[simp] theorem record_rxf (d : Diag) : (s.record d).rxf = s.rxf := rfl
@[simp] theorem record_opA (d : Diag) : (s.record d).opA = s.opA := rfl
@[simp] theorem record_opD (d : Diag) : (s.record d).opD = s.opD := rfl
@[simp] theorem record_opW (d : Diag) : (s.record d).opW = s.opW := rfl
@[simp] theorem record_exitStatus (d : Diag) : (s.record d).exitStatus = s.exitStatus := rfl
@[simp] theorem record_txnErrCount (d : Diag) : (s.record d).txnErrCount = s.txnErrCount := rfl
@[simp] theorem record_lastErr (d : Diag) : (s.record d).lastErr = some d := rfl
@[simp] theorem record_ch (d : Diag) : (s.record d).ch = s.ch := rfl
@[simp] theorem record_lines (d : Diag) : (s.record d).lines = s.lines := rfl
@[simp] theorem record_trace (d : Diag) : (s.record d).trace = s.trace ++ [.diag d] := rfl
@[simp] theorem record_hung (d : Diag) : (s.record d).hung = s.hung := rfl
@[simp] theorem record_pinStart (d : Diag) : (s.record d).pinStart = s.pinStart := rfl
@[simp] theorem record_pinReset (d : Diag) : (s.record d).pinReset = s.pinReset := rfl
@[simp] theorem record_cfg (d : Diag) : (s.record d).cfg = s.cfg := rfl
@[simp] theorem record_env (d : Diag) : (s.record d).env = s.env := rfl
@[simp] theorem record_ops (d : Diag) : (s.record d).ops = s.ops := rfl
@[simp] theorem record_ret (d : Diag) : (s.record d).ret = s.ret := rfl

@[simp] theorem report_phase (d : Diag) : (s.report d).phase = s.phase := rfl
@[simp] theorem report_sub (d : Diag) : (s.report d).sub = s.sub := rfl
@[simp] theorem report_li (d : Diag) : (s.report d).li = s.li := rfl
@[simp] theorem report_ci (d : Diag) : (s.report d).ci = s.ci := rfl
@[simp] theorem report_idx (d : Diag) : (s.report d).idx = s.idx := rfl
@[simp] theorem report_txf (d : Diag) : (s.report d).txf = s.txf := rfl
@[simp] theorem report_rxf (d : Diag) : (s.report d).rxf = s.rxf := rfl
@[simp] theorem report_opA (d : Diag) : (s.report d).opA = s.opA := rfl
@[simp] theorem report_opD (d : Diag) : (s.report d).opD = s.opD := rfl
@[simp] theorem report_opW (d : Diag) : (s.report d).opW = s.opW := rfl
@[simp] theorem report_exitStatus (d : Diag) : (s.report d).exitStatus = s.exitStatus := rfl
@[simp] theorem report_txnErrCount (d : Diag) : (s.report d).txnErrCount = s.txnErrCount + 1 := rfl
@[simp] theorem report_lastErr (d : Diag) : (s.report d).lastErr = some d := rfl
@[simp] theorem report_ch (d : Diag) : (s.report d).ch = s.ch := rfl
@[simp] theorem report_lines (d : Diag) : (s.report d).lines = s.lines := rfl
@[simp] theorem report_trace (d : Diag) : (s.report d).trace = s.trace ++ [.diag d] := rfl
@[simp] theorem report_hung (d : Diag) : (s.report d).hung = s.hung := rfl
@[simp] theorem report_pinStart (d : Diag) : (s.report d).pinStart = s.pinStart := rfl
@[simp] theorem report_pinReset (d : Diag) : (s.report d).pinReset = s.pinReset := rfl
@[simp] theorem report_cfg (d : Diag) : (s.report d).cfg = s.cfg := rfl
@[simp] theorem report_env (d : Diag) : (s.report d).env = s.env := rfl
@[simp] theorem report_ops (d : Diag) : (s.report d).ops = s.ops := rfl
@[simp] theorem report_ret (d : Diag) : (s.report d).ret = s.ret := rfl

@[simp] theorem finish_phase (n : Nat) (p : Phase) : (s.finish n p).phase = p := rfl
@[simp] theorem finish_sub (n : Nat) (p : Phase) : (s.finish n p).sub = s.sub := rfl
@[simp] theorem finish_li (n : Nat) (p : Phase) : (s.finish n p).li = s.li := rfl
@[simp] theorem finish_ci (n : Nat) (p : Phase) : (s.finish n p).ci = s.ci := rfl
@[simp] theorem finish_idx (n : Nat) (p : Phase) : (s.finish n p).idx = s.idx := rfl
@[simp] theorem finish_txf (n : Nat) (p : Phase) : (s.finish n p).txf = s.txf := rfl
@[simp] theorem finish_rxf (n : Nat) (p : Phase) : (s.finish n p).rxf = s.rxf := rfl
@[simp] theorem finish_opA (n : Nat) (p : Phase) : (s.finish n p).opA = s.opA := rfl
@[simp] theorem finish_opD (n : Nat) (p : Phase) : (s.finish n p).opD = s.opD := rfl
@[simp] theorem finish_opW (n : Nat) (p : Phase) : (s.finish n p).opW = s.opW := rfl
@[simp] theorem finish_exitStatus (n : Nat) (p : Phase) : (s.finish n p).exitStatus = some n := rfl
@[simp] theorem finish_txnErrCount (n : Nat) (p : Phase) : (s.finish n p).txnErrCount = s.txnErrCount := rfl
@[simp] theorem finish_lastErr (n : Nat) (p : Phase) : (s.finish n p).lastErr = s.lastErr := rfl
@[simp] theorem finish_ch (n : Nat) (p : Phase) : (s.finish n p).ch = s.ch := rfl
@[simp] theorem finish_lines (n : Nat) (p : Phase) : (s.finish n p).lines = s.lines := rfl
@[simp] theorem finish_trace (n : Nat) (p : Phase) : (s.finish n p).trace = s.trace ++ [.exit n] := rfl
@[simp] theorem finish_hung (n : Nat) (p : Phase) : (s.finish n p).hung = s.hung := rfl
@[simp] theorem finish_pinStart (n : Nat) (p : Phase) : (s.finish n p).pinStart = s.pinStart := rfl
@[simp] theorem finish_pinReset (n : Nat) (p : Phase) : (s.finish n p).pinReset = s.pinReset := rfl
@[simp] theorem finish_cfg (n : Nat) (p : Phase) : (s.finish n p).cfg = s.cfg := rfl
@[simp] theorem finish_env (n : Nat) (p : Phase) : (s.finish n p).env = s.env := rfl
@[simp] theorem finish_ops (n : Nat) (p : Phase) : (s.finish n p).ops = s.ops := rfl
@[simp] theorem finish_ret (n : Nat) (p : Phase) : (s.finish n p).ret = s.ret := rfl

@[simp] theorem levelLine_phase (k : Nat) (v : Bool) : (s.levelLine k v).phase = s.phase := rfl
@[simp] theorem levelLine_sub (k : Nat) (v : Bool) : (s.levelLine k v).sub = s.sub := rfl
@[simp] theorem levelLine_li (k : Nat) (v : Bool) : (s.levelLine k v).li = s.li := rfl
@[simp] theorem levelLine_ci (k : Nat) (v : Bool) : (s.levelLine k v).ci = s.ci := rfl
@[simp] theorem levelLine_idx (k : Nat) (v : Bool) : (s.levelLine k v).idx = s.idx := rfl
@[simp] theorem levelLine_txf (k : Nat) (v : Bool) : (s.levelLine k v).txf = s.txf := rfl
@[simp] theorem levelLine_rxf (k : Nat) (v : Bool) : (s.levelLine k v).rxf = s.rxf := rfl
@[simp] theorem levelLine_opA (k : Nat) (v : Bool) : (s.levelLine k v).opA = s.opA := rfl
@[simp] theorem levelLine_opD (k : Nat) (v : Bool) : (s.levelLine k v).opD = s.opD := rfl
@[simp] theorem levelLine_opW (k : Nat) (v : Bool) : (s.levelLine k v).opW = s.opW := rfl
@[simp] theorem levelLine_exitStatus (k : Nat) (v : Bool) : (s.levelLine k v).exitStatus = s.exitStatus := rfl
@[simp] theorem levelLine_txnErrCount (k : Nat) (v : Bool) : (s.levelLine k v).txnErrCount = s.txnErrCount := rfl
@[simp] theorem levelLine_lastErr (k : Nat) (v : Bool) : (s.levelLine k v).lastErr = s.lastErr := rfl
@[simp] theorem levelLine_ch (k : Nat) (v : Bool) : (s.levelLine k v).ch = s.ch := rfl
@[simp] theorem levelLine_lines (k : Nat) (v : Bool) : (s.levelLine k v).lines = s.lines.modify k fun l => { l with level := some v } := rfl
@[simp] theorem levelLine_trace (k : Nat) (v : Bool) : (s.levelLine k v).trace = s.trace ++ [.lineLevel k v] := rfl
@[simp] theorem levelLine_hung (k : Nat) (v : Bool) : (s.levelLine k v).hung = s.hung := rfl
@[simp] theorem levelLine_pinStart (k : Nat) (v : Bool) : (s.levelLine k v).pinStart = s.pinStart := rfl
@[simp] theorem levelLine_pinReset (k : Nat) (v : Bool) : (s.levelLine k v).pinReset = s.pinReset := rfl
@[simp] theorem levelLine_cfg (k : Nat) (v : Bool) : (s.levelLine k v).cfg = s.cfg := rfl
@[simp] theorem levelLine_env (k : Nat) (v : Bool) : (s.levelLine k v).env = s.env := rfl
@[simp] theorem levelLine_ops (k : Nat) (v : Bool) : (s.levelLine k v).ops = s.ops := rfl
@[simp] theorem levelLine_ret (k : Nat) (v : Bool) : (s.levelLine k v).ret = s.ret := rfl

@[simp] theorem gap_phase (c : Chan) : (s.gap c).phase = s.phase := rfl
@[simp] theorem gap_sub (c : Chan) : (s.gap c).sub = .s0 := rfl
@[simp] theorem gap_li (c : Chan) : (s.gap c).li = s.li := rfl
@[simp] theorem gap_ci (c : Chan) : (s.gap c).ci = s.ci := rfl
@[simp] theorem gap_idx (c : Chan) : (s.gap c).idx = s.idx + 1 := rfl
@[simp] theorem gap_txf (c : Chan) : (s.gap c).txf = s.txf := rfl
@[simp] theorem gap_rxf (c : Chan) : (s.gap c).rxf = s.rxf := rfl
@[simp] theorem gap_opA (c : Chan) : (s.gap c).opA = s.opA := rfl
@[simp] theorem gap_opD (c : Chan) : (s.gap c).opD = s.opD := rfl
@[simp] theorem gap_opW (c : Chan) : (s.gap c).opW = s.opW := rfl
@[simp] theorem gap_exitStatus (c : Chan) : (s.gap c).exitStatus = s.exitStatus := rfl
@[simp] theorem gap_txnErrCount (c : Chan) : (s.gap c).txnErrCount = s.txnErrCount := rfl
@[simp] theorem gap_lastErr (c : Chan) : (s.gap c).lastErr = s.lastErr := rfl
@[simp] theorem gap_ch (c : Chan) : (s.gap c).ch = s.ch := rfl
@[simp] theorem gap_lines (c : Chan) : (s.gap c).lines = s.lines := rfl
@[simp] theorem gap_trace (c : Chan) : (s.gap c).trace = s.trace ++ [.delay (.txn c) (s.cfg.tTxn.get c)] := rfl
@[simp] theorem gap_hung (c : Chan) : (s.gap c).hung = s.hung := rfl
@[simp] theorem gap_pinStart (c : Chan) : (s.gap c).pinStart = s.pinStart := rfl
@[simp] theorem gap_pinReset (c : Chan) : (s.gap c).pinReset = s.pinReset := rfl
@[simp] theorem gap_cfg (c : Chan) : (s.gap c).cfg = s.cfg := rfl
@[simp] theorem gap_env (c : Chan) : (s.gap c).env = s.env := rfl
@[simp] theorem gap_ops (c : Chan) : (s.gap c).ops = s.ops := rfl
@[simp] theorem gap_ret (c : Chan) : (s.gap c).ret = s.ret := rfl

@[simp] theorem enter_phase (p : Phase) : (s.enter p).phase = p := rfl
@[simp] theorem enter_sub (p : Phase) : (s.enter p).sub = .s0 := rfl
@[simp] theorem enter_li (p : Phase) : (s.enter p).li = s.li := rfl
@[simp] theorem enter_ci (p : Phase) : (s.enter p).ci = s.ci := rfl
@[simp] theorem enter_idx (p : Phase) : (s.enter p).idx = s.idx := rfl
@[simp] theorem enter_txf (p : Phase) : (s.enter p).txf = s.txf := rfl
@[simp] theorem enter_rxf (p : Phase) : (s.enter p).rxf = s.rxf := rfl
@[simp] theorem enter_opA (p : Phase) : (s.enter p).opA = s.opA := rfl
@[simp] theorem enter_opD (p : Phase) : (s.enter p).opD = s.opD := rfl
@[simp] theorem enter_opW (p : Phase) : (s.enter p).opW = s.opW := rfl
@[simp] theorem enter_exitStatus (p : Phase) : (s.enter p).exitStatus = s.exitStatus := rfl
@[simp] theorem enter_txnErrCount (p : Phase) : (s.enter p).txnErrCount = s.txnErrCount := rfl
@[simp] theorem enter_lastErr (p : Phase) : (s.enter p).lastErr = s.lastErr := rfl
@[simp] theorem enter_ch (p : Phase) : (s.enter p).ch = s.ch := rfl
@[simp] theorem enter_lines (p : Phase) : (s.enter p).lines = s.lines := rfl
@[simp] theorem enter_trace (p : Phase) : (s.enter p).trace = s.trace := rfl
@[simp] theorem enter_hung (p : Phase) : (s.enter p).hung = s.hung := rfl
@[simp] theorem enter_pinStart (p : Phase) : (s.enter p).pinStart = s.pinStart := rfl
@[simp] theorem enter_pinReset (p : Phase) : (s.enter p).pinReset = s.pinReset := rfl
@[simp] theorem enter_cfg (p : Phase) : (s.enter p).cfg = s.cfg := rfl
@[simp] theorem enter_env (p : Phase) : (s.enter p).env = s.env := rfl
@[simp] theorem enter_ops (p : Phase) : (s.enter p).ops = s.ops := rfl
@[simp] theorem enter_ret (p : Phase) : (s.enter p).ret = s.ret := rfl

@[simp] theorem enterProg_phase (p : Phase) : (s.enterProg p).phase = p := rfl
@[simp] theorem enterProg_sub (p : Phase) : (s.enterProg p).sub = .s0 := rfl
@[simp] theorem enterProg_li (p : Phase) : (s.enterProg p).li = s.li := rfl
@[simp] theorem enterProg_ci (p : Phase) : (s.enterProg p).ci = s.ci := rfl
@[simp] theorem enterProg_idx (p : Phase) : (s.enterProg p).idx = 0 := rfl
@[simp] theorem enterProg_txf (p : Phase) : (s.enterProg p).txf = s.txf := rfl
@[simp] theorem enterProg_rxf (p : Phase) : (s.enterProg p).rxf = s.rxf := rfl
@[simp] theorem enterProg_opA (p : Phase) : (s.enterProg p).opA = s.opA := rfl
@[simp] theorem enterProg_opD (p : Phase) : (s.enterProg p).opD = s.opD := rfl
@[simp] theorem enterProg_opW (p : Phase) : (s.enterProg p).opW = s.opW := rfl
@[simp] theorem enterProg_exitStatus (p : Phase) : (s.enterProg p).exitStatus = s.exitStatus := rfl
@[simp] theorem enterProg_txnErrCount (p : Phase) : (s.enterProg p).txnErrCount = s.txnErrCount := rfl
@[simp] theorem enterProg_lastErr (p : Phase) : (s.enterProg p).lastErr = s.lastErr := rfl
@[simp] theorem enterProg_ch (p : Phase) : (s.enterProg p).ch = s.ch := rfl
@[simp] theorem enterProg_lines (p : Phase) : (s.enterProg p).lines = s.lines := rfl
@[simp] theorem enterProg_trace (p : Phase) : (s.enterProg p).trace = s.trace := rfl
@[simp] theorem enterProg_hung (p : Phase) : (s.enterProg p).hung = s.hung := rfl
@[simp] theorem enterProg_pinStart (p : Phase) : (s.enterProg p).pinStart = s.pinStart := rfl
@[simp] theorem enterProg_pinReset (p : Phase) : (s.enterProg p).pinReset = s.pinReset := rfl
@[simp] theorem enterProg_cfg (p : Phase) : (s.enterProg p).cfg = s.cfg := rfl
@[simp] theorem enterProg_env (p : Phase) : (s.enterProg p).env = s.env := rfl
@[simp] theorem enterProg_ops (p : Phase) : (s.enterProg p).ops = s.ops := rfl
@[simp] theorem enterProg_ret (p : Phase) : (s.enterProg p).ret = s.ret := rfl

end updates

end Sys2Proof.Laws
end

