-- ==== Sys2Proof/Laws/Ops.lean ====
section
/-!
SUPPORT. One lemma per shared operation, saying everything it can do; later proofs cite these
instead of unfolding the operation.
-/

namespace Sys2Proof.Laws

open Sys2Proof.Machine Sys2Proof.Safety

/-! ### Outcomes and composition -/

/-- `guarded` answers a next state exactly when nothing stops it. -/
theorem guarded_next_iff {stop : Option Stop} {t u : State} :
    guarded stop t = .next u ↔ stop = none ∧ t = u := by
  cases stop with
  | none => simp [guarded]
  | some x => cases x <;> simp [guarded]

@[simp] theorem guarded_none (t : State) : guarded none t = .next t := rfl

@[simp] theorem andThen_go (s : State) (f : State → Eff) : (Eff.mk s true).andThen f = f s := rfl

@[simp] theorem andThen_stop (s : State) (f : State → Eff) :
    (Eff.mk s false).andThen f = Eff.mk s false := rfl

@[simp] theorem update_go (s : State) (f : State → State) : (Eff.mk s true).update f = f s := rfl

@[simp] theorem update_stop (s : State) (f : State → State) : (Eff.mk s false).update f = s := rfl

/-! ### Closing and the fatal entry -/

/-- Closing one channel if it is open. -/
theorem closeIfOpen_eq (s : State) (c : Chan) :
    s.closeIfOpen c = { s with
      ch := s.ch.set c (released (s.ch.get c))
      trace := s.trace ++ (if (s.ch.get c).isOpen then [.close c] else []) } := by
  unfold State.closeIfOpen
  split
  · rfl
  · rename_i h
    have hh : released (s.ch.get c) = s.ch.get c := by
      simp only [Bool.not_eq_true] at h
      simp only [released, ← h]
    have h3 : s.ch.set c (s.ch.get c) = s.ch := by cases c <;> rfl
    rw [hh, h3, List.append_nil]

/-- Closing every open channel: the handles are released, with their events in index order. -/
theorem closeAll_eq (s : State) :
    s.closeAll = { s with ch := releasedAll s.ch, trace := s.trace ++ closeEvents s.ch } := by
  unfold State.closeAll
  rw [closeIfOpen_eq, closeIfOpen_eq, closeIfOpen_eq]
  have ht : closeEvents s.ch =
      (if s.ch.cnd.isOpen then [.close .cnd] else []) ++
      (if s.ch.syn1.isOpen then [.close .syn1] else []) ++
      (if s.ch.syn2.isOpen then [.close .syn2] else []) := by
    unfold closeEvents
    cases h0 : s.ch.cnd.isOpen <;> cases h1 : s.ch.syn1.isOpen <;> cases h2 : s.ch.syn2.isOpen <;>
      simp [Three.get, h0, h1, h2]
  rw [ht]
  simp only [Three.get, Three.set, releasedAll, List.append_assoc]
  rfl

/-- The fatal entry is the record written out in Safety.lean. -/
theorem raise_eq (s : State) (d : Diag) : s.raise d = afterFatal s d := by
  unfold State.raise
  rw [closeAll_eq]
  simp only [State.finish, State.record, State.emit, afterFatal, List.append_assoc]

/-! ### The transport -/

/-- `T.OPEN`: opened, or the fatal entry. -/
theorem openEff_cases (c : Chan) (s : State) :
    (s.env.chanOpenAns (s.cfg.chans.get c).path = .ok ∧
      openEff c s = ⟨{ s with
        env := s.env.afterChanOpen
        trace := s.trace ++ [.chanOpen c .ok]
        ch := s.ch.set c { s.ch.get c with isOpen := true, iwd := some (s.cfg.chans.get c).iwd } }, true⟩) ∨
    (s.env.chanOpenAns (s.cfg.chans.get c).path = .fail ∧
      openEff c s = ⟨afterFatal { s with
        env := s.env.afterChanOpen
        trace := s.trace ++ [.chanOpen c .fail] } (diagChannelOpen c), false⟩) := by
  unfold openEff
  simp only [raise_eq]
  cases h : s.env.chanOpenAns (s.cfg.chans.get c).path with
  | ok => exact .inl ⟨rfl, rfl⟩
  | fail => exact .inr ⟨rfl, rfl⟩

/-- A configuration step: stored, or the fatal entry. -/
theorem cfgEff_cases (c : Chan) (w : CfgWhich) (s : State) :
    (verifyRes c w ((s.cfg.chans.get c).value w) s.env = .verified ∧
      cfgEff c w s = ⟨{ s with
        env := verifyEnv c w ((s.cfg.chans.get c).value w) s.env
        trace := s.trace ++ [.cfg c w ((s.cfg.chans.get c).value w) .verified]
        ch := s.ch.set c ((s.ch.get c).store ((s.cfg.chans.get c).value w)) }, true⟩) ∨
    (verifyRes c w ((s.cfg.chans.get c).value w) s.env ≠ .verified ∧
      cfgEff c w s = ⟨afterFatal { s with
        env := verifyEnv c w ((s.cfg.chans.get c).value w) s.env
        trace := s.trace ++ [.cfg c w ((s.cfg.chans.get c).value w)
          (verifyRes c w ((s.cfg.chans.get c).value w) s.env)] } (diagChannelConfig c w), false⟩) := by
  unfold cfgEff
  simp only [raise_eq]
  by_cases h : verifyRes c w ((s.cfg.chans.get c).value w) s.env = .verified
  · refine .inl ⟨h, ?_⟩
    rw [if_pos h, h]
    rfl
  · refine .inr ⟨h, ?_⟩
    rw [if_neg h]
    rfl

/-- The receive buffer after a transfer: the reply, or some frame. -/
theorem rxAfter_cases (r : XferRes) (s : State) :
    (∃ f, r = .ok f ∧ rxAfter r s = { s with rxf := f }) ∨
    (failed r = true ∧ rxAfter r s = { s with
      rxf := Config.freeFrame s.env.draws
      env := { s.env with draws := s.env.draws + 1 } }) := by
  cases r with
  | ok f => exact .inl ⟨f, rfl, rfl⟩
  | short n => exact .inr ⟨rfl, rfl⟩
  | fail => exact .inr ⟨rfl, rfl⟩

/-- A transfer: never answered, or its event, the receive buffer, and what the caller does. -/
theorem xferEff_cases (c : Chan) (f : Frame) (s : State) (caller : XferRes → State → State) :
    (s.env.xferAns c f = none ∧
      xferEff c f s caller = ⟨{ s with env := s.env.afterXfer c f, hung := some ⟨c, f⟩ }, false⟩) ∨
    (∃ r, s.env.xferAns c f = some r ∧
      xferEff c f s caller = ⟨caller r (rxAfter r
        { s with env := s.env.afterXfer c f, trace := s.trace ++ [.xfer c f r] }), true⟩) := by
  unfold xferEff
  cases h : s.env.xferAns c f with
  | none => exact .inl ⟨rfl, rfl⟩
  | some r => exact .inr ⟨r, rfl, rfl⟩

/-- A transfer on a configured channel is not stopped. -/
theorem xferStop_of_configured {c : Chan} {s : State} (h : s.configured c = true) : xferStop c s = none := by
  simp [xferStop, h]

/-- A frame sent on a configured channel: put in TXF, then transferred. -/
theorem sendFrame_eq {c : Chan} {f : Frame} {s : State} (caller : XferRes → State → State)
    (h : s.configured c = true) :
    sendFrame c f caller s = .next (xferEff c f { s with txf := f } caller).st := by
  have hs : xferStop c { s with txf := f } = none := xferStop_of_configured h
  simp [sendFrame, hs]

/-! ### The lines -/

/-- Changing one line that exists. -/
theorem modifyLine_eq {s : State} {k : Nat} {l : Line} (f : Line → Line) (h : s.lines[k]? = some l) :
    s.modifyLine k f = { s with lines := s.lines.set k (f l) } := by
  unfold State.modifyLine
  rw [List.modify_eq_set_getElem?, h]
  rfl

/-- The identifier of a line that exists. -/
theorem lineId_eq {s : State} {k : Nat} {l : Line} (h : s.lines[k]? = some l) :
    s.lineId k = l.cfg.id := by
  unfold State.lineId
  rw [h]

/-- `L.EXPORT`: exported, or the fatal entry. -/
theorem exportEff_cases (k : Nat) (s : State) :
    (s.env.lineExportAns (s.lineId k) = .ok ∧
      exportEff k s = ⟨{ s with
        env := s.env.afterLineExport
        trace := s.trace ++ [.lineExport k .ok]
        lines := s.lines.modify k fun l => { l with exported := true, exportedNow := true } }, true⟩) ∨
    (s.env.lineExportAns (s.lineId k) = .fail ∧
      exportEff k s = ⟨afterFatal { s with
        env := s.env.afterLineExport
        trace := s.trace ++ [.lineExport k .fail] } (diagLineSetup .lineExport k), false⟩) := by
  unfold exportEff
  simp only [raise_eq]
  cases h : s.env.lineExportAns (s.lineId k) with
  | ok => exact .inl ⟨rfl, rfl⟩
  | fail => exact .inr ⟨rfl, rfl⟩

/-- `L.DIR`: an output, or the fatal entry. -/
theorem dirEff_cases (k : Nat) (s : State) :
    (s.env.lineSetDirAns (s.lineId k) = .ok ∧
      dirEff k s = ⟨{ s with
        env := s.env.afterLineSetDir
        trace := s.trace ++ [.lineDir k .ok]
        lines := s.lines.modify k fun l => { l with dir := .out, dirNow := true } }, true⟩) ∨
    (s.env.lineSetDirAns (s.lineId k) = .fail ∧
      dirEff k s = ⟨afterFatal { s with
        env := s.env.afterLineSetDir
        trace := s.trace ++ [.lineDir k .fail] } (diagLineSetup .lineDir k), false⟩) := by
  unfold dirEff
  simp only [raise_eq]
  cases h : s.env.lineSetDirAns (s.lineId k) with
  | ok => exact .inl ⟨rfl, rfl⟩
  | fail => exact .inr ⟨rfl, rfl⟩

/-! ### The environment -/

/-- The ideal device answers every transfer. -/
theorem xferAns_ideal {e : Env} (h : e.kind = .ideal) (c : Chan) (f : Frame) :
    e.xferAns c f = some (.ok (e.idealReply c f)) := by
  simp [Env.xferAns, answerOf, h]

theorem lineExportAns_ideal {e : Env} (h : e.kind = .ideal) (id : Nat) : e.lineExportAns id = .ok := by
  simp [Env.lineExportAns, answerOf, h]

theorem lineSetDirAns_ideal {e : Env} (h : e.kind = .ideal) (id : Nat) : e.lineSetDirAns id = .ok := by
  simp [Env.lineSetDirAns, answerOf, h]

theorem chanOpenAns_ideal {e : Env} (h : e.kind = .ideal) (p : Nat) : e.chanOpenAns p = .ok := by
  simp [Env.chanOpenAns, answerOf, h]

theorem verifyRes_ideal {e : Env} (h : e.kind = .ideal) (c : Chan) (w : CfgWhich) (v : CfgVal) :
    verifyRes c w v e = .verified := by
  simp [verifyRes, Env.cfgSetAns, Env.cfgGetAns, Env.afterCfgSet, answerOf, h]

/-- The ideal environment is not used up by a question that is no transfer. -/
theorem afterLineExport_ideal {e : Env} (h : e.kind = .ideal) : e.afterLineExport = e := by
  cases e
  simp_all [Env.afterLineExport, queueAfter, drawsAfter]

theorem afterLineSetDir_ideal {e : Env} (h : e.kind = .ideal) : e.afterLineSetDir = e := by
  cases e
  simp_all [Env.afterLineSetDir, queueAfter, drawsAfter]

theorem afterChanOpen_ideal {e : Env} (h : e.kind = .ideal) : e.afterChanOpen = e := by
  cases e
  simp_all [Env.afterChanOpen, queueAfter, drawsAfter]

theorem verifyEnv_ideal {e : Env} (h : e.kind = .ideal) (c : Chan) (w : CfgWhich) (v : CfgVal) :
    verifyEnv c w v e = e := by
  cases e
  simp_all [verifyEnv, Env.cfgSetAns, Env.afterCfgSet, Env.afterCfgGet, answerOf, queueAfter, drawsAfter]

end Sys2Proof.Laws
end

