-- ==== Sys2Proof/Laws/Run.lean ====
section
/-!
SUPPORT. One step and runs of steps: which instruction a step performs, what holds a state still, and
how runs compose.
-/

namespace Sys2Proof.Laws

open Sys2Proof.Machine Sys2Proof.Safety

/-! ### One step -/

/-- Outside the reset input and a hang, and with no operation to take, a step is the phase's own
instruction. -/
theorem step_phase {s : State} (hp : s.pinReset = false) (hh : s.hung = none)
    (hr : s.phase ≠ .pReset ∨ s.ops = []) : step s = exec s.phase.instr s := by
  have hreq : s.request = none := by
    unfold State.request
    rcases hr with hr | hr
    · split
      · rename_i h _
        exact absurd h hr
      · rfl
    · rw [hr]
      cases s.phase <;> rfl
  have ht : s.taken = s := by simp [State.taken, hreq]
  have hf : s.fetch = (.phase4, [s.phase.code]) := by simp [State.fetch, hreq]
  have hd : decode .phase4 [s.phase.code] = .ok s.phase.instr := by cases s.phase <;> rfl
  unfold step
  simp [hp, State.waiting, hh, ht, hf, hd, runFetched]

/-- While a transfer is waited for, a step changes nothing. -/
theorem step_waiting {s : State} (hp : s.pinReset = false) (h : s.hung.isSome = true) :
    step s = .next s := by
  simp [step, hp, State.waiting, h]

/-- The reset input comes first. -/
theorem step_reset {s : State} (hp : s.pinReset = true) : step s = .next s.blockReset := by
  simp [step, hp]

/-- Every step with a next state: the reset input, a hang held, or an instruction of the machine run
on the state with its request taken. -/
theorem step_cases {s t : State} (h : step s = .next t) :
    (s.pinReset = true ∧ t = s.blockReset) ∨
    (s.pinReset = false ∧ s.hung.isSome = true ∧ t = s) ∨
    (s.pinReset = false ∧ s.hung = none ∧
      ∃ i, decode s.fetch.1 s.fetch.2 = .ok i ∧ exec i s.taken = .next t) := by
  unfold step at h
  split at h
  · rename_i hp
    cases h
    exact .inl ⟨hp, rfl⟩
  · rename_i hp
    have hp : s.pinReset = false := by simpa using hp
    split at h
    · rename_i hw
      cases h
      exact .inr (.inl ⟨hp, hw, rfl⟩)
    · rename_i hw
      have hh : s.hung = none := by simpa [State.waiting] using hw
      refine .inr (.inr ⟨hp, hh, ?_⟩)
      cases hd : decode s.fetch.1 s.fetch.2 with
      | ok i => exact ⟨i, rfl, by simpa [hd, runFetched] using h⟩
      | error e => simp [hd, runFetched] at h

/-- The same in a bring-up run, where no operation is requested: the instruction is the phase's. -/
theorem step_cases_run {s t : State} (ho : s.ops = []) (h : step s = .next t) :
    (s.pinReset = true ∧ t = s.blockReset) ∨
    (s.pinReset = false ∧ s.hung.isSome = true ∧ t = s) ∨
    (s.pinReset = false ∧ s.hung = none ∧ exec s.phase.instr s = .next t) := by
  rcases step_cases h with h1 | h1 | ⟨hp, hh, _⟩
  · exact .inl h1
  · exact .inr (.inl h1)
  · exact .inr (.inr ⟨hp, hh, by rw [← step_phase hp hh (.inr ho), h]⟩)

/-- Taking a request changes only the list of requests. -/
theorem taken_eq (s : State) : s.taken = { s with ops := s.taken.ops } := by
  unfold State.taken
  split <;> rfl

/-! ### Runs -/

theorem run_zero (s : State) : core.run 0 s = .next s := rfl

/-- A run of one more step, when the first step has a next state. -/
theorem core_run_next (M : Host.Core) (n : Nat) (s t : M.State) (h : M.step s = .next t) :
    M.run (n + 1) s = M.run n t := by
  rw [Host.Core.run, h]

theorem run_succ {s t : State} (n : Nat) (h : step s = .next t) :
    core.run (n + 1) s = core.run n t :=
  core_run_next core n s t h

/-- A run that reaches a state after its first step. -/
theorem core_run_some (M : Host.Core) (n : Nat) (s t : M.State) (h : M.run (n + 1) s = .next t) :
    ∃ u, M.step s = .next u ∧ M.run n u = .next t := by
  rw [Host.Core.run] at h
  cases hs : M.step s with
  | next u => exact ⟨u, rfl, by rw [hs] at h; exact h⟩
  | fault f => rw [hs] at h; cases h
  | refused r => rw [hs] at h; cases h

theorem run_some {s t : State} {n : Nat} (h : core.run (n + 1) s = .next t) :
    ∃ u, step s = .next u ∧ core.run n u = .next t :=
  core_run_some core n s t h

/-- Runs compose. -/
theorem run_add {s t : State} {n : Nat} (m : Nat) (h : core.run n s = .next t) :
    core.run (n + m) s = core.run m t := by
  induction n generalizing s with
  | zero =>
    rw [run_zero] at h
    cases h
    rw [Nat.zero_add]
  | succ n ih =>
    obtain ⟨u, hs, hu⟩ := run_some h
    rw [Nat.succ_add, run_succ _ hs, ih hu]

/-- A state that a step leaves as it is stays for ever. -/
theorem run_fixed {s : State} (h : step s = .next s) (n : Nat) : core.run n s = .next s := by
  induction n with
  | zero => rfl
  | succ n ih => rw [run_succ n h, ih]

/-- A step from one reachable state to the next, as a run. -/
theorem run_trans {s t u : State} (h : ∃ n, core.run n s = .next t) (h' : ∃ n, core.run n t = .next u) :
    ∃ n, core.run n s = .next u := by
  obtain ⟨n, hn⟩ := h
  obtain ⟨m, hm⟩ := h'
  exact ⟨n + m, by rw [run_add m hn, hm]⟩

theorem run_one {s t : State} (h : step s = .next t) : ∃ n, core.run n s = .next t :=
  ⟨1, by rw [run_succ 0 h, run_zero]⟩

end Sys2Proof.Laws
end

