-- ==== Sys2Proof/Laws/Lines.lean ====
section
/-!
SUPPORT. The control lines: what one line's lifecycle can do, and the whole of `S.INIT_LINES` (rules R180
to R186).
-/

namespace Sys2Proof.Laws

open Sys2Proof.Machine Sys2Proof.Safety

/-- A level write on a line that exists. -/
theorem levelLine_eq {s : State} {k : Nat} {l : Line} (v : Bool) (h : s.lines[k]? = some l) :
    s.levelLine k v = { s with
      trace := s.trace ++ [.lineLevel k v]
      lines := s.lines.set k { l with level := some v } } := by
  unfold State.levelLine
  rw [modifyLine_eq (s := s.emit (.lineLevel k v)) _ h]
  rfl

/-- A line that exists can be found. -/
theorem lt_of_getElem? {α : Type} {xs : List α} {k : Nat} {x : α} (h : xs[k]? = some x) :
    k < xs.length := (List.getElem?_eq_some_iff.mp h).1

/-- The last part of a line's lifecycle, by its policy. -/
def policyEvents (k : Nat) (l : LineCfg) : List Event :=
  match l.policy with
  | .pulse => [.lineLevel k true, .delay (.pulse k) l.tPulse, .lineLevel k false]
  | .static v => [.lineLevel k v]

theorem lineEvents_eq (k : Nat) (l : LineCfg) :
    lineEvents k l = .lineExport k .ok :: .lineDir k .ok :: policyEvents k l := rfl

/-- The policy part: its events, and the line at its final level. -/
theorem applyPolicy_eq {s : State} {k : Nat} {l : Line} (h : s.lines[k]? = some l) :
    s.applyPolicy k = { s with
      trace := s.trace ++ policyEvents k l.cfg
      lines := s.lines.set k { l with level := some (finalLevel l.cfg.policy) } } := by
  have hk := lt_of_getElem? h
  unfold State.applyPolicy
  rw [h]
  dsimp only
  unfold policyEvents finalLevel
  cases hp : l.cfg.policy with
  | pulse =>
    dsimp only
    rw [levelLine_eq true h]
    rw [levelLine_eq (s := State.delay _ _ _) (l := { l with level := some true }) false
      (by simp [State.delay, State.emit, hk])]
    simp [State.delay, State.emit]
  | static v => exact levelLine_eq v h

/-- One line's lifecycle on a line that exists: the whole of it, or the fatal entry at its export or its
direction. -/
theorem initLineEff_cases {s : State} {k : Nat} {l : Line} (h : s.lines[k]? = some l) :
    (s.env.lineExportAns l.cfg.id = .ok ∧ s.env.afterLineExport.lineSetDirAns l.cfg.id = .ok ∧
      initLineEff k s = ⟨{ s with
        env := s.env.afterLineExport.afterLineSetDir
        trace := s.trace ++ lineEvents k l.cfg
        lines := s.lines.set k (lineDone l) }, true⟩) ∨
    (s.env.lineExportAns l.cfg.id = .fail ∧
      initLineEff k s = ⟨afterFatal { s with
        env := s.env.afterLineExport
        trace := s.trace ++ [.lineExport k .fail] } (diagLineSetup .lineExport k), false⟩) ∨
    (s.env.lineExportAns l.cfg.id = .ok ∧ s.env.afterLineExport.lineSetDirAns l.cfg.id = .fail ∧
      initLineEff k s = ⟨afterFatal { s with
        env := s.env.afterLineExport.afterLineSetDir
        trace := s.trace ++ [.lineExport k .ok, .lineDir k .fail]
        lines := s.lines.set k { l with exported := true, exportedNow := true } }
        (diagLineSetup .lineDir k), false⟩) := by
  have hk := lt_of_getElem? h
  have hid := lineId_eq h
  unfold initLineEff
  rcases exportEff_cases k s with ⟨ha, e⟩ | ⟨ha, e⟩
  · have hmod : s.lines.modify k (fun l => { l with exported := true, exportedNow := true }) =
        s.lines.set k { l with exported := true, exportedNow := true } := by
      rw [List.modify_eq_set_getElem?, h]
      rfl
    rw [hid] at ha
    rw [e, andThen_go, hmod]
    generalize hs1 : ({ s with
        env := s.env.afterLineExport
        trace := s.trace ++ [.lineExport k .ok]
        lines := s.lines.set k { l with exported := true, exportedNow := true } } : State) = s1
    have h1 : s1.lines[k]? = some { l with exported := true, exportedNow := true } := by
      rw [← hs1]
      simp [hk]
    rcases dirEff_cases k s1 with ⟨hb, e1⟩ | ⟨hb, e1⟩
    · have hmod1 : s1.lines.modify k (fun l => { l with dir := .out, dirNow := true }) =
          s1.lines.set k
            { l with exported := true, exportedNow := true, dir := .out, dirNow := true } := by
        rw [List.modify_eq_set_getElem?, h1]
        rfl
      rw [lineId_eq h1] at hb
      refine .inl ⟨ha, by rw [← hs1] at hb; exact hb, ?_⟩
      rw [e1, andThen_go, hmod1]
      rw [applyPolicy_eq (l := { l with exported := true, exportedNow := true, dir := .out, dirNow := true })
        (by rw [← hs1]; simp [hk])]
      rw [← hs1]
      simp [lineEvents_eq, lineDone]
    · rw [lineId_eq h1] at hb
      refine .inr (.inr ⟨ha, by rw [← hs1] at hb; exact hb, ?_⟩)
      rw [e1, andThen_stop, ← hs1]
      simp
  · rw [hid] at ha
    refine .inr (.inl ⟨ha, ?_⟩)
    rw [e, andThen_stop, andThen_stop]

end Sys2Proof.Laws
end

