-- ==== Sys2Proof/Laws/Replay.lean ====
section
/-!
SUPPORT. The replay of an image: what one entry can do, and what a stretch of entries can do (rules R160 to
R163).
-/

namespace Sys2Proof.Laws

open Sys2Proof.Machine Sys2Proof.Safety

/-- An image has as many frames as the replay counts entries. -/
theorem imageFrames_length (s : State) (c : Chan) :
    (imageFrames s.cfg c).length = s.imageLength c := by
  cases c <;> simp [imageFrames, State.imageLength]

/-- The frame of an entry is the image's frame at its index. -/
theorem entryFrame_eq (p : Params) (c : Chan) (i : Nat) : entryFrame p c i = (imageFrames p c)[i]? := by
  cases c <;> simp [entryFrame, imageFrames]

/-- Fetching an entry that exists: its frame is in TXF, and only the latches of its format change. -/
theorem loadEntry_eq {s : State} {c : Chan} {f : Frame} (h : entryFrame s.cfg c s.idx = some f) :
    ∃ (a : BitVec 13) (d : Byte) (w : Word24),
      s.loadEntry c = some { s with opA := a, opD := d, opW := w, txf := f } ∧
      (c = .cnd → w = s.opW ∧ cndEncWr a d = f) ∧ (c ≠ .cnd → a = s.opA ∧ d = s.opD ∧ synSplit w = f) := by
  cases c with
  | cnd =>
    simp only [entryFrame, Option.map_eq_some_iff] at h
    obtain ⟨e, he, rfl⟩ := h
    refine ⟨cndEntryAddr e, cndEntryData e, s.opW, ?_, fun _ => ⟨rfl, rfl⟩, fun h => absurd rfl h⟩
    simp only [State.loadEntry, he]
    rfl
  | syn1 =>
    simp only [entryFrame, Option.map_eq_some_iff] at h
    obtain ⟨w, hw, rfl⟩ := h
    refine ⟨s.opA, s.opD, synEntryWord w, ?_, fun h => (by cases h), fun _ => ⟨rfl, rfl, rfl⟩⟩
    simp only [State.loadEntry, hw]
    rfl
  | syn2 =>
    simp only [entryFrame, Option.map_eq_some_iff] at h
    obtain ⟨w, hw, rfl⟩ := h
    refine ⟨s.opA, s.opD, synEntryWord w, ?_, fun h => (by cases h), fun _ => ⟨rfl, rfl, rfl⟩⟩
    simp only [State.loadEntry, hw]
    rfl

/-- The record of a failed transfer, when it failed. -/
def reportOf (c : Chan) (i : Nat) (r : XferRes) : List Event :=
  if failed r then [.diag (diagTransaction c i)] else []

/-- The XFER sub-step on an entry that exists: the transfer is never answered and is waited for, or it is
answered, recorded, reported if it failed, and the gap follows. -/
theorem xferSubEff_cases {s : State} {c : Chan} {f : Frame} (h : entryFrame s.cfg c s.idx = some f) :
    ∃ (a : BitVec 13) (d : Byte) (w : Word24),
      (c = .cnd → w = s.opW ∧ cndEncWr a d = f) ∧ (c ≠ .cnd → a = s.opA ∧ d = s.opD ∧ synSplit w = f) ∧
      ((s.env.xferAns c f = none ∧
        xferSubEff c s = ⟨{ s with
          opA := a, opD := d, opW := w, txf := f
          env := s.env.afterXfer c f
          hung := some ⟨c, f⟩ }, false⟩) ∨
      (∃ (r : XferRes) (x : Frame), s.env.xferAns c f = some r ∧ (∀ y, r = .ok y → x = y) ∧
        xferSubEff c s = ⟨{ s with
          opA := a, opD := d, opW := w, txf := f, rxf := x
          env := envAnswered c f r s.env
          trace := s.trace ++ (.xfer c f r :: reportOf c s.idx r)
          lastErr := if failed r then some (diagTransaction c s.idx) else s.lastErr
          txnErrCount := s.txnErrCount + if failed r then 1 else 0
          sub := .s1 }, true⟩)) := by
  obtain ⟨a, d, w, hl, h1, h2⟩ := loadEntry_eq h
  refine ⟨a, d, w, h1, h2, ?_⟩
  unfold xferSubEff
  rw [hl]
  dsimp only
  rcases xferEff_cases c f { s with opA := a, opD := d, opW := w, txf := f } (afterEntry c) with
    ⟨hn, e⟩ | ⟨r, hr, e⟩
  · exact .inl ⟨hn, e⟩
  · refine .inr ?_
    cases r with
    | ok y =>
      refine ⟨.ok y, y, hr, fun _ hy => (by cases hy; rfl), ?_⟩
      rw [e]
      simp [afterEntry, rxAfter, reportOf, failed, envAnswered]
    | short m =>
      refine ⟨.short m, Config.freeFrame (s.env.afterXfer c f).draws, hr, fun _ hy => (by cases hy), ?_⟩
      rw [e]
      simp [afterEntry, rxAfter, reportOf, failed, envAnswered, State.report, State.record, State.emit]
    | fail =>
      refine ⟨.fail, Config.freeFrame (s.env.afterXfer c f).draws, hr, fun _ hy => (by cases hy), ?_⟩
      rw [e]
      simp [afterEntry, rxAfter, reportOf, failed, envAnswered, State.report, State.record, State.emit]

/-- No more transfers are answered than are asked. -/
theorem replayAnswers_length_le (c : Chan) (fs : List Frame) (e : Env) :
    (replayAnswers c fs e).length ≤ fs.length := by
  induction fs generalizing e with
  | nil => exact Nat.le_refl _
  | cons f fs ih =>
    unfold replayAnswers
    split
    · exact Nat.zero_le _
    · exact Nat.succ_le_succ (ih _)

/-- The state after a stretch of entries, from the answers its transfers had: what it left in RXF and in
the latches is `u`'s. -/
def afterReplay (c : Chan) (s u : State) (rs : List XferRes) : State :=
  let fs := (imageFrames s.cfg c).drop s.idx
  let evs := replayEvents c (s.cfg.tTxn.get c) s.idx (fs.zip rs)
  { s with
    idx := s.idx + rs.length
    opA := u.opA
    opD := u.opD
    opW := u.opW
    txf := (fs.take (rs.length + 1)).getLast?.getD s.txf
    rxf := u.rxf
    env := envAfterReplay c fs s.env
    trace := s.trace ++ evs
    txnErrCount := s.txnErrCount + (rs.filter failed).length
    lastErr := (lastDiag evs).or s.lastErr
    hung := fs[rs.length]?.map fun f => ⟨c, f⟩ }

/-- A stretch of `n` entries up to the end of the image, whatever is answered. -/
theorem replayEff_eq (c : Chan) (n : Nat) (s : State) (hi : s.idx + n = (imageFrames s.cfg c).length)
    (hs : s.sub = .s0) (hh : s.hung = none) :
    ∃ t : State, replayEff c n s =
        ⟨t, decide ((replayAnswers c ((imageFrames s.cfg c).drop s.idx) s.env).length = n)⟩ ∧
      t = afterReplay c s t (replayAnswers c ((imageFrames s.cfg c).drop s.idx) s.env) ∧
      Latches c (0 < n) s t ∧
      (replayAnswers c ((imageFrames s.cfg c).drop s.idx) s.env = [] → t.rxf = s.rxf) ∧
      ∀ y, (replayAnswers c ((imageFrames s.cfg c).drop s.idx) s.env).getLast? = some (.ok y) →
        t.rxf = y := by
  induction n generalizing s with
  | zero =>
    have hd : (imageFrames s.cfg c).drop s.idx = [] := by simp; omega
    refine ⟨s, ?_, ?_, ⟨fun _ => ⟨rfl, by simp, by simp⟩, fun _ => ⟨rfl, rfl, by simp, by simp⟩⟩,
      fun _ => rfl, fun y h => ?_⟩
    · simp [hd, replayAnswers, replayEff]
    · cases s
      simp_all [afterReplay, replayAnswers, envAfterReplay, replayEvents, lastDiag]
    · simp [hd, replayAnswers] at h
  | succ n ih =>
    have hlt : s.idx < (imageFrames s.cfg c).length := by omega
    have hf : entryFrame s.cfg c s.idx = some ((imageFrames s.cfg c)[s.idx]) := by
      rw [entryFrame_eq, List.getElem?_eq_getElem hlt]
    have hd : (imageFrames s.cfg c).drop s.idx =
        (imageFrames s.cfg c)[s.idx] :: (imageFrames s.cfg c).drop (s.idx + 1) :=
      List.drop_eq_getElem_cons hlt
    generalize (imageFrames s.cfg c)[s.idx] = f at hf hd
    obtain ⟨a, d, w, h1, h2, ⟨ha, e⟩ | ⟨r, x, ha, hx, e⟩⟩ := xferSubEff_cases hf
    · refine ⟨{ s with
        opA := a, opD := d, opW := w, txf := f
        env := s.env.afterXfer c f
        hung := some ⟨c, f⟩ }, ?_, ?_, ⟨fun hc => ⟨(h1 hc).1, fun _ => (h1 hc).2, by simp⟩, fun hc =>
          ⟨(h2 hc).1, (h2 hc).2.1, fun _ => (h2 hc).2.2, by simp⟩⟩, fun _ => rfl, fun y h => ?_⟩
      · simp [hd, replayAnswers, ha, replayEff, entryEff, e]
      · simp [afterReplay, hd, replayAnswers, envAfterReplay, ha, replayEvents, lastDiag]
      · simp [hd, replayAnswers, ha] at h
    · obtain ⟨t, hk, ht, hl, hr0, hry⟩ := ih { s with
          idx := s.idx + 1
          opA := a, opD := d, opW := w, txf := f, rxf := x
          env := envAnswered c f r s.env
          trace := s.trace ++ (.xfer c f r :: reportOf c s.idx r) ++ [.delay (.txn c) (s.cfg.tTxn.get c)]
          lastErr := if failed r then some (diagTransaction c s.idx) else s.lastErr
          txnErrCount := s.txnErrCount + if failed r then 1 else 0
          sub := .s0 } (by simp only; omega) rfl hh
      simp only at hk ht hl hr0 hry
      rw [hd]
      simp only [replayAnswers, ha]
      generalize hrs : replayAnswers c ((imageFrames s.cfg c).drop (s.idx + 1)) (envAnswered c f r s.env) = rs
        at hk ht hl hr0 hry
      refine ⟨t, ?_, ?_, ?_, by simp, ?_⟩
      · simp [replayEff, entryEff, e, andThen_go, State.gap, State.delay, State.emit] at hk ⊢
        exact hk
      · rw [ht]
        have hlast : ∀ evs : List Event,
            (lastDiag evs).or (if failed r then some (diagTransaction c s.idx) else s.lastErr) =
              (lastDiag (entryEvents c (s.cfg.tTxn.get c) s.idx f r ++ evs)).or s.lastErr := by
          intro evs
          unfold lastDiag entryEvents
          cases hfl : failed r <;> simp [diagTransaction, List.getLast?_cons]
        simp only [afterReplay, hd, List.length_cons, List.take_succ_cons, List.getLast?_cons,
          Option.getD_some, envAfterReplay, ha, List.zip_cons_cons, replayEvents, hlast,
          List.getElem?_cons_succ]
        rw [State.mk.injEq]
        refine ⟨rfl, hs.symm, rfl, rfl, by omega, rfl, rfl, rfl, rfl, rfl, rfl, ?_, rfl, rfl, rfl, ?_,
          rfl, rfl, rfl, rfl, rfl, rfl, rfl⟩
        · cases hfl : failed r <;> simp [hfl]
          omega
        · simp [entryEvents, reportOf, diagTransaction]
      · have htx : n = 0 → t.txf = f := by
          rintro rfl
          have hd' : (imageFrames s.cfg c).drop (s.idx + 1) = [] := by simp; omega
          rw [ht]
          simp [afterReplay, hd']
        rcases Nat.eq_zero_or_pos n with rfl | hn
        · refine ⟨fun hc => ?_, fun hc => ?_⟩
          · obtain ⟨h3, -, h4⟩ := hl.1 hc
            obtain ⟨h5, h6⟩ := h4 (by simp)
            exact ⟨h3.trans (h1 hc).1, fun _ => by rw [h5, h6, htx rfl]; exact (h1 hc).2, by simp⟩
          · obtain ⟨h3, h4, -, h5⟩ := hl.2 hc
            exact ⟨h3.trans (h2 hc).1, h4.trans (h2 hc).2.1,
              fun _ => by rw [h5 (by simp), htx rfl]; exact (h2 hc).2.2, by simp⟩
        · refine ⟨fun hc => ?_, fun hc => ?_⟩
          · obtain ⟨h3, h4, -⟩ := hl.1 hc
            exact ⟨h3.trans (h1 hc).1, fun _ => h4 hn, by simp⟩
          · obtain ⟨h3, h4, h5, -⟩ := hl.2 hc
            exact ⟨h3.trans (h2 hc).1, h4.trans (h2 hc).2.1, fun _ => h5 hn, by simp⟩
      · intro y hy
        rw [List.getLast?_cons] at hy
        cases hl' : rs.getLast? with
        | none =>
          rw [List.getLast?_eq_none_iff] at hl'
          subst hl'
          rw [hr0 rfl]
          exact hx y (by simpa using hy)
        | some z => exact hry y (by rw [hl'] at hy ⊢; simpa using hy)

end Sys2Proof.Laws
end

