-- ==== Sys2Proof/Laws/Phases.lean ====
section
/-!
SUPPORT. What one step of each phase can do when it has a next state, one inversion lemma per phase that
branches (rules R202, R203, R205, R206).
-/

namespace Sys2Proof.Laws

open Sys2Proof.Machine Sys2Proof.Safety

/-- After the last write of a line's lifecycle: the next line, or the line settle (rule R203). -/
theorem nextLine_cases (s : State) :
    (s.li + 1 < s.lines.length ∧ s.nextLine = { s with li := s.li + 1, sub := .s0 }) ∨
    (¬ s.li + 1 < s.lines.length ∧ s.nextLine = { s with phase := .pLineSettle, sub := .s0 }) := by
  unfold State.nextLine State.nLines
  by_cases h : s.li + 1 < s.lines.length
  · exact .inl ⟨h, by simp [h]⟩
  · exact .inr ⟨h, by simp [h, State.enter]⟩

/-- `P_RESET`. -/
theorem execPReset_cases {s t : State} (h : exec .pReset s = .next t) :
    (s.pinStart = false ∧ t = s) ∨
    (s.pinStart = true ∧ s.cfg.readbackEnable = false ∧ t = { s with
      li := 0, ci := .cnd, idx := 0, sub := .s0
      phase := if s.lines = [] then .pLineSettle else .pLines }) := by
  have h : execPReset s = .next t := h
  unfold execPReset at h
  cases hp : s.pinStart <;> rw [hp] at h
  · cases h
    exact .inl ⟨rfl, rfl⟩
  · cases hr : s.cfg.readbackEnable <;> rw [hr] at h
    · cases h
      refine .inr ⟨rfl, rfl, ?_⟩
      simp [State.nLines]
    · cases h

/-- `P_LINES`: one of its sub-steps, on the line at `li`. -/
theorem execPLines_cases {s t : State} (h : exec .pLines s = .next t) :
    ∃ l, s.lines[s.li]? = some l ∧
    ((s.sub = .s0 ∧ s.env.lineExportAns l.cfg.id = .ok ∧ t = { s with
        env := s.env.afterLineExport
        trace := s.trace ++ [.lineExport s.li .ok]
        lines := s.lines.set s.li { l with exported := true, exportedNow := true }
        sub := .s1 }) ∨
    (s.sub = .s0 ∧ s.env.lineExportAns l.cfg.id = .fail ∧ t = afterFatal { s with
        env := s.env.afterLineExport
        trace := s.trace ++ [.lineExport s.li .fail] } (diagLineSetup .lineExport s.li)) ∨
    (s.sub = .s1 ∧ l.exportedNow = true ∧ s.env.lineSetDirAns l.cfg.id = .ok ∧ t = { s with
        env := s.env.afterLineSetDir
        trace := s.trace ++ [.lineDir s.li .ok]
        lines := s.lines.set s.li { l with dir := .out, dirNow := true }
        sub := .s2 }) ∨
    (s.sub = .s1 ∧ l.exportedNow = true ∧ s.env.lineSetDirAns l.cfg.id = .fail ∧ t = afterFatal { s with
        env := s.env.afterLineSetDir
        trace := s.trace ++ [.lineDir s.li .fail] } (diagLineSetup .lineDir s.li)) ∨
    (s.sub = .s2 ∧ l.dirNow = true ∧ l.cfg.policy = .pulse ∧ t = { s with
        trace := s.trace ++ [.lineLevel s.li true]
        lines := s.lines.set s.li { l with level := some true }
        sub := .s3 }) ∨
    (∃ v, s.sub = .s2 ∧ l.dirNow = true ∧ l.cfg.policy = .static v ∧ t = State.nextLine { s with
        trace := s.trace ++ [.lineLevel s.li v]
        lines := s.lines.set s.li { l with level := some v } }) ∨
    (s.sub = .s3 ∧ t = { s with
        trace := s.trace ++ [.delay (.pulse s.li) l.cfg.tPulse]
        sub := .s4 }) ∨
    (s.sub = .s4 ∧ l.dirNow = true ∧ t = State.nextLine { s with
        trace := s.trace ++ [.lineLevel s.li false]
        lines := s.lines.set s.li { l with level := some false } })) := by
  have h : execPLines s = .next t := h
  unfold execPLines at h
  cases hl : s.lines[s.li]? with
  | none =>
    rw [hl] at h
    cases hs : s.sub <;> rw [hs] at h <;> cases h
  | some l =>
    have hid := lineId_eq hl
    have hmod : ∀ f : Line → Line, s.lines.modify s.li f = s.lines.set s.li (f l) := by
      intro f
      rw [List.modify_eq_set_getElem?, hl]
      rfl
    refine ⟨l, rfl, ?_⟩
    rw [hl] at h
    obtain ⟨u, hs⟩ : ∃ u, s.sub = u := ⟨_, rfl⟩
    rw [hs] at h
    cases u <;> dsimp only at h
    · obtain ⟨-, h⟩ := guarded_next_iff.mp h
      rcases exportEff_cases s.li s with ⟨ha, e⟩ | ⟨ha, e⟩
      · rw [e, update_go, hmod] at h
        exact .inl ⟨hs, by rw [← hid]; exact ha, h.symm⟩
      · rw [e, update_stop] at h
        exact .inr (.inl ⟨hs, by rw [← hid]; exact ha, h.symm⟩)
    · obtain ⟨hst, h⟩ := guarded_next_iff.mp h
      have hn : l.exportedNow = true := by
        unfold dirStop at hst
        rw [hl] at hst
        by_contra hc
        simp [hc] at hst
      rcases dirEff_cases s.li s with ⟨ha, e⟩ | ⟨ha, e⟩
      · rw [e, update_go, hmod] at h
        exact .inr (.inr (.inl ⟨hs, hn, by rw [← hid]; exact ha, h.symm⟩))
      · rw [e, update_stop] at h
        exact .inr (.inr (.inr (.inl ⟨hs, hn, by rw [← hid]; exact ha, h.symm⟩)))
    · obtain ⟨hst, h⟩ := guarded_next_iff.mp h
      have hn : l.dirNow = true := by
        unfold levelStop at hst
        rw [hl] at hst
        by_contra hc
        simp [hc] at hst
      rw [levelLine_eq _ hl] at h
      cases hp : l.cfg.policy with
      | pulse =>
        rw [hp] at h
        exact .inr (.inr (.inr (.inr (.inl ⟨hs, hn, rfl, h.symm⟩))))
      | static v =>
        rw [hp] at h
        exact .inr (.inr (.inr (.inr (.inr (.inl ⟨v, hs, hn, rfl, h.symm⟩)))))
    · cases h
      exact .inr (.inr (.inr (.inr (.inr (.inr (.inl ⟨hs, rfl⟩))))))
    · obtain ⟨hst, h⟩ := guarded_next_iff.mp h
      have hn : l.dirNow = true := by
        unfold levelStop at hst
        rw [hl] at hst
        by_contra hc
        simp [hc] at hst
      rw [levelLine_eq _ hl] at h
      exact .inr (.inr (.inr (.inr (.inr (.inr (.inr ⟨hs, hn, h.symm⟩))))))

/-- The sub-step of P_OPEN that performs a configuration step (rule R205). -/
def cfgSub : CfgWhich → Sub
  | .mode => .s1
  | .bits => .s2
  | .hz => .s3

/-- What follows a verified configuration step in P_OPEN (rule R205). -/
def afterCfg : CfgWhich → State → State
  | .mode, s => { s with sub := .s2 }
  | .bits, s => { s with sub := .s3 }
  | .hz, s => s.nextChannel

/-- `P_OPEN`: the opening, or one of the three configuration steps, of channel `ci`. -/
theorem execPOpen_cases {s t : State} (h : exec .pOpen s = .next t) :
    (s.sub = .s0 ∧ (s.ch.get s.ci).isOpen = false ∧ (s.ch.get s.ci).iwd = none ∧ t = { s with
        env := s.env.afterChanOpen
        trace := s.trace ++ [.chanOpen s.ci .ok]
        ch := s.ch.set s.ci
          { s.ch.get s.ci with isOpen := true, iwd := some (s.cfg.chans.get s.ci).iwd }
        sub := .s1 }) ∨
    (s.sub = .s0 ∧ (s.ch.get s.ci).isOpen = false ∧ (s.ch.get s.ci).iwd = none ∧ t = afterFatal { s with
        env := s.env.afterChanOpen
        trace := s.trace ++ [.chanOpen s.ci .fail] } (diagChannelOpen s.ci)) ∨
    (∃ w, s.sub = cfgSub w ∧ cfgReady (s.ch.get s.ci) w = true ∧ t = afterCfg w { s with
        env := verifyEnv s.ci w ((s.cfg.chans.get s.ci).value w) s.env
        trace := s.trace ++ [.cfg s.ci w ((s.cfg.chans.get s.ci).value w) .verified]
        ch := s.ch.set s.ci ((s.ch.get s.ci).store ((s.cfg.chans.get s.ci).value w)) }) ∨
    (∃ w r, s.sub = cfgSub w ∧ cfgReady (s.ch.get s.ci) w = true ∧ r ≠ CfgRes.verified ∧
      t = afterFatal { s with
        env := verifyEnv s.ci w ((s.cfg.chans.get s.ci).value w) s.env
        trace := s.trace ++ [.cfg s.ci w ((s.cfg.chans.get s.ci).value w) r] }
        (diagChannelConfig s.ci w)) := by
  have h : execPOpen s = .next t := h
  unfold execPOpen at h
  have hcfg : ∀ w (f : State → State), f = afterCfg w → s.sub = cfgSub w →
      guarded (cfgStop s.ci w s) ((cfgEff s.ci w s).update f) = .next t →
      (∃ w, s.sub = cfgSub w ∧ cfgReady (s.ch.get s.ci) w = true ∧ t = afterCfg w { s with
        env := verifyEnv s.ci w ((s.cfg.chans.get s.ci).value w) s.env
        trace := s.trace ++ [.cfg s.ci w ((s.cfg.chans.get s.ci).value w) .verified]
        ch := s.ch.set s.ci ((s.ch.get s.ci).store ((s.cfg.chans.get s.ci).value w)) }) ∨
      (∃ w r, s.sub = cfgSub w ∧ cfgReady (s.ch.get s.ci) w = true ∧ r ≠ CfgRes.verified ∧
        t = afterFatal { s with
          env := verifyEnv s.ci w ((s.cfg.chans.get s.ci).value w) s.env
          trace := s.trace ++ [.cfg s.ci w ((s.cfg.chans.get s.ci).value w) r] }
          (diagChannelConfig s.ci w)) := by
    intro w f hf hs h
    obtain ⟨hst, h⟩ := guarded_next_iff.mp h
    have hr : cfgReady (s.ch.get s.ci) w = true := by
      unfold cfgStop at hst
      by_contra hc
      simp [hc] at hst
    rcases cfgEff_cases s.ci w s with ⟨hv, e⟩ | ⟨hv, e⟩
    · rw [e, update_go, hf] at h
      exact .inl ⟨w, hs, hr, h.symm⟩
    · rw [e, update_stop] at h
      exact .inr ⟨w, _, hs, hr, hv, h.symm⟩
  obtain ⟨u, hs⟩ : ∃ u, s.sub = u := ⟨_, rfl⟩
  rw [hs] at h
  cases u <;> dsimp only at h
  · obtain ⟨hst, h⟩ := guarded_next_iff.mp h
    obtain ⟨ho, hi⟩ : (s.ch.get s.ci).isOpen = false ∧ (s.ch.get s.ci).iwd = none := by
      unfold openStop at hst
      cases h1 : (s.ch.get s.ci).isOpen <;> cases h2 : (s.ch.get s.ci).iwd <;> simp_all
    rcases openEff_cases s.ci s with ⟨-, e⟩ | ⟨-, e⟩
    · rw [e, update_go] at h
      exact .inl ⟨hs, ho, hi, h.symm⟩
    · rw [e, update_stop] at h
      exact .inr (.inl ⟨hs, ho, hi, h.symm⟩)
  · exact .inr (.inr (hcfg .mode _ (by funext; rfl) hs h))
  · exact .inr (.inr (hcfg .bits _ (by funext; rfl) hs h))
  · exact .inr (.inr (hcfg .hz _ (by funext; rfl) hs h))
  · cases h

/-- A replay phase: its exit, the XFER sub-step on an entry that exists (waiting, or answered), or the
gap. -/
theorem execProg_cases {s t : State} (c : Chan) (h : exec (progPhaseOf c).instr s = .next t) :
    (s.sub = .s0 ∧ s.idx = s.imageLength c ∧ t = { s with phase := settlePhaseOf c, sub := .s0 }) ∨
    (s.sub = .s1 ∧ t = { s with
        trace := s.trace ++ [.delay (.txn c) (s.cfg.tTxn.get c)]
        idx := s.idx + 1
        sub := .s0 }) ∨
    (s.sub = .s0 ∧ s.idx < s.imageLength c ∧ s.configured c = true ∧
      ∃ (f : Frame) (a : BitVec 13) (d : Byte) (w : Word24), entryFrame s.cfg c s.idx = some f ∧
      ((s.env.xferAns c f = none ∧ t = { s with
        opA := a, opD := d, opW := w, txf := f
        env := s.env.afterXfer c f
        hung := some ⟨c, f⟩ }) ∨
      ∃ (r : XferRes) (x : Frame), s.env.xferAns c f = some r ∧ t = { s with
        opA := a, opD := d, opW := w, txf := f, rxf := x
        env := envAnswered c f r s.env
        trace := s.trace ++ (.xfer c f r :: reportOf c s.idx r)
        lastErr := if failed r then some (diagTransaction c s.idx) else s.lastErr
        txnErrCount := s.txnErrCount + if failed r then 1 else 0
        sub := .s1 })) := by
  have h : progPhase (progPhaseOf c) c (settlePhaseOf c) s = .next t := by
    rw [← h]
    cases c <;> rfl
  unfold progPhase at h
  obtain ⟨u, hs⟩ : ∃ u, s.sub = u := ⟨_, rfl⟩
  rw [hs] at h
  cases u <;> dsimp only at h
  · split at h
    · cases h
      exact .inl ⟨hs, by assumption, rfl⟩
    · obtain ⟨hst, h⟩ := guarded_next_iff.mp h
      have hlt : s.idx < s.imageLength c := by
        unfold xferSubStop at hst
        by_contra hc
        simp [hc] at hst
      have hc : s.configured c = true := by
        unfold xferSubStop xferStop at hst
        by_contra hc
        simp [hlt, hc] at hst
      obtain ⟨f, hf⟩ : ∃ f, entryFrame s.cfg c s.idx = some f := by
        rw [entryFrame_eq]
        exact ⟨_, List.getElem?_eq_getElem (by rw [imageFrames_length]; exact hlt)⟩
      refine .inr (.inr ⟨hs, hlt, hc, ?_⟩)
      obtain ⟨a, d, w, -, -, ⟨hn, e⟩ | ⟨r, x, hr, -, e⟩⟩ := xferSubEff_cases hf
      · rw [e] at h
        exact ⟨f, a, d, w, hf, .inl ⟨hn, h.symm⟩⟩
      · rw [e] at h
        exact ⟨f, a, d, w, hf, .inr ⟨r, x, hr, h.symm⟩⟩
  · cases h
    exact .inr (.inl ⟨hs, rfl⟩)
  · cases h
  · cases h
  · cases h

/-- `P_CLOSE` and the settles, written out. -/
theorem execPClose_eq (s : State) : exec .pClose s = .next { s with
    ch := releasedAll s.ch
    trace := s.trace ++ closeEvents s.ch ++ [.exit 0]
    exitStatus := some 0
    phase := .pDone } := by
  have : exec .pClose s = .next (s.closeAll.finish 0 .pDone) := rfl
  rw [this, closeAll_eq]
  rfl

end Sys2Proof.Laws
end

