-- ==== Sys2Proof/Laws/Effects.lean ====
section
/-!
SUPPORT. What any instruction can do to the channels, the lines, the devices and the trace: a chain of
five kinds of effect, each with the condition under which it happens. An invariant over these is
shown for the five kinds once.
-/

namespace Sys2Proof.Laws

open Sys2Proof.Machine Sys2Proof.Safety

/-- An event that is no transfer, no opened handle, no verified step and no release. -/
def isPlain : Event → Bool
  | .xfer _ _ _ => false
  | .chanOpen _ .ok => false
  | .cfg _ _ _ .verified => false
  | .close _ => false
  | _ => true

/-- No line is lost, and each is kept as `LineKept` says. -/
def LinesKept (xs ys : List Line) : Prop :=
  ys.length = xs.length ∧ ∀ (k : Nat) (l : Line), xs[k]? = some l → ∃ l', ys[k]? = some l' ∧ LineKept l l'

/-- The register spaces, and the kind of the environment, are the same. -/
def SameDevices (d e : Env) : Prop :=
  e.kind = d.kind ∧ e.devCnd = d.devCnd ∧ e.devSyn1 = d.devSyn1 ∧ e.devSyn2 = d.devSyn2

/-- One effect. -/
inductive Effect (s t : State) : Prop where
  | plain (evs : List Event) (he : ∀ e ∈ evs, isPlain e = true) (ht : t.trace = s.trace ++ evs)
      (hch : t.ch = s.ch) (hcfg : t.cfg = s.cfg) (hl : LinesKept s.lines t.lines)
      (hd : SameDevices s.env t.env)
  | opened (c : Chan) (ho : (s.ch.get c).isOpen = false) (hi : (s.ch.get c).iwd = none)
      (ht : t.trace = s.trace ++ [.chanOpen c .ok])
      (hch : t.ch = s.ch.set c { s.ch.get c with isOpen := true, iwd := some (s.cfg.chans.get c).iwd })
      (hcfg : t.cfg = s.cfg) (hl : t.lines = s.lines) (hd : SameDevices s.env t.env)
  | stored (c : Chan) (w : CfgWhich) (hr : cfgReady (s.ch.get c) w = true)
      (ht : t.trace = s.trace ++ [.cfg c w ((s.cfg.chans.get c).value w) .verified])
      (hch : t.ch = s.ch.set c ((s.ch.get c).store ((s.cfg.chans.get c).value w)))
      (hcfg : t.cfg = s.cfg) (hl : t.lines = s.lines) (hd : SameDevices s.env t.env)
  | sent (c : Chan) (f : Frame) (r : XferRes) (hc : s.configured c = true)
      (ht : t.trace = s.trace ++ [.xfer c f r]) (hch : t.ch = s.ch) (hcfg : t.cfg = s.cfg)
      (hl : t.lines = s.lines) (hd : SameDevices (s.env.afterXfer c f) t.env)
  | released (c : Chan) (ho : (s.ch.get c).isOpen = true) (ht : t.trace = s.trace ++ [.close c])
      (hch : t.ch = s.ch.set c (released (s.ch.get c))) (hcfg : t.cfg = s.cfg) (hl : t.lines = s.lines)
      (hd : SameDevices s.env t.env)

/-- A chain of effects. -/
abbrev Effects : State → State → Prop := Relation.ReflTransGen Effect

theorem SameDevices.refl (e : Env) : SameDevices e e := ⟨rfl, rfl, rfl, rfl⟩

theorem LinesKept.refl (xs : List Line) : LinesKept xs xs :=
  ⟨rfl, fun _ l h => ⟨l, h, rfl, id, id⟩⟩

/-- Changing one line that exists, keeping it as `LineKept` says. -/
theorem LinesKept.set {xs : List Line} {k : Nat} {l l' : Line} (h : xs[k]? = some l)
    (hk : LineKept l l') : LinesKept xs (xs.set k l') := by
  refine ⟨by simp, fun j m hm => ?_⟩
  rw [List.getElem?_set]
  by_cases hj : k = j
  · subst hj
    rw [h] at hm
    cases hm
    exact ⟨l', by simp [lt_of_getElem? h], hk⟩
  · exact ⟨m, by simp [hj, hm], rfl, id, id⟩

/-! ### The shared operations as chains -/

/-- An effect with no event, on registers only. -/
theorem effect_quiet {s t : State} (ht : t.trace = s.trace) (hch : t.ch = s.ch) (hcfg : t.cfg = s.cfg)
    (hl : t.lines = s.lines) (hd : SameDevices s.env t.env) : Effects s t :=
  .single (.plain [] (by simp) (by simpa using ht) hch hcfg (hl ▸ LinesKept.refl _) hd)

/-- An effect of one plain event, on registers only. -/
theorem effect_event {s t : State} (ev : Event) (he : isPlain ev = true)
    (ht : t.trace = s.trace ++ [ev]) (hch : t.ch = s.ch) (hcfg : t.cfg = s.cfg)
    (hl : t.lines = s.lines) (hd : SameDevices s.env t.env) : Effects s t :=
  .single (.plain [ev] (by simpa using he) ht hch hcfg (hl ▸ LinesKept.refl _) hd)

theorem closeIfOpen_effects (s : State) (c : Chan) : Effects s (s.closeIfOpen c) := by
  unfold State.closeIfOpen
  split
  · rename_i h
    exact .single (.released c h rfl rfl rfl rfl (.refl _))
  · exact .refl

theorem closeAll_effects (s : State) : Effects s s.closeAll :=
  ((closeIfOpen_effects s .cnd).trans (closeIfOpen_effects _ .syn1)).trans (closeIfOpen_effects _ .syn2)

theorem finish_effects (s : State) (n : Nat) (p : Phase) : Effects s (s.finish n p) :=
  effect_event (.exit n) rfl rfl rfl rfl rfl (.refl _)

theorem record_effects (s : State) (d : Diag) : Effects s (s.record d) :=
  effect_event (.diag d) rfl rfl rfl rfl rfl (.refl _)

theorem raise_effects (s : State) (d : Diag) : Effects s (s.raise d) :=
  ((record_effects s d).trans (closeAll_effects _)).trans (finish_effects _ _ _)

theorem fatal_effects (s : State) (d : Diag) : Effects s (afterFatal s d) :=
  raise_eq s d ▸ raise_effects s d

theorem delay_effects (s : State) (name : DelayName) (t : Nat) : Effects s (s.delay name t) :=
  effect_event (.delay name t) rfl rfl rfl rfl rfl (.refl _)

theorem openEff_effects {c : Chan} {s : State} (h : openStop c s = none) :
    Effects s (openEff c s).st := by
  obtain ⟨ho, hi⟩ : (s.ch.get c).isOpen = false ∧ (s.ch.get c).iwd = none := by
    unfold openStop at h
    cases h1 : (s.ch.get c).isOpen <;> cases h2 : (s.ch.get c).iwd <;> simp_all
  rcases openEff_cases c s with ⟨-, e⟩ | ⟨-, e⟩ <;> rw [e]
  · exact .single (.opened c ho hi rfl rfl rfl rfl (.refl _))
  · exact (effect_event (t := { s with
      env := s.env.afterChanOpen
      trace := s.trace ++ [.chanOpen c .fail] }) _ rfl rfl rfl rfl rfl (.refl _)).trans (fatal_effects _ _)

theorem verifyEnv_same (c : Chan) (w : CfgWhich) (v : CfgVal) (e : Env) :
    SameDevices e (verifyEnv c w v e) := by
  unfold verifyEnv
  split <;> exact .refl _

theorem cfgEff_effects {c : Chan} {w : CfgWhich} {s : State} (h : cfgStop c w s = none) :
    Effects s (cfgEff c w s).st := by
  have hr : cfgReady (s.ch.get c) w = true := by
    unfold cfgStop at h
    by_contra hc
    simp [hc] at h
  rcases cfgEff_cases c w s with ⟨-, e⟩ | ⟨hv, e⟩ <;> rw [e]
  · exact .single (.stored c w hr rfl rfl rfl rfl (verifyEnv_same ..))
  · refine (effect_event (t := { s with
      env := verifyEnv c w ((s.cfg.chans.get c).value w) s.env
      trace := s.trace ++ [.cfg c w ((s.cfg.chans.get c).value w)
        (verifyRes c w ((s.cfg.chans.get c).value w) s.env)] }) _ ?_ rfl rfl rfl rfl
      (verifyEnv_same ..)).trans (fatal_effects _ _)
    cases hx : verifyRes c w ((s.cfg.chans.get c).value w) s.env <;> simp_all [isPlain]

theorem afterXfer_oracle {e : Env} (h : e.kind = .oracle) (c : Chan) (f : Frame) :
    SameDevices e (e.afterXfer c f) := by
  unfold Env.afterXfer
  rw [h]
  exact ⟨by simp [h], rfl, rfl, rfl⟩

/-- Only the oracle leaves a transfer unanswered. -/
theorem oracle_of_xferAns_none {e : Env} {c : Chan} {f : Frame} (h : e.xferAns c f = none) :
    e.kind = .oracle := by
  unfold Env.xferAns answerOf at h
  cases hk : e.kind with
  | ideal =>
    rw [hk] at h
    cases h
  | oracle => rfl

/-- A transfer on a configured channel, for a caller that only records and counts. -/
theorem xferEff_effects {c : Chan} {f : Frame} {s : State} {caller : XferRes → State → State}
    (hc : s.configured c = true) (hcall : ∀ r t, Effects t (caller r t)) :
    Effects s (xferEff c f s caller).st := by
  rcases xferEff_cases c f s caller with ⟨ha, e⟩ | ⟨r, -, e⟩ <;> rw [e]
  · exact effect_quiet rfl rfl rfl rfl (afterXfer_oracle (oracle_of_xferAns_none ha) c f)
  · have hs : Effects s { s with env := s.env.afterXfer c f, trace := s.trace ++ [.xfer c f r] } :=
      .single (.sent c f r hc rfl rfl rfl rfl (.refl _))
    refine .trans (hs.trans ?_) (hcall _ _)
    rcases rxAfter_cases r { s with env := s.env.afterXfer c f, trace := s.trace ++ [.xfer c f r] }
      with ⟨x, -, e⟩ | ⟨-, e⟩ <;> rw [e] <;> exact effect_quiet rfl rfl rfl rfl (.refl _)

theorem modifyLine_effects {s : State} {f : Line → Line} (k : Nat) (hf : ∀ l, LineKept l (f l)) :
    Effects s (s.modifyLine k f) := by
  refine .single (.plain [] (by simp) (by simp [State.modifyLine]) rfl rfl ?_ (.refl _))
  unfold State.modifyLine
  cases hl : s.lines[k]? with
  | none => simp [List.modify_eq_set_getElem?, hl, LinesKept.refl]
  | some l =>
    simp only [List.modify_eq_set_getElem?, hl]
    exact LinesKept.set hl (hf l)

theorem exportEff_effects (k : Nat) (s : State) : Effects s (exportEff k s).st := by
  have hev : ∀ a, Effects s ((s.setEnv s.env.afterLineExport).emit (.lineExport k a)) := fun a =>
    effect_event _ rfl rfl rfl rfl rfl (.refl _)
  unfold exportEff
  cases s.env.lineExportAns (s.lineId k)
  · exact (hev _).trans (modifyLine_effects k fun l => ⟨rfl, fun _ => rfl, id⟩)
  · exact (hev _).trans (raise_effects _ _)

theorem dirEff_effects (k : Nat) (s : State) : Effects s (dirEff k s).st := by
  have hev : ∀ a, Effects s ((s.setEnv s.env.afterLineSetDir).emit (.lineDir k a)) := fun a =>
    effect_event _ rfl rfl rfl rfl rfl (.refl _)
  unfold dirEff
  cases s.env.lineSetDirAns (s.lineId k)
  · exact (hev _).trans (modifyLine_effects k fun l => ⟨rfl, id, fun _ => rfl⟩)
  · exact (hev _).trans (raise_effects _ _)

theorem levelLine_effects (k : Nat) (v : Bool) (s : State) : Effects s (s.levelLine k v) :=
  (effect_event (t := s.emit (.lineLevel k v)) _ rfl rfl rfl rfl rfl (.refl _)).trans
    (modifyLine_effects k fun _ => ⟨rfl, id, id⟩)

theorem applyPolicy_effects (k : Nat) (s : State) : Effects s (s.applyPolicy k) := by
  unfold State.applyPolicy
  split
  · exact .refl
  · split
    · exact ((levelLine_effects k true s).trans (delay_effects _ _ _)).trans (levelLine_effects k false _)
    · exact levelLine_effects k _ s

/-- Chains compose through `andThen` and `update`. -/
theorem andThen_effects {s : State} {e : Eff} {f : State → Eff} (he : Effects s e.st)
    (hf : ∀ t, Effects t (f t).st) : Effects s (e.andThen f).st := by
  unfold Eff.andThen
  split
  · exact he.trans (hf _)
  · exact he

theorem update_effects {s : State} {e : Eff} {f : State → State} (he : Effects s e.st)
    (hf : ∀ t, Effects t (f t)) : Effects s (e.update f) := by
  unfold Eff.update
  split
  · exact he.trans (hf _)
  · exact he

theorem initLineEff_effects (k : Nat) (s : State) : Effects s (initLineEff k s).st :=
  andThen_effects (andThen_effects (exportEff_effects k s) (dirEff_effects k)) (applyPolicy_effects k)

theorem initLinesFrom_effects (n : Nat) : ∀ k s, Effects s (initLinesFrom n k s).st := by
  induction n with
  | zero => exact fun _ _ => .refl
  | succ n ih => exact fun k s => andThen_effects (initLineEff_effects k s) (ih (k + 1))

theorem afterEntry_effects (c : Chan) (r : XferRes) (s : State) : Effects s (afterEntry c r s) := by
  have hrep : ∀ t : State, t = { s.report (diagTransaction c s.idx) with sub := .s1 } → Effects s t := by
    rintro t rfl
    exact effect_event (.diag (diagTransaction c s.idx)) rfl rfl rfl rfl rfl (.refl _)
  cases r
  · exact effect_quiet rfl rfl rfl rfl (.refl _)
  · exact hrep _ rfl
  · exact hrep _ rfl

/-- The XFER sub-step leaves the channels as they are. -/
theorem xferSubEff_effects {c : Chan} {s : State} (hc : s.configured c = true) :
    Effects s (xferSubEff c s).st := by
  unfold xferSubEff
  cases hl : s.loadEntry c with
  | none => exact .refl
  | some u =>
    have hu : u.ch = s.ch ∧ u.cfg = s.cfg ∧ u.trace = s.trace ∧ u.lines = s.lines ∧ u.env = s.env := by
      unfold State.loadEntry at hl
      cases c <;> dsimp only at hl <;> split at hl <;> cases hl <;> exact ⟨rfl, rfl, rfl, rfl, rfl⟩
    obtain ⟨h1, h2, h3, h4, h5⟩ := hu
    refine (effect_quiet h3 h1 h2 h4 (h5 ▸ .refl _)).trans (xferEff_effects ?_ (afterEntry_effects c))
    unfold State.configured at hc ⊢
    rw [h1, h2]
    exact hc

theorem gap_effects (c : Chan) (s : State) : Effects s (s.gap c) :=
  (delay_effects s _ _).trans (effect_quiet rfl rfl rfl rfl (.refl _))

/-- A replay leaves the channel configured. -/
theorem replayEff_effects (c : Chan) (n : Nat) : ∀ s : State, s.configured c = true →
    Effects s (replayEff c n s).st := by
  induction n with
  | zero => exact fun _ _ => .refl
  | succ n ih =>
    intro s hc
    have he : Effects s (entryEff c s).st := andThen_effects (xferSubEff_effects hc) (gap_effects c)
    have hk : (entryEff c s).st.configured c = s.configured c := by
      unfold entryEff xferSubEff
      cases hl : s.loadEntry c with
      | none => rfl
      | some u =>
        have hu : u.ch = s.ch ∧ u.cfg = s.cfg := by
          unfold State.loadEntry at hl
          cases c <;> dsimp only at hl <;> split at hl <;> cases hl <;> exact ⟨rfl, rfl⟩
        dsimp only
        rcases xferEff_cases c u.txf u (afterEntry c) with ⟨-, e⟩ | ⟨r, -, e⟩ <;> rw [e]
        · simp [State.configured, hu]
        · cases r <;> simp [afterEntry, rxAfter, State.gap, State.delay, State.emit, State.report,
            State.record, State.configured, hu]
    unfold replayEff Eff.andThen
    split
    · exact he.trans (ih _ (hk.trans hc))
    · exact he

/-! ### Every instruction -/

theorem guarded_effects {stop : Option Stop} {s t u : State} (h : guarded stop t = .next u)
    (he : stop = none → Effects s t) : Effects s u := by
  obtain ⟨h1, rfl⟩ := guarded_next_iff.mp h
  exact he h1

theorem configured_of_xferStop {c : Chan} {s : State} (h : xferStop c s = none) :
    s.configured c = true := by
  unfold xferStop at h
  by_contra hc
  simp [hc] at h

theorem sendFrame_effects {c : Chan} {f : Frame} {caller : XferRes → State → State} {s t : State}
    (hcall : ∀ r t, Effects t (caller r t)) (h : sendFrame c f caller s = .next t) : Effects s t :=
  guarded_effects h fun hs =>
    (effect_quiet (s := s) (t := { s with txf := f }) rfl rfl rfl rfl (.refl _)).trans
      (xferEff_effects (f := f) (s := { s with txf := f }) (configured_of_xferStop hs) hcall)

theorem returnXfer_effects (r : XferRes) (s : State) : Effects s (returnXfer r s) :=
  effect_quiet rfl rfl rfl rfl (.refl _)

theorem returnRead_effects (r : XferRes) (s : State) : Effects s (returnRead r s) := by
  cases r <;> exact effect_quiet rfl rfl rfl rfl (.refl _)

theorem nextLine_effects (s : State) : Effects s s.nextLine := by
  unfold State.nextLine
  split <;> exact effect_quiet rfl rfl rfl rfl (.refl _)

theorem nextChannel_effects (s : State) : Effects s s.nextChannel := by
  unfold State.nextChannel
  split <;> exact effect_quiet rfl rfl rfl rfl (.refl _)

theorem execPLines_effects {s t : State} (h : execPLines s = .next t) : Effects s t := by
  unfold execPLines at h
  split at h
  · cases h
  · exact guarded_effects h fun _ => update_effects (exportEff_effects _ _) fun _ =>
      effect_quiet rfl rfl rfl rfl (.refl _)
  · exact guarded_effects h fun _ => update_effects (dirEff_effects _ _) fun _ =>
      effect_quiet rfl rfl rfl rfl (.refl _)
  · rename_i l _ _
    refine guarded_effects h fun _ => (levelLine_effects s.li (firstLevel l.cfg.policy) s).trans ?_
    unfold State.afterLevelA
    split
    · exact effect_quiet rfl rfl rfl rfl (.refl _)
    · exact nextLine_effects _
  · cases h
    exact (delay_effects _ _ _).trans (effect_quiet rfl rfl rfl rfl (.refl _))
  · exact guarded_effects h fun _ => (levelLine_effects s.li false s).trans (nextLine_effects _)

theorem execPOpen_effects {s t : State} (h : execPOpen s = .next t) : Effects s t := by
  unfold execPOpen at h
  split at h
  · exact guarded_effects h fun hs => update_effects (openEff_effects hs) fun _ =>
      effect_quiet rfl rfl rfl rfl (.refl _)
  · exact guarded_effects h fun hs => update_effects (cfgEff_effects hs) fun _ =>
      effect_quiet rfl rfl rfl rfl (.refl _)
  · exact guarded_effects h fun hs => update_effects (cfgEff_effects hs) fun _ =>
      effect_quiet rfl rfl rfl rfl (.refl _)
  · exact guarded_effects h fun hs => update_effects (cfgEff_effects hs) nextChannel_effects
  · cases h

theorem progPhase_effects {p q : Phase} {c : Chan} {s t : State} (h : progPhase p c q s = .next t) :
    Effects s t := by
  unfold progPhase at h
  split at h
  · split at h
    · cases h
      exact effect_quiet rfl rfl rfl rfl (.refl _)
    · refine guarded_effects h fun hs => ?_
      unfold xferSubStop at hs
      split at hs
      · exact xferSubEff_effects (configured_of_xferStop hs)
      · cases hs
  · cases h
    exact gap_effects c s
  · cases h
  · cases h
  · cases h

/-- Every instruction's next state is reached by a chain of effects. -/
theorem exec_effects {i : Instr} {s t : State} (h : exec i s = .next t) : Effects s t := by
  have ret : ∀ r, exec i s = .next { s with ret := r } → Effects s t := by
    intro r hr
    rw [h] at hr
    cases hr
    exact effect_quiet rfl rfl rfl rfl (.refl _)
  cases i with
  | cndEncWr a d => exact ret _ rfl
  | cndEncRd a => exact ret _ rfl
  | cndParse f => exact ret _ rfl
  | cndRdValue f => exact ret _ rfl
  | synSplit w => exact ret _ rfl
  | synJoin f => exact ret _ rfl
  | synFields w => exact ret _ rfl
  | synPack a b c => exact ret _ rfl
  | cndWr a d => exact sendFrame_effects returnXfer_effects h
  | cndRd a => exact sendFrame_effects returnRead_effects h
  | synWr n a d => exact sendFrame_effects returnXfer_effects h
  | synRd n a d => exact sendFrame_effects returnXfer_effects h
  | tXfer c f =>
    exact guarded_effects h fun hs => xferEff_effects (configured_of_xferStop hs) returnXfer_effects
  | tOpen c => exact guarded_effects h openEff_effects
  | tCfgMode c => exact guarded_effects h cfgEff_effects
  | tCfgBits c => exact guarded_effects h cfgEff_effects
  | tCfgHz c => exact guarded_effects h cfgEff_effects
  | tClose c =>
    refine guarded_effects h fun hs => .single (.released c ?_ rfl rfl rfl rfl (.refl _))
    unfold closeStop at hs
    by_contra hc
    simp [hc] at hs
  | lExport k => exact guarded_effects h fun _ => exportEff_effects k s
  | lDir k => exact guarded_effects h fun _ => dirEff_effects k s
  | lLevel k v => exact guarded_effects h fun _ => levelLine_effects k v s
  | sProgram c =>
    exact guarded_effects h fun hs =>
      (effect_quiet (s := s) (t := { s with idx := 0, sub := .s0 }) rfl rfl rfl rfl (.refl _)).trans
        (replayEff_effects c _ _ (configured_of_xferStop hs))
  | sInitLines =>
    cases h
    exact initLinesFrom_effects _ _ _
  | sDelay name d =>
    cases h
    exact delay_effects s name d
  | sReadback =>
    have h : execSReadback s = .next t := h
    unfold execSReadback at h
    split at h <;> cases h
  | pReset =>
    rcases execPReset_cases h with ⟨-, rfl⟩ | ⟨-, -, rfl⟩
    · exact .refl
    · exact effect_quiet rfl rfl rfl rfl (.refl _)
  | pLines => exact execPLines_effects h
  | pOpen => exact execPOpen_effects h
  | pProgCnd => exact progPhase_effects h
  | pProgSyn1 => exact progPhase_effects h
  | pProgSyn2 => exact progPhase_effects h
  | pLineSettle =>
    cases h
    exact (delay_effects _ _ _).trans (effect_quiet rfl rfl rfl rfl (.refl _))
  | pSettleCnd =>
    cases h
    exact (delay_effects _ _ _).trans (effect_quiet rfl rfl rfl rfl (.refl _))
  | pSettleSyn1 =>
    cases h
    exact (delay_effects _ _ _).trans (effect_quiet rfl rfl rfl rfl (.refl _))
  | pSettleSyn2 =>
    cases h
    exact (delay_effects _ _ _).trans (effect_quiet rfl rfl rfl rfl (.refl _))
  | pClose =>
    cases h
    exact (closeAll_effects s).trans (finish_effects _ _ _)
  | pDone =>
    cases h
    exact .refl
  | pFault =>
    cases h
    exact .refl

/-- Every step's next state is the reset input's, or reached by a chain of effects. -/
theorem step_effects {s t : State} (h : step s = .next t) : t = s.blockReset ∨ Effects s t := by
  rcases step_cases h with ⟨-, rfl⟩ | ⟨-, -, rfl⟩ | ⟨-, -, i, -, hi⟩
  · exact .inl rfl
  · exact .inr .refl
  · refine .inr (.trans ?_ (exec_effects hi))
    rw [taken_eq s]
    exact effect_quiet rfl rfl rfl rfl (.refl _)

/-- A property that each kind of effect keeps is kept by a chain of them. -/
theorem effects_keep {P : State → Prop} (hP : ∀ s t, P s → Effect s t → P t) {s t : State}
    (h : Effects s t) (hs : P s) : P t := by
  induction h with
  | refl => exact hs
  | tail _ he ih => exact hP _ _ ih he

end Sys2Proof.Laws
end

