-- ==== Sys2Proof/Laws/Memory.lean ====
section
/-!
SUPPORT. The device register spaces: a read after a write, and the canonical form.
-/

namespace Sys2Proof.Laws

open Sys2Proof.Machine

variable {w : Nat}

/-- Lowering the bound keeps the form. -/
theorem memWfFrom_mono {size low low' : Nat} {m : Mem w} (hl : low' ≤ low)
    (h : memWfFrom size low m = true) : memWfFrom size low' m = true := by
  cases m with
  | nil => rfl
  | cons p rest =>
    simp only [memWfFrom, Bool.and_eq_true, decide_eq_true_eq] at h ⊢
    exact ⟨⟨⟨le_trans hl h.1.1.1, h.1.1.2⟩, h.1.2⟩, h.2⟩

/-- A register below the bound is not listed. -/
theorem memRead_below {size low a : Nat} {m : Mem w} (ha : a < low)
    (h : memWfFrom size low m = true) : memRead m a = 0#w := by
  induction m generalizing low with
  | nil => rfl
  | cons p rest ih =>
    obtain ⟨b, x⟩ := p
    simp only [memWfFrom, Bool.and_eq_true, decide_eq_true_eq] at h
    have hne : a ≠ b := by omega
    simp only [memRead, if_neg hne]
    exact ih (low := b + 1) (by omega) h.2

theorem memWfFrom_memCons {size low a : Nat} {v : BitVec w} {m : Mem w} (hla : low ≤ a)
    (has : a < size) (h : memWfFrom size (a + 1) m = true) :
    memWfFrom size low (memCons a v m) = true := by
  unfold memCons
  split
  · exact memWfFrom_mono (by omega) h
  · rename_i hv
    simp [memWfFrom, hla, has, hv, h]

theorem memRead_memCons {size a : Nat} {v : BitVec w} {m : Mem w} (b : Nat)
    (h : memWfFrom size (a + 1) m = true) :
    memRead (memCons a v m) b = if b = a then v else memRead m b := by
  unfold memCons
  split
  · rename_i hv
    split
    · rename_i hb
      rw [hv, hb]
      exact memRead_below (Nat.lt_succ_self a) h
    · rfl
  · rfl

/-- A write keeps the canonical form. -/
theorem memWfFrom_memWrite {size low a : Nat} {v : BitVec w} {m : Mem w} (hla : low ≤ a)
    (has : a < size) (h : memWfFrom size low m = true) :
    memWfFrom size low (memWrite m a v) = true := by
  induction m generalizing low with
  | nil => exact memWfFrom_memCons hla has rfl
  | cons p rest ih =>
    obtain ⟨b, x⟩ := p
    have h' := h
    simp only [memWfFrom, Bool.and_eq_true, decide_eq_true_eq] at h'
    unfold memWrite
    split
    · rename_i hab
      refine memWfFrom_memCons hla has ?_
      simp only [memWfFrom, Bool.and_eq_true, decide_eq_true_eq]
      exact ⟨⟨⟨hab, h'.1.1.2⟩, h'.1.2⟩, h'.2⟩
    · split
      · rename_i hab
        subst hab
        exact memWfFrom_memCons hla has h'.2
      · simp only [memWfFrom, Bool.and_eq_true, decide_eq_true_eq]
        exact ⟨h'.1, ih (by omega) h'.2⟩

/-- A read after a write gives the value written at its register, and what was there elsewhere. -/
theorem memRead_memWrite {size low a : Nat} {v : BitVec w} {m : Mem w} (b : Nat) (hla : low ≤ a)
    (h : memWfFrom size low m = true) :
    memRead (memWrite m a v) b = if b = a then v else memRead m b := by
  induction m generalizing low with
  | nil => exact memRead_memCons (size := 0) b rfl
  | cons p rest ih =>
    obtain ⟨c, x⟩ := p
    have h' := h
    simp only [memWfFrom, Bool.and_eq_true, decide_eq_true_eq] at h'
    unfold memWrite
    split
    · rename_i hac
      refine memRead_memCons (size := size) b ?_
      simp only [memWfFrom, Bool.and_eq_true, decide_eq_true_eq]
      exact ⟨⟨⟨hac, h'.1.1.2⟩, h'.1.2⟩, h'.2⟩
    · split
      · rename_i hac
        subst hac
        rw [memRead_memCons (size := size) b h'.2]
        split
        · rfl
        · rename_i hb
          simp [memRead, hb]
      · simp only [memRead]
        rw [ih (by omega) h'.2]
        by_cases hbc : b = c
        · subst hbc
          have : b ≠ a := by omega
          simp [this]
        · simp [hbc]

theorem memWf_memWrite {size a : Nat} {v : BitVec w} {m : Mem w} (has : a < size)
    (h : memWf size m = true) : memWf size (memWrite m a v) = true :=
  memWfFrom_memWrite (Nat.zero_le a) has h

theorem memRead_memWrite_of_wf {size a : Nat} {v : BitVec w} {m : Mem w} (b : Nat)
    (h : memWf size m = true) :
    memRead (memWrite m a v) b = if b = a then v else memRead m b :=
  memRead_memWrite b (Nat.zero_le a) h

/-- The reset state's device spaces are canonical: nothing is listed. -/
theorem reset_devicesWf : State.reset.env.devicesWf = true := rfl

end Sys2Proof.Laws
end

