-- ==== Sys2Proof/Laws/PerInstr.lean ====
section
/-!
SUPPORT. Statements for all instructions, one lemma per constructor. Family `Encoded`: an encoded
instruction has the length its format gives it (rules R70, R83, R200).
-/

namespace Sys2Proof.Laws.Encoded

/-- One byte for a phase, three for a frame, one to eight for an operation word. -/
def Statement (i : Instr) : Prop :=
  match i.port with
  | .phase4 => (encode i).length = 1
  | .wire _ => (encode i).length = 3
  | .op8 => 1 ≤ (encode i).length ∧ (encode i).length ≤ maxOpBytes

/-- A length that evaluates to a numeral from one to eight. -/
theorem sized {n : Nat} (h : (Nat.ble 1 n && Nat.ble n maxOpBytes) = true) : 1 ≤ n ∧ n ≤ maxOpBytes :=
  ⟨Nat.le_of_ble_eq_true (Bool.and_eq_true_iff.mp h).1, Nat.le_of_ble_eq_true (Bool.and_eq_true_iff.mp h).2⟩

theorem cndWr (a : BitVec 13) (d : Byte) : Statement (.cndWr a d) := rfl

theorem cndRd (a : BitVec 13) : Statement (.cndRd a) := rfl

theorem synWr (n : SynChan) (addr : BitVec 7) (data : BitVec 16) : Statement (.synWr n addr data) := rfl

theorem synRd (n : SynChan) (addr : BitVec 7) (data : BitVec 16) : Statement (.synRd n addr data) := rfl

theorem cndEncWr (a d : BitVec 16) : Statement (.cndEncWr a d) := sized rfl

theorem cndEncRd (a : BitVec 16) : Statement (.cndEncRd a) := sized rfl

theorem cndParse (f : Frame) : Statement (.cndParse f) := sized rfl

theorem cndRdValue (r : Frame) : Statement (.cndRdValue r) := sized rfl

theorem synSplit (w : BitVec 32) : Statement (.synSplit w) := sized rfl

theorem synJoin (f : Frame) : Statement (.synJoin f) := sized rfl

theorem synFields (w : BitVec 32) : Statement (.synFields w) := sized rfl

theorem synPack (rw addr : Byte) (data : BitVec 16) : Statement (.synPack rw addr data) := sized rfl

theorem tOpen (c : Chan) : Statement (.tOpen c) := sized rfl

theorem tCfgMode (c : Chan) : Statement (.tCfgMode c) := sized rfl

theorem tCfgBits (c : Chan) : Statement (.tCfgBits c) := sized rfl

theorem tCfgHz (c : Chan) : Statement (.tCfgHz c) := sized rfl

theorem tXfer (c : Chan) (f : Frame) : Statement (.tXfer c f) := sized rfl

theorem tClose (c : Chan) : Statement (.tClose c) := sized rfl

theorem lExport (k : Nat) : Statement (.lExport k) := sized rfl

theorem lDir (k : Nat) : Statement (.lDir k) := sized rfl

theorem lLevel (k : Nat) (v : Bool) : Statement (.lLevel k v) := sized rfl

theorem sProgram (c : Chan) : Statement (.sProgram c) := sized rfl

theorem sInitLines : Statement .sInitLines := sized rfl

theorem sDelay (name : DelayName) (t : Nat) : Statement (.sDelay name t) := by
  cases name <;> exact sized rfl

theorem sReadback : Statement .sReadback := sized rfl

theorem pReset : Statement .pReset := rfl

theorem pLines : Statement .pLines := rfl

theorem pLineSettle : Statement .pLineSettle := rfl

theorem pOpen : Statement .pOpen := rfl

theorem pProgCnd : Statement .pProgCnd := rfl

theorem pSettleCnd : Statement .pSettleCnd := rfl

theorem pProgSyn1 : Statement .pProgSyn1 := rfl

theorem pSettleSyn1 : Statement .pSettleSyn1 := rfl

theorem pProgSyn2 : Statement .pProgSyn2 := rfl

theorem pSettleSyn2 : Statement .pSettleSyn2 := rfl

theorem pClose : Statement .pClose := rfl

theorem pDone : Statement .pDone := rfl

theorem pFault : Statement .pFault := rfl

end Sys2Proof.Laws.Encoded
end

