-- ==== Sys2Proof/Laws/Traces.lean ====
section
/-!
SUPPORT. Traces: how the order properties of Safety.lean grow with a trace, and how one step of a
bring-up run lets the trace grow, phase by phase.
-/

namespace Sys2Proof.Laws

open Sys2Proof.Machine Sys2Proof.Safety

/-! ### Order properties and appended events -/

theorem precedes_nil (p q : Event → Bool) : Precedes p q [] := by
  intro pre ev post he
  simp at he

/-- A longer trace keeps `Precedes`, where a `p` event stands already or no `q` event is new. -/
theorem precedes_append {p q : Event → Bool} {a b : List Event} (h : Precedes p q a)
    (hb : (∃ e ∈ a, p e = true) ∨ ∀ e ∈ b, q e = false) : Precedes p q (a ++ b) := by
  intro pre ev post he hq
  have old : ∀ c, pre = a ++ c → ev ∈ b → ∃ e ∈ pre, p e = true := by
    intro c h1 hm
    rcases hb with ⟨e, he, hp⟩ | hb
    · exact ⟨e, by rw [h1]; simp [he], hp⟩
    · rw [hb ev hm] at hq
      cases hq
  rcases List.append_eq_append_iff.mp he with ⟨c, h1, h2⟩ | ⟨c, h1, h2⟩
  · exact old c h1 (by rw [h2]; simp)
  · cases c with
    | nil => exact old [] (by simpa using h1.symm) (by rw [← List.nil_append b, ← h2]; simp)
    | cons x c =>
      simp only [List.cons_append, List.cons.injEq] at h2
      obtain ⟨rfl, rfl⟩ := h2
      exact h pre ev c h1 hq

theorem noneBefore_nil (p q : Event → Bool) : NoneBefore q p [] := by
  intro pre ev post he
  simp at he

/-- A longer trace keeps `NoneBefore`, where no `p` event is new or no `q` event stands anywhere. -/
theorem noneBefore_append {p q : Event → Bool} {a b : List Event} (h : NoneBefore q p a)
    (hb : (∀ e ∈ b, p e = false) ∨ ((∀ e ∈ a, q e = false) ∧ ∀ e ∈ b, q e = false)) :
    NoneBefore q p (a ++ b) := by
  intro pre ev post he hp
  rcases hb with hb | ⟨ha, hb⟩
  · have new : ev ∉ b := fun hm => by
      rw [hb ev hm] at hp
      cases hp
    rcases List.append_eq_append_iff.mp he with ⟨c, h1, h2⟩ | ⟨c, h1, h2⟩
    · exact absurd (by rw [h2]; simp) new
    · cases c with
      | nil => exact absurd (by rw [← List.nil_append b, ← h2]; simp) new
      | cons x c =>
        simp only [List.cons_append, List.cons.injEq] at h2
        obtain ⟨rfl, rfl⟩ := h2
        exact h pre ev c h1 hp
  · intro e hm
    have hin : e ∈ a ++ b := by
      rw [he]
      simp [hm]
    exact (List.mem_append.mp hin).elim (ha e) (hb e)

theorem busTraceAll_append (a b : List Event) :
    busTraceAll (a ++ b) = busTraceAll a ++ busTraceAll b := by
  simp [busTraceAll]

theorem busTraceAll_none {b : List Event} (h : ∀ e ∈ b, isXfer e = false) : busTraceAll b = [] := by
  simp only [busTraceAll, List.filter_eq_nil_iff]
  intro e he
  simp [h e he]

/-- An event that is no transfer is no transfer on a given channel. -/
theorem isXferOn_of_isXfer {e : Event} (h : isXfer e = false) (c : Chan) : isXferOn c e = false := by
  cases e <;> simp_all [isXfer, isXferOn]

/-! ### The bring-up's growth -/

/-- Neither a transfer nor the opening of a channel. -/
def quietEvent (e : Event) : Bool := !isXfer e && !isChanOpen e

/-- How one step of a bring-up run lets the trace grow, by phase. -/
inductive Grow (s t : State) : Prop where
  | same (ht : t.trace = s.trace)
      (hp : t.phase = s.phase ∨
        (s.phase = .pReset ∧ (t.phase = .pLineSettle ∨ t.phase = .pLines)) ∨
        ∃ c, s.phase = progPhaseOf c ∧ t.phase = settlePhaseOf c)
  | lines (evs : List Event) (hs : s.phase = .pLines) (hp : t.phase = .pLines ∨ t.phase = .pLineSettle)
      (ht : t.trace = s.trace ++ evs) (he : ∀ e ∈ evs, quietEvent e = true)
  | fatal (evs : List Event) (hs : s.phase = .pLines ∨ s.phase = .pOpen) (hp : t.phase = .pFault)
      (ht : t.trace = s.trace ++ evs) (he : ∀ e ∈ evs, isXfer e = false)
      (hl : s.phase = .pLines → ∀ e ∈ evs, isChanOpen e = false)
  | settle (n : DelayName) (d : Nat) (ht : t.trace = s.trace ++ [.delay n d])
      (hp : (s.phase = .pLineSettle ∧ n = .lineSettle ∧ t.phase = .pOpen) ∨
        (s.phase = .pSettleCnd ∧ t.phase = .pProgSyn1) ∨
        (s.phase = .pSettleSyn1 ∧ t.phase = .pProgSyn2) ∨
        (s.phase = .pSettleSyn2 ∧ t.phase = .pClose) ∨
        ∃ c, s.phase = progPhaseOf c ∧ t.phase = s.phase)
  | opening (ev : Event) (hs : s.phase = .pOpen) (hp : t.phase = .pOpen ∨ t.phase = .pProgCnd)
      (ht : t.trace = s.trace ++ [ev]) (he : isXfer ev = false)
  | sent (c : Chan) (f : Frame) (r : XferRes) (evs : List Event) (hs : s.phase = progPhaseOf c)
      (hp : t.phase = s.phase) (hf : f ∈ imageFrames s.cfg c)
      (ht : t.trace = s.trace ++ .xfer c f r :: evs) (he : ∀ e ∈ evs, quietEvent e = true)
  | closing (evs : List Event) (hs : s.phase = .pClose) (hp : t.phase = .pDone)
      (ht : t.trace = s.trace ++ evs) (he : ∀ e ∈ evs, quietEvent e = true)

theorem closeEvents_quiet (ch : Three Channel) : ∀ e ∈ closeEvents ch, quietEvent e = true := by
  intro e he
  simp only [closeEvents, List.mem_map] at he
  obtain ⟨c, -, rfl⟩ := he
  rfl

/-- The fatal entry after one event: the new events. -/
theorem fatal_growth (s : State) (d : Diag) (ev : Event) (tr : List Event) (h : s.trace = tr ++ [ev])
    (hx : isXfer ev = false) :
    ∃ evs, (afterFatal s d).trace = tr ++ evs ∧ (∀ e ∈ evs, isXfer e = false) ∧
      (isChanOpen ev = false → ∀ e ∈ evs, isChanOpen e = false) := by
  have hq : ∀ e ∈ ([.diag d] ++ closeEvents s.ch ++ [.exit s.cfg.exitFatal] : List Event),
      quietEvent e = true := by
    intro e he
    simp only [List.mem_append, List.mem_singleton] at he
    rcases he with (rfl | he) | rfl
    · rfl
    · exact closeEvents_quiet _ _ he
    · rfl
  refine ⟨ev :: ([.diag d] ++ closeEvents s.ch ++ [.exit s.cfg.exitFatal]), ?_, ?_, ?_⟩
  · simp [afterFatal, h]
  · intro e he
    rcases List.mem_cons.mp he with rfl | he
    · exact hx
    · have := hq e he
      simp only [quietEvent, Bool.and_eq_true, Bool.not_eq_true'] at this
      exact this.1
  · intro ho e he
    rcases List.mem_cons.mp he with rfl | he
    · exact ho
    · have := hq e he
      simp only [quietEvent, Bool.and_eq_true, Bool.not_eq_true'] at this
      exact this.2

theorem nextLine_growth (u : State) (h : u.phase = .pLines) :
    u.nextLine.trace = u.trace ∧ (u.nextLine.phase = .pLines ∨ u.nextLine.phase = .pLineSettle) ∧
      u.nextLine.cfg = u.cfg ∧ u.nextLine.ops = u.ops := by
  rcases nextLine_cases u with ⟨_, e⟩ | ⟨_, e⟩ <;> rw [e] <;> simp [h]

theorem execProg_growth {s t : State} (c : Chan) (hp : s.phase = progPhaseOf c)
    (h : exec (progPhaseOf c).instr s = .next t) : t.cfg = s.cfg ∧ t.ops = s.ops ∧ Grow s t := by
  rcases execProg_cases c h with ⟨-, -, rfl⟩ | ⟨-, rfl⟩ | ⟨-, -, -, f, a, d, w, hf, ⟨-, rfl⟩ | ⟨r, x, -, rfl⟩⟩
  · exact ⟨rfl, rfl, .same rfl (.inr (.inr ⟨c, hp, rfl⟩))⟩
  · exact ⟨rfl, rfl, .settle _ _ rfl (.inr (.inr (.inr (.inr ⟨c, hp, rfl⟩))))⟩
  · exact ⟨rfl, rfl, .same rfl (.inl rfl)⟩
  · refine ⟨rfl, rfl, .sent c f r _ hp rfl ?_ rfl ?_⟩
    · rw [entryFrame_eq] at hf
      exact List.mem_of_getElem? hf
    · unfold reportOf
      intro e he
      split at he <;> simp at he
      subst he
      rfl

theorem execPLines_growth {s t : State} (hp : s.phase = .pLines) (h : exec .pLines s = .next t) :
    t.cfg = s.cfg ∧ t.ops = s.ops ∧ Grow s t := by
  obtain ⟨l, hl, hc⟩ := execPLines_cases h
  have fatal : ∀ (u : State) (w : DiagWhich) (ev : Event), u.trace = s.trace ++ [ev] →
      isXfer ev = false → isChanOpen ev = false → Grow s (afterFatal u (diagLineSetup w s.li)) := by
    intro u w ev hu h1 h2
    obtain ⟨evs, h3, h4, h5⟩ := fatal_growth u (diagLineSetup w s.li) ev s.trace hu h1
    exact .fatal evs (.inl hp) rfl h3 h4 fun _ => h5 h2
  rcases hc with ⟨-, -, rfl⟩ | ⟨-, -, rfl⟩ | ⟨-, -, -, rfl⟩ | ⟨-, -, -, rfl⟩ | ⟨-, -, -, rfl⟩ |
    ⟨v, -, -, -, rfl⟩ | ⟨-, rfl⟩ | ⟨-, -, rfl⟩
  · exact ⟨rfl, rfl, .lines _ hp (.inl hp) rfl (by simp [quietEvent, isXfer, isChanOpen])⟩
  · exact ⟨rfl, rfl, fatal _ _ _ rfl rfl rfl⟩
  · exact ⟨rfl, rfl, .lines _ hp (.inl hp) rfl (by simp [quietEvent, isXfer, isChanOpen])⟩
  · exact ⟨rfl, rfl, fatal _ _ _ rfl rfl rfl⟩
  · exact ⟨rfl, rfl, .lines _ hp (.inl hp) rfl (by simp [quietEvent, isXfer, isChanOpen])⟩
  · obtain ⟨n1, n2, n3, n4⟩ := nextLine_growth { s with
      trace := s.trace ++ [.lineLevel s.li v]
      lines := s.lines.set s.li { l with level := some v } } hp
    exact ⟨n3, n4, .lines _ hp n2 n1 (by simp [quietEvent, isXfer, isChanOpen])⟩
  · exact ⟨rfl, rfl, .lines _ hp (.inl hp) rfl (by simp [quietEvent, isXfer, isChanOpen])⟩
  · obtain ⟨n1, n2, n3, n4⟩ := nextLine_growth { s with
      trace := s.trace ++ [.lineLevel s.li false]
      lines := s.lines.set s.li { l with level := some false } } hp
    exact ⟨n3, n4, .lines _ hp n2 n1 (by simp [quietEvent, isXfer, isChanOpen])⟩

theorem execPOpen_growth {s t : State} (hp : s.phase = .pOpen) (h : exec .pOpen s = .next t) :
    t.cfg = s.cfg ∧ t.ops = s.ops ∧ Grow s t := by
  have fatal : ∀ (u : State) (d : Diag) (ev : Event), u.trace = s.trace ++ [ev] →
      isXfer ev = false → Grow s (afterFatal u d) := by
    intro u d ev hu h1
    obtain ⟨evs, h3, h4, -⟩ := fatal_growth u d ev s.trace hu h1
    exact .fatal evs (.inr hp) rfl h3 h4 fun h => by
      rw [hp] at h
      cases h
  rcases execPOpen_cases h with ⟨-, -, -, rfl⟩ | ⟨-, -, -, rfl⟩ | ⟨w, -, -, rfl⟩ | ⟨w, r, -, -, -, rfl⟩
  · exact ⟨rfl, rfl, .opening _ hp (.inl hp) rfl rfl⟩
  · exact ⟨rfl, rfl, fatal _ _ _ rfl rfl⟩
  · cases w
    · exact ⟨rfl, rfl, .opening _ hp (.inl hp) rfl rfl⟩
    · exact ⟨rfl, rfl, .opening _ hp (.inl hp) rfl rfl⟩
    · simp only [afterCfg, State.nextChannel]
      cases s.ci
      · exact ⟨rfl, rfl, .opening _ hp (.inl hp) rfl rfl⟩
      · exact ⟨rfl, rfl, .opening _ hp (.inl hp) rfl rfl⟩
      · exact ⟨rfl, rfl, .opening _ hp (.inr rfl) rfl rfl⟩
  · exact ⟨rfl, rfl, fatal _ _ _ rfl rfl⟩

/-- Every step of a bring-up run: the reset input, or growth of the trace as the phase allows. -/
theorem step_growth {s t : State} (ho : s.ops = []) (h : step s = .next t) :
    t.cfg = s.cfg ∧ t.ops = s.ops ∧ (t = s.blockReset ∨ Grow s t) := by
  rcases step_cases_run ho h with ⟨-, rfl⟩ | ⟨-, -, rfl⟩ | ⟨-, -, h⟩
  · exact ⟨rfl, rfl, .inl rfl⟩
  · exact ⟨rfl, rfl, .inr (.same rfl (.inl rfl))⟩
  · suffices hg : t.cfg = s.cfg ∧ t.ops = s.ops ∧ Grow s t from ⟨hg.1, hg.2.1, .inr hg.2.2⟩
    cases hp : s.phase <;> rw [hp] at h
    · rcases execPReset_cases h with ⟨-, rfl⟩ | ⟨-, -, rfl⟩
      · exact ⟨rfl, rfl, .same rfl (.inl rfl)⟩
      · refine ⟨rfl, rfl, .same rfl (.inr (.inl ⟨hp, ?_⟩))⟩
        dsimp only
        split <;> simp
    · exact execPLines_growth hp h
    · cases h
      exact ⟨rfl, rfl, .settle _ _ rfl (.inl ⟨hp, rfl, rfl⟩)⟩
    · exact execPOpen_growth hp h
    · exact execProg_growth .cnd hp h
    · cases h
      exact ⟨rfl, rfl, .settle _ _ rfl (.inr (.inl ⟨hp, rfl⟩))⟩
    · exact execProg_growth .syn1 hp h
    · cases h
      exact ⟨rfl, rfl, .settle _ _ rfl (.inr (.inr (.inl ⟨hp, rfl⟩)))⟩
    · exact execProg_growth .syn2 hp h
    · cases h
      exact ⟨rfl, rfl, .settle _ _ rfl (.inr (.inr (.inr (.inl ⟨hp, rfl⟩))))⟩
    · have h : exec .pClose s = .next t := h
      rw [execPClose_eq s] at h
      cases h
      refine ⟨rfl, rfl, .closing (closeEvents s.ch ++ [.exit 0]) hp rfl (by simp) fun e he => ?_⟩
      rcases List.mem_append.mp he with he | he
      · exact closeEvents_quiet _ _ he
      · simp at he
        subst he
        rfl
    · cases h
      exact ⟨rfl, rfl, .same rfl (.inl rfl)⟩
    · cases h
      exact ⟨rfl, rfl, .same rfl (.inl rfl)⟩

end Sys2Proof.Laws
end

