-- ==== Sys2Proof/Tests/Slice0.lean ====
section
/-!
SUPPORT. Small tests, each on one step or one word, with expected results from 95_test_vectors.md and the
encodings of 30_encoding.md; and for every obligation with hypotheses a witness that meets them.
-/

namespace Sys2Proof.Tests

open Sys2Proof.Machine Sys2Proof.Safety Sys2Proof.Laws

/-! ### Helpers -/

/-- A channel's configuration in the tests. -/
def tChan : ChanCfg := { path := 5, mode := ⟨true, false⟩, bits := 8, hz := 1000000, iwd := 0 }

/-- The images of S6 and S7 and durations that differ from each other. -/
def tParams : Params where
  cndImage := [⟨0x0000, 0x90⟩, ⟨0x0000, 0x10⟩, ⟨0x0002, 0x00⟩]
  synImage := [0x700000, 0x6F0000]
  chans := ⟨tChan, tChan, tChan⟩
  tTxn := ⟨0, 0, 0⟩
  tLineSettle := 11
  tPostCnd := 1000
  tInterDev := 22
  readbackEnable := false
  exitFatal := 1
  csActive := false

/-- A line nothing was done to. -/
def tLine (id : Nat) (p : Policy) (w : Nat) : Line where
  cfg := { id := id, policy := p, tPulse := w }
  exported := false
  dir := .unset
  level := none
  exportedNow := false
  dirNow := false

/-- The lines of P1: a pulse and a static high. -/
def tLines : List Line := [tLine 7 .pulse 33, tLine 9 (.static true) 0]

/-- P1's start, with the ideal device. -/
def tStart : State :=
  { State.reset with cfg := tParams, lines := tLines, env := { Env.reset with kind := .ideal } }

/-- The same with the free oracle and answers queued. -/
def tAsk (e : Env) : State := { tStart with env := e }

/-- All channels configured. -/
def tReady : State := { tStart with ch := allReady tParams.chans }

/-- All channels configured, with the oracle answering transfers from a queue. -/
def tSend (rs : List (Option XferRes)) : State := { tReady with env := { Env.reset with xfer := rs } }

/-- One channel on its way through its opening; the others fresh. -/
def tOpening (c : Chan) (h : Channel) (e : Env) : State := { tAsk e with ch := allFresh.set c h, ci := c }

/-- The outcome is a next state with a property. -/
def nextIs (o : Host.Outcome State Fault Refusal) (p : State → Bool) : Bool :=
  match o with
  | .next t => p t
  | .fault _ => false
  | .refused _ => false

/-- The outcome is a given refusal. -/
def refusedAs (o : Host.Outcome State Fault Refusal) (r : Refusal) : Bool :=
  match o with
  | .next _ => false
  | .fault _ => false
  | .refused r' => r' == r

/-- The outcome is a given fault. -/
def faultsAs (o : Host.Outcome State Fault Refusal) (f : Fault) : Bool :=
  match o with
  | .next _ => false
  | .fault f' => f' == f
  | .refused _ => false

/-- The bytes decode to an instruction, and the instruction encodes to them. -/
def both (p : Port) (bs : List Byte) (i : Instr) : Bool :=
  (match decode p bs with
    | .ok j => j == i
    | .error _ => false) && encode i == bs && i.port == p && i.wf

/-- The bytes are refused under a name. -/
def undecoded (p : Port) (bs : List Byte) (e : DecodeErr) : Bool :=
  match decode p bs with
  | .ok _ => false
  | .error e' => e' == e

/-! ### Well-formedness: an ill-formed term for each check -/

theorem test_wf_lExport : (Instr.lExport 65535).wf = true ∧ (Instr.lExport 65536).wf = false := by decide
theorem test_wf_lDir : (Instr.lDir 65535).wf = true ∧ (Instr.lDir 65536).wf = false := by decide
theorem test_wf_lLevel : (Instr.lLevel 65535 true).wf = true ∧ (Instr.lLevel 65536 true).wf = false := by
  decide
theorem test_wf_sDelay_name :
    (Instr.sDelay (.pulse 65535) 0).wf = true ∧ (Instr.sDelay (.pulse 65536) 0).wf = false := by decide
theorem test_wf_sDelay_time :
    (Instr.sDelay .postCnd 4294967295).wf = true ∧ (Instr.sDelay .postCnd 4294967296).wf = false := by
  decide

/-! ### Decoding: every constructor, by a word written out from its encoding -/

/-- Rule R80; the frames of sections 2 and 3 of the test vectors. -/
theorem test_decode_wire :
    both (.wire .cnd) [0x1A, 0xBC, 0xDE] (.cndWr 0x1ABC 0xDE) = true ∧
    both (.wire .cnd) [0x9A, 0xBC, 0x00] (.cndRd 0x1ABC) = true ∧
    both (.wire .syn1) [0x2C, 0x1F, 0xA3] (.synWr .first 0x2C 0x1FA3) = true ∧
    both (.wire .syn2) [0xFF, 0xFF, 0xFF] (.synRd .second 0x7F 0xFFFF) = true := by decide

/-- The 24 bits 0x012345 by channel (rule R76). -/
theorem test_decode_by_channel :
    both (.wire .cnd) [0x01, 0x23, 0x45] (.cndWr 0x0123 0x45) = true ∧
    both (.wire .syn1) [0x01, 0x23, 0x45] (.synWr .first 0x01 0x2345) = true ∧
    both (.wire .syn2) [0x01, 0x23, 0x45] (.synWr .second 0x01 0x2345) = true := by decide

/-- Codes C0 to C7 (rule R83). -/
theorem test_decode_codec :
    both .op8 [0x00, 0x1A, 0xBC, 0x00, 0xDE] (.cndEncWr 0x1ABC 0xDE) = true ∧
    both .op8 [0x01, 0x1A, 0xBC] (.cndEncRd 0x1ABC) = true ∧
    both .op8 [0x02, 0x9A, 0xBC, 0x01] (.cndParse ⟨0x9A, 0xBC, 0x01⟩) = true ∧
    both .op8 [0x03, 0x12, 0x34, 0x56] (.cndRdValue ⟨0x12, 0x34, 0x56⟩) = true ∧
    both .op8 [0x04, 0x01, 0x70, 0x00, 0x02] (.synSplit 0x01700002) = true ∧
    both .op8 [0x05, 0x12, 0x34, 0x56] (.synJoin ⟨0x12, 0x34, 0x56⟩) = true ∧
    both .op8 [0x06, 0x00, 0x4E, 0x00, 0x03] (.synFields 0x004E0003) = true ∧
    both .op8 [0x07, 0x01, 0x7F, 0xFF, 0xFE] (.synPack 0x01 0x7F 0xFFFE) = true := by decide

/-- Codes T0 to T5 (rule R83). -/
theorem test_decode_transport :
    both .op8 [0x10, 0x00] (.tOpen .cnd) = true ∧
    both .op8 [0x11, 0x01] (.tCfgMode .syn1) = true ∧
    both .op8 [0x12, 0x02] (.tCfgBits .syn2) = true ∧
    both .op8 [0x13, 0x00] (.tCfgHz .cnd) = true ∧
    both .op8 [0x14, 0x02, 0x70, 0x01, 0x02] (.tXfer .syn2 ⟨0x70, 0x01, 0x02⟩) = true ∧
    both .op8 [0x15, 0x01] (.tClose .syn1) = true := by decide

/-- Codes L0 to L2 and S0 to S3 (rule R83). -/
theorem test_decode_lines_and_sequencer :
    both .op8 [0x20, 0x01, 0x02] (.lExport 0x0102) = true ∧
    both .op8 [0x21, 0x00, 0x07] (.lDir 7) = true ∧
    both .op8 [0x22, 0x00, 0x07, 0x01] (.lLevel 7 true) = true ∧
    both .op8 [0x30, 0x01] (.sProgram .syn1) = true ∧
    both .op8 [0x31] .sInitLines = true ∧
    both .op8 [0x32, 0x02, 0x00, 0x01, 0x00, 0x00, 0x03, 0xE8] (.sDelay (.txn .syn1) 1000) = true ∧
    both .op8 [0x33] .sReadback = true := by decide

/-- The phase codes 0 to 12 (rule R200). -/
theorem test_decode_phases :
    both .phase4 [0x0] .pReset = true ∧ both .phase4 [0x1] .pLines = true ∧
    both .phase4 [0x2] .pLineSettle = true ∧ both .phase4 [0x3] .pOpen = true ∧
    both .phase4 [0x4] .pProgCnd = true ∧ both .phase4 [0x5] .pSettleCnd = true ∧
    both .phase4 [0x6] .pProgSyn1 = true ∧ both .phase4 [0x7] .pSettleSyn1 = true ∧
    both .phase4 [0x8] .pProgSyn2 = true ∧ both .phase4 [0x9] .pSettleSyn2 = true ∧
    both .phase4 [0xA] .pClose = true ∧ both .phase4 [0xB] .pDone = true ∧
    both .phase4 [0xC] .pFault = true := by decide

/-- Reserved and unknown encodings are refused by name (rules R13, R70, R81, R83, R183, R200). -/
theorem test_undecoded :
    undecoded (.wire .cnd) [0x20, 0x01, 0x02] .reservedBits = true ∧
    undecoded (.wire .cnd) [0x00, 0x00] .frameLength = true ∧
    undecoded .op8 [0x08] .unknownOperation = true ∧
    undecoded .op8 [0x10, 0x03] .badChannel = true ∧
    undecoded .op8 [0x22, 0x00, 0x00, 0x02] .badLevel = true ∧
    undecoded .op8 [0x32, 0x05, 0x00, 0x00, 0x00, 0x00, 0x00, 0x00] .badDelayName = true ∧
    undecoded .op8 [0x14, 0x00, 0x00] .truncated = true ∧
    undecoded .phase4 [0xD] .noSuchPhase = true := by decide

/-- A conditioner read with a third byte that is not 0x00 is the same read (rule R81 b). -/
theorem test_decode_read_third_byte :
    (match decode (.wire .cnd) [0x80, 0x00, 0x01] with
      | .ok j => j == .cndRd 0x0000
      | .error _ => false) = true := by decide

/-- Table words, and the instruction the next step fetches (log 10). -/
theorem test_table_words :
    decodeTableWord 24 0x000000 = some (.cndWr 0 0) ∧
    decodeTableWord 24 0x800000 = some (.cndRd 0) ∧
    decodeTableWord 24 0x7FFFFF = some (.synWr .first 0x7F 0xFFFF) ∧
    decodeTableWord 8 0x07 = some (.synPack 0 0 0) ∧
    decodeTableWord 8 0x33 = some .sReadback ∧
    decodeTableWord 4 0xC = some .pFault := by decide

theorem test_withFetchWord :
    nextIs (step (State.reset.withFetchWord 8 0x32)) (fun t => t.trace == [.delay (.pulse 0) 0]) = true ∧
    refusedAs (step (State.reset.withFetchWord 8 0x33)) .readbackDisabled = true := by decide

/-! ### Codec functions (sections 2 and 3 of the test vectors) -/

theorem test_cndEncWr :
    nextIs (exec (.cndEncWr 0x1FFF 0xFF) tStart) (fun t => t.ret == .frame ⟨0x1F, 0xFF, 0xFF⟩) = true ∧
    nextIs (exec (.cndEncWr 0x2003 0x1FF) tStart) (fun t => t.ret == .frame ⟨0x00, 0x03, 0xFF⟩) = true := by
  decide

theorem test_cndEncRd :
    nextIs (exec (.cndEncRd 0x0003) tStart) (fun t => t.ret == .frame ⟨0x80, 0x03, 0x00⟩) = true ∧
    nextIs (exec (.cndEncRd 0x1FFF) tStart) (fun t => t.ret == .frame ⟨0x9F, 0xFF, 0x00⟩) = true := by
  decide

theorem test_cndParse :
    nextIs (exec (.cndParse ⟨0x81, 0x23, 0x00⟩) tStart)
      (fun t => t.ret == .cndFields 1 0 0x0123 0x00 true) = true ∧
    nextIs (exec (.cndParse ⟨0xFF, 0xFF, 0xFF⟩) tStart)
      (fun t => t.ret == .cndFields 1 3 0x1FFF 0xFF false) = true := by decide

theorem test_cndParse_invalid :
    nextIs (exec (.cndParse ⟨0x80, 0x00, 0x01⟩) tStart)
      (fun t => t.ret == .cndFields 1 0 0x0000 0x01 false) = true ∧
    nextIs (exec (.cndParse ⟨0x20, 0x01, 0x02⟩) tStart)
      (fun t => t.ret == .cndFields 0 1 0x0001 0x02 false) = true := by decide

theorem test_cndRdValue :
    nextIs (exec (.cndRdValue ⟨0x12, 0x34, 0x56⟩) tStart) (fun t => t.ret == .byte 0x56) = true := by decide

theorem test_synSplit :
    nextIs (exec (.synSplit 0x2C1FA3) tStart) (fun t => t.ret == .frame ⟨0x2C, 0x1F, 0xA3⟩) = true ∧
    nextIs (exec (.synSplit 0x1700000) tStart) (fun t => t.ret == .frame ⟨0x70, 0x00, 0x00⟩) = true := by
  decide

theorem test_synJoin :
    nextIs (exec (.synJoin ⟨0x12, 0x34, 0x56⟩) tStart) (fun t => t.ret == .word 0x123456) = true := by
  decide

theorem test_synFields :
    nextIs (exec (.synFields 0xF00000) tStart) (fun t => t.ret == .synFields 1 0x70 0x0000) = true ∧
    nextIs (exec (.synFields 0x00251C) tStart) (fun t => t.ret == .synFields 0 0x00 0x251C) = true := by
  decide

theorem test_synPack :
    nextIs (exec (.synPack 0 0x24 0x0041) tStart) (fun t => t.ret == .word 0x240041) = true ∧
    nextIs (exec (.synPack 1 0x7F 0xFFFF) tStart) (fun t => t.ret == .word 0xFFFFFF) = true := by decide

/-! ### Bus transport (section 4 of the test vectors) -/

theorem test_tOpen_ok :
    nextIs (exec (.tOpen .cnd) tStart)
      (fun t => t.trace == [.chanOpen .cnd .ok] && t.ch.cnd == opened tChan) = true := by decide

theorem test_tOpen_fail :
    nextIs (exec (.tOpen .syn2) (tAsk { Env.reset with chanOpen := [.fail] })) (fun t =>
      t.trace == [.chanOpen .syn2 .fail, .diag (diagChannelOpen .syn2), .exit 1] && t.fault) = true := by
  decide

theorem test_tCfgMode_mismatch :
    nextIs (exec (.tCfgMode .cnd) (tOpening .cnd (opened tChan)
      { Env.reset with cfgSet := [.ok], cfgGet := [.value (.mode ⟨false, false⟩)] })) (fun t =>
      t.ch.cnd == released (opened tChan) && t.lastErr == some (diagChannelConfig .cnd .mode) &&
      t.trace == [.cfg .cnd .mode (.mode ⟨true, false⟩) (.mismatch (.mode ⟨false, false⟩)),
        .diag (diagChannelConfig .cnd .mode), .close .cnd, .exit 1]) = true := by decide

theorem test_tCfgMode_ok :
    nextIs (exec (.tCfgMode .cnd) { tStart with ch := allFresh.set .cnd (opened tChan) }) (fun t =>
      t.ch.cnd.mode == some ⟨true, false⟩) = true := by decide

/-- A failed set asks for no read-back: the queued answer is still there. -/
theorem test_tCfgBits_setFailed :
    nextIs (exec (.tCfgBits .syn1) (tOpening .syn1 { opened tChan with mode := some tChan.mode }
      { Env.reset with cfgSet := [.fail], cfgGet := [.fail] })) (fun t =>
      t.env.cfgGet == [.fail] && t.exitStatus == some 1 &&
      t.trace.head? == some (.cfg .syn1 .bits (.bits 8) .setFailed)) = true := by decide

theorem test_tCfgHz_ok :
    nextIs (exec (.tCfgHz .syn2) { tStart with
      ch := allFresh.set .syn2 { opened tChan with mode := some tChan.mode, bits := some 8 } }) (fun t =>
      t.configured .syn2 && t.trace == [.cfg .syn2 .hz (.hz 1000000) .verified]) = true := by decide

theorem test_tXfer_ok :
    nextIs (exec (.tXfer .cnd ⟨0x00, 0x00, 0x90⟩) tReady) (fun t =>
      t.rxf == ⟨0, 0, 0⟩ && t.txf == tReady.txf &&
      t.trace == [.xfer .cnd ⟨0x00, 0x00, 0x90⟩ (.ok ⟨0, 0, 0⟩)]) = true := by decide

theorem test_tXfer_short_and_unanswered :
    nextIs (exec (.tXfer .syn1 ⟨0x70, 0, 0⟩) (tSend [some (.short 2)])) (fun t =>
      t.ret == .xfer (.short 2) && t.lastErr == none) = true ∧
    nextIs (exec (.tXfer .syn2 ⟨0x70, 0, 0⟩) (tSend [none])) (fun t =>
      t.trace == [] && t.hung == some ⟨.syn2, ⟨0x70, 0, 0⟩⟩) = true := by decide

theorem test_tClose :
    nextIs (exec (.tClose .syn1) tReady) (fun t =>
      t.ch.syn1 == released (ready tChan) && t.trace == [.close .syn1]) = true ∧
    refusedAs (exec (.tClose .syn1) tStart) (.channelNotOpen .syn1) = true := by decide

/-! ### Wire frames (program P7, rule R52) -/

/-- P7's device after its two writes. -/
def tWritten : State :=
  { tReady with env := { tReady.env with devCnd := memWrite (memWrite [] 0x0143 0x11) 0x0143 0xD0 } }

theorem test_cndWr :
    nextIs (exec (.cndWr 0x0143 0xD0) tReady) (fun t =>
      t.env.devCnd == [(0x0143, 0xD0)] && t.txf == ⟨0x01, 0x43, 0xD0⟩) = true ∧
    refusedAs (exec (.cndWr 0x0143 0xD0) tStart) (.channelNotConfigured .cnd) = true := by decide

theorem test_cndRd :
    nextIs (exec (.cndRd 0x0143) tWritten) (fun t =>
      t.ret == .value 0xD0 && t.txf == ⟨0x81, 0x43, 0x00⟩) = true ∧
    nextIs (exec (.cndRd 0x0144) tWritten) (fun t => t.ret == .value 0x00) = true := by decide

theorem test_synWr :
    nextIs (exec (.synWr .second 0x2C 0x1FA3) tReady) (fun t =>
      t.env.devSyn2 == [(0x2C, 0x1FA3)] && t.env.devSyn1 == [] && t.txf == ⟨0x2C, 0x1F, 0xA3⟩) = true := by
  decide

theorem test_synRd :
    nextIs (exec (.synRd .first 0x70 0x0000) tReady) (fun t =>
      t.env.devSyn1 == [] && t.txf == ⟨0xF0, 0x00, 0x00⟩) = true := by decide

/-! ### Control lines (section 6 of the test vectors) -/

/-- Line 0 exported in this run. -/
def tExported : State :=
  { tStart with lines := [{ tLine 7 .pulse 33 with exported := true, exportedNow := true }] }

/-- Line 0 an output in this run, at the start of its level writes. -/
def tOutput : State :=
  { tStart with
    lines := [{ tLine 7 .pulse 33 with exported := true, exportedNow := true, dir := .out, dirNow := true }] }

theorem test_lExport :
    nextIs (exec (.lExport 1) (tAsk { Env.reset with lineExport := [.fail] })) (fun t =>
      t.lines == tLines && t.fault &&
      t.trace == [.lineExport 1 .fail, .diag (diagLineSetup .lineExport 1), .exit 1]) = true ∧
    faultsAs (exec (.lExport 2) tStart) (.noSuchLine 2) = true := by decide

theorem test_lDir :
    nextIs (exec (.lDir 0) tExported) (fun t => t.lines == tOutput.lines) = true ∧
    refusedAs (exec (.lDir 0) tStart) (.lineNotExported 0) = true := by decide

theorem test_lLevel :
    nextIs (exec (.lLevel 0 true) tOutput) (fun t =>
      t.trace == [.lineLevel 0 true] && (t.lines.map Line.level) == [some true]) = true ∧
    refusedAs (exec (.lLevel 0 true) tExported) (.lineNotOutput 0) = true := by decide

/-- Rule R180's example: the eight events. -/
theorem test_sInitLines :
    nextIs (exec .sInitLines tStart) (fun t => t.lines == tLines.map lineDone && t.trace ==
      [.lineExport 0 .ok, .lineDir 0 .ok, .lineLevel 0 true, .delay (.pulse 0) 33, .lineLevel 0 false,
        .lineExport 1 .ok, .lineDir 1 .ok, .lineLevel 1 true]) = true := by decide

/-- The direction of line 1 fails: line 0 is done, line 1 only exported. -/
theorem test_sInitLines_fails :
    nextIs (exec .sInitLines (tAsk { Env.reset with lineExport := [.ok, .ok], lineSetDir := [.ok, .fail] }))
      (fun t => t.lines == [lineDone (tLine 7 .pulse 33),
          { tLine 9 (.static true) 0 with exported := true, exportedNow := true }] &&
        t.lastErr == some (diagLineSetup .lineDir 1) && t.fault) = true := by decide

/-! ### Sequencer (section 5 of the test vectors) -/

theorem test_sProgram_clean :
    nextIs (exec (.sProgram .cnd) tReady) (fun t => t.idx == 3 && t.txnErrCount == 0 &&
      requestFrames .cnd t.trace == [⟨0x00, 0x00, 0x90⟩, ⟨0x00, 0x00, 0x10⟩, ⟨0x00, 0x02, 0x00⟩]) = true := by
  decide

theorem test_sProgram_errors :
    nextIs (exec (.sProgram .cnd) (tSend [some (.ok ⟨0, 0, 0⟩), some (.short 0), some .fail])) (fun t =>
      t.idx == 3 && t.txnErrCount == 2 && t.lastErr == some (diagTransaction .cnd 2) &&
      t.pinDiag == [diagTransaction .cnd 1, diagTransaction .cnd 2] &&
      (requestFrames .cnd t.trace).length == 3) = true := by decide

theorem test_sDelay :
    nextIs (exec (.sDelay .postCnd 1000) tStart) (fun t =>
      t == { tStart with trace := [.delay .postCnd 1000] }) = true := by decide

theorem test_sReadback :
    refusedAs (exec .sReadback tStart) .readbackDisabled = true ∧
    refusedAs (exec .sReadback { tStart with cfg := { tParams with readbackEnable := true } })
      .readbackEnabled = true := by decide

/-! ### Phases (45_bringup_fsm.md) -/

theorem test_pReset :
    nextIs (exec .pReset tStart) (fun t => t.phase == .pLines) = true ∧
    nextIs (exec .pReset { tStart with lines := [] }) (fun t => t.phase == .pLineSettle) = true := by decide

theorem test_pLines :
    nextIs (exec .pLines { tOutput with phase := .pLines, sub := .s2 }) (fun t =>
      t.sub == .s3 && t.trace == [.lineLevel 0 true]) = true ∧
    nextIs (exec .pLines { tOutput with phase := .pLines, sub := .s4 }) (fun t =>
      t.phase == .pLineSettle && t.sub == .s0 && t.trace == [.lineLevel 0 false]) = true := by decide

theorem test_pLineSettle :
    nextIs (exec .pLineSettle { tStart with phase := .pLineSettle, ci := .syn2 }) (fun t =>
      t.phase == .pOpen && t.ci == .cnd && t.trace == [.delay .lineSettle 11]) = true := by decide

theorem test_pOpen :
    nextIs (exec .pOpen { tStart with
      phase := .pOpen, ci := .syn2, sub := .s3
      ch := ⟨ready tChan, ready tChan, { opened tChan with mode := some tChan.mode, bits := some 8 }⟩ })
      (fun t => t.phase == .pProgCnd && t.sub == .s0 && t.ch == allReady tParams.chans) = true := by decide

theorem test_pProgCnd :
    nextIs (exec .pProgCnd { tReady with phase := .pProgCnd, idx := 2 }) (fun t =>
      t.sub == .s1 && t.opA == 2 && t.opD == 0 && t.txf == ⟨0x00, 0x02, 0x00⟩) = true ∧
    nextIs (exec .pProgCnd { tReady with phase := .pProgCnd, idx := 3 }) (fun t =>
      t.phase == .pSettleCnd && t.trace == []) = true := by decide

theorem test_pProgSyn1 :
    nextIs (exec .pProgSyn1 { tSend [some .fail] with phase := .pProgSyn1, idx := 1 }) (fun t =>
      t.sub == .s1 && t.txnErrCount == 1 && t.opW == 0x6F0000 && t.trace ==
        [.xfer .syn1 ⟨0x6F, 0x00, 0x00⟩ .fail, .diag (diagTransaction .syn1 1)]) = true ∧
    nextIs (exec .pProgSyn1 { tReady with phase := .pProgSyn1, idx := 1, sub := .s1 }) (fun t =>
      t.idx == 2 && t.sub == .s0 && t.trace == [.delay (.txn .syn1) 0]) = true := by decide

theorem test_pProgSyn2 :
    nextIs (exec .pProgSyn2 { tReady with phase := .pProgSyn2, idx := 2 }) (fun t =>
      t.phase == .pSettleSyn2) = true ∧
    nextIs (exec .pProgSyn2 { tSend [none] with phase := .pProgSyn2 }) (fun t =>
      t.phase == .pProgSyn2 && t.sub == .s0 && t.hung == some ⟨.syn2, ⟨0x70, 0, 0⟩⟩) = true := by decide

theorem test_settles :
    nextIs (exec .pSettleCnd tReady) (fun t => t.phase == .pProgSyn1 && t.trace == [.delay .postCnd 1000])
      = true ∧
    nextIs (exec .pSettleSyn1 tReady) (fun t => t.phase == .pProgSyn2 && t.trace == [.delay .interDev 22])
      = true ∧
    nextIs (exec .pSettleSyn2 tReady) (fun t => t.phase == .pClose && t.trace == [.delay .interDev 22])
      = true := by decide

theorem test_pClose :
    nextIs (exec .pClose tReady) (fun t => t.phase == .pDone && t.exitStatus == some 0 &&
      t.trace == [.close .cnd, .close .syn1, .close .syn2, .exit 0]) = true := by decide

theorem test_terminal :
    nextIs (exec .pDone tReady) (fun t => t == tReady) = true ∧
    nextIs (exec .pFault tReady) (fun t => t == tReady) = true := by decide

/-- The trace P1 writes out, as Safety.lean computes it. -/
theorem test_cleanTrace_is_P1 :
    cleanTrace tParams tLines =
      [.lineExport 0 .ok, .lineDir 0 .ok, .lineLevel 0 true, .delay (.pulse 0) 33, .lineLevel 0 false,
        .lineExport 1 .ok, .lineDir 1 .ok, .lineLevel 1 true, .delay .lineSettle 11,
        .chanOpen .cnd .ok, .cfg .cnd .mode (.mode ⟨true, false⟩) .verified,
        .cfg .cnd .bits (.bits 8) .verified, .cfg .cnd .hz (.hz 1000000) .verified,
        .chanOpen .syn1 .ok, .cfg .syn1 .mode (.mode ⟨true, false⟩) .verified,
        .cfg .syn1 .bits (.bits 8) .verified, .cfg .syn1 .hz (.hz 1000000) .verified,
        .chanOpen .syn2 .ok, .cfg .syn2 .mode (.mode ⟨true, false⟩) .verified,
        .cfg .syn2 .bits (.bits 8) .verified, .cfg .syn2 .hz (.hz 1000000) .verified] ++
      [.xfer .cnd ⟨0x00, 0x00, 0x90⟩ (.ok ⟨0, 0, 0⟩), .delay (.txn .cnd) 0,
        .xfer .cnd ⟨0x00, 0x00, 0x10⟩ (.ok ⟨0, 0, 0⟩), .delay (.txn .cnd) 0,
        .xfer .cnd ⟨0x00, 0x02, 0x00⟩ (.ok ⟨0, 0, 0⟩), .delay (.txn .cnd) 0, .delay .postCnd 1000,
        .xfer .syn1 ⟨0x70, 0x00, 0x00⟩ (.ok ⟨0, 0, 0⟩), .delay (.txn .syn1) 0,
        .xfer .syn1 ⟨0x6F, 0x00, 0x00⟩ (.ok ⟨0, 0, 0⟩), .delay (.txn .syn1) 0, .delay .interDev 22,
        .xfer .syn2 ⟨0x70, 0x00, 0x00⟩ (.ok ⟨0, 0, 0⟩), .delay (.txn .syn2) 0,
        .xfer .syn2 ⟨0x6F, 0x00, 0x00⟩ (.ok ⟨0, 0, 0⟩), .delay (.txn .syn2) 0, .delay .interDev 22,
        .close .cnd, .close .syn1, .close .syn2, .exit 0] := by decide

/-! ### Witnesses: for every obligation with hypotheses, a state and operands that meet them -/

theorem witness_DecodeEncodeRoundTrip : (Instr.sDelay (.pulse 65535) 4294967295).wf = true := by decide

theorem witness_ConditionerCodecRoundTrip :
    cndEncWr 0x1FFF 0xFF = cndEncWr 0x1FFF 0xFF ∧ cndFrameValid ⟨0x1F, 0xFF, 0xFF⟩ = true ∧
      (0x1F : Byte).getLsbD 7 = false := by decide

theorem witness_SynthesizerFramesPartition :
    (0x7F : Byte).getLsbD 7 = false ∧ (0x80 : Byte).getLsbD 7 = true := by decide

/-- The first and last value of byte 0 in each range. -/
theorem witness_ConditionerFramesDecode :
    (0x20 : Byte).toNat / 32 % 4 ≠ 0 ∧ (0x7F : Byte).toNat / 32 % 4 ≠ 0 ∧
    (0xA0 : Byte).toNat / 32 % 4 ≠ 0 ∧ (0xFF : Byte).toNat / 32 % 4 ≠ 0 ∧
    (0x00 : Byte).toNat < 32 ∧ (0x1F : Byte).toNat < 32 ∧
    (0x80 : Byte).toNat / 32 = 4 ∧ (0x9F : Byte).toNat / 32 = 4 := by decide

theorem witness_OpenResult :
    let s := tAsk { Env.reset with chanOpen := [.ok] }
    let s' := tAsk { Env.reset with chanOpen := [.fail] }
    (s.ch.get .syn2).isOpen = false ∧ (s.ch.get .syn2).iwd = none ∧
      s.env.chanOpenAns (s.cfg.chans.get .syn2).path = .ok ∧
    (s'.ch.get .cnd).isOpen = false ∧ (s'.ch.get .cnd).iwd = none ∧
      s'.env.chanOpenAns (s'.cfg.chans.get .cnd).path = .fail := by decide

/-- A channel right before each of its three configuration steps. -/
def tBefore : CfgWhich → Channel
  | .mode => opened tChan
  | .bits => { opened tChan with mode := some tChan.mode }
  | .hz => { opened tChan with mode := some tChan.mode, bits := some tChan.bits }

theorem witness_ConfigStepsSetAndVerify (w : CfgWhich) :
    let s (a : Ans) (g : GetAns) := tOpening .syn1 (tBefore w) { Env.reset with cfgSet := [a], cfgGet := [g] }
    let v := (tParams.chans.get .syn1).value w
    (∀ a g, cfgReady ((s a g).ch.get .syn1) w = true) ∧
    (s .ok (.value v)).env.cfgSetAns .syn1 w v = .ok ∧
      (s .ok (.value v)).env.afterCfgSet.cfgGetAns .syn1 w v = .value v ∧
    (s .fail .fail).env.cfgSetAns .syn1 w v = .fail ∧
    (s .ok .fail).env.cfgSetAns .syn1 w v = .ok ∧
      (s .ok .fail).env.afterCfgSet.cfgGetAns .syn1 w v = .fail ∧
    (s .ok (.value (.bits 7))).env.cfgSetAns .syn1 w v = .ok ∧
      (s .ok (.value (.bits 7))).env.afterCfgSet.cfgGetAns .syn1 w v = .value (.bits 7) ∧
      CfgVal.bits 7 ≠ v := by
  cases w <;> exact ⟨fun _ _ => rfl, by decide⟩

theorem witness_TransferResult :
    let f : Frame := ⟨0x70, 0, 0⟩
    (∀ rs, (tSend rs).configured .syn1 = true) ∧
    (tSend [some (.ok ⟨1, 2, 3⟩)]).env.xferAns .syn1 f = some (.ok ⟨1, 2, 3⟩) ∧
    (tSend [some (.short 2)]).env.xferAns .syn1 f = some (.short 2) ∧ failed (.short 2) = true ∧
    (tSend [some .fail]).env.xferAns .syn1 f = some .fail ∧ failed .fail = true ∧
    (tSend [none]).env.xferAns .syn1 f = none := ⟨fun _ => rfl, by decide⟩

theorem witness_TransferRefusedUnlessConfigured :
    tStart.configured .cnd = false ∧ tStart.configured .syn1 = false ∧ tStart.configured .syn2 = false ∧
      Chan.syn1 = SynChan.first.chan ∧ Chan.syn2 = SynChan.second.chan ∧
      tStart.sub = .s0 ∧ tStart.idx < tStart.imageLength .cnd ∧
      ({ tStart with idx := 1 } : State).idx < tStart.imageLength .syn2 := by decide

theorem witness_CloseResult : (tReady.ch.get .syn2).isOpen = true := by decide

theorem witness_OutOfOrderOperationsRefused :
    (tReady.ch.get .cnd).isOpen = true ∧ (tStart.ch.get .cnd).isOpen = false ∧
    ((releasedAll tReady.ch).get .cnd).isOpen = false ∧ ((releasedAll tReady.ch).get .cnd).iwd.isSome = true ∧
    cfgReady (tStart.ch.get .cnd) .mode = false ∧ cfgReady (opened tChan) .bits = false ∧
    cfgReady (opened tChan) .hz = false ∧
    tStart.lines[1]? = some (tLine 9 (.static true) 0) ∧ (tLine 9 (.static true) 0).exportedNow = false ∧
    (tLine 9 (.static true) 0).dirNow = false := by decide

theorem witness_ConditionerWriteResult :
    (tSend [some (.ok ⟨1, 2, 3⟩)]).configured .cnd = true ∧
    (tSend [some (.ok ⟨1, 2, 3⟩)]).env.xferAns .cnd (cndEncWr 0x1FFF 0xFF) = some (.ok ⟨1, 2, 3⟩) ∧
    (tSend [some .fail]).env.xferAns .cnd (cndEncWr 0 0) = some .fail ∧
    (tSend [none]).env.xferAns .cnd (cndEncWr 0 0) = none := by decide

theorem witness_ConditionerReadResult :
    (tSend [some (.ok ⟨0, 0, 0xD0⟩)]).configured .cnd = true ∧
    (tSend [some (.ok ⟨0, 0, 0xD0⟩)]).env.xferAns .cnd (cndEncRd 0x1FFF) = some (.ok ⟨0, 0, 0xD0⟩) ∧
    failed (.short 0) = true ∧
    (tSend [some (.short 0)]).env.xferAns .cnd (cndEncRd 0) = some (.short 0) ∧
    (tSend [none]).env.xferAns .cnd (cndEncRd 0) = none := by decide

theorem witness_SynthesizerFrameResult :
    (tSend [some .fail]).configured (SynChan.second.chan) = true ∧
    (tSend [some .fail]).env.xferAns (SynChan.second.chan) ⟨0#1 ++ 0x7F#7, 0xFF, 0xFF⟩ = some .fail ∧
    (tSend [some (.ok ⟨1, 2, 3⟩)]).env.xferAns (SynChan.first.chan) ⟨1#1 ++ 0x00#7, 0x00, 0x00⟩ =
      some (.ok ⟨1, 2, 3⟩) ∧
    (tSend [none]).env.xferAns (SynChan.first.chan) ⟨0#1 ++ 0x7F#7, 0xFF, 0xFF⟩ = none := by decide

/-- Each of the five clauses has a next state. -/
theorem witness_IdealDeviceStoresAndReplies :
    tWritten.env.kind = .ideal ∧ tWritten.env.devicesWf = true ∧
    (∃ t, exec (.cndWr 0x1FFF 0x00) tWritten = .next t) ∧ (∃ t, exec (.cndRd 0x0143) tWritten = .next t) ∧
    (∃ t, exec (.synWr .first 0x7F 0xFFFF) tWritten = .next t) ∧
    (∃ t, exec (.synWr .second 0x00 0x0001) tWritten = .next t) ∧
    (∃ t, exec (.synRd .first 0x70 0x0000) tWritten = .next t) :=
  ⟨rfl, by decide, ⟨_, rfl⟩, ⟨_, rfl⟩, ⟨_, rfl⟩, ⟨_, rfl⟩, ⟨_, rfl⟩⟩

theorem witness_PinViewOfATransfer : isXfer (.close .cnd) = false ∧ 7 < 8 ∧ 23 < 24 := by decide

theorem witness_LineExportResult :
    tStart.lines[1]? = some (tLine 9 (.static true) 0) ∧
    (tAsk { Env.reset with lineExport := [.ok] }).env.lineExportAns 9 = .ok ∧
    (tAsk { Env.reset with lineExport := [.fail] }).env.lineExportAns 9 = .fail := by decide

theorem witness_LineDirectionResult :
    (∃ l, tExported.lines[0]? = some l ∧ l.exportedNow = true) ∧
    (tAsk { Env.reset with lineSetDir := [.ok] }).env.lineSetDirAns 7 = .ok ∧
    (tAsk { Env.reset with lineSetDir := [.fail] }).env.lineSetDirAns 7 = .fail :=
  ⟨⟨_, rfl, rfl⟩, by decide⟩

theorem witness_LineLevelResult : ∃ l, tOutput.lines[0]? = some l ∧ l.dirNow = true := ⟨_, rfl, rfl⟩

theorem witness_NoSuchLineFaults : tStart.lines.length ≤ 2 := by decide

/-- All answers `ok`; and with line 0 set up, line 1 fails at its export, or at its direction. -/
theorem witness_InitLinesResult :
    let s (xs ds : List Ans) := tAsk { Env.reset with lineExport := xs, lineSetDir := ds }
    let pre := [tLine 7 .pulse 33]
    linesAnsweredOk tLines (s [.ok, .ok] [.ok, .ok]).env ∧
    tLines = pre ++ tLine 9 (.static true) 0 :: [] ∧
    linesAnsweredOk pre (s [.ok, .fail] [.ok]).env ∧
      (envAfterLines pre (s [.ok, .fail] [.ok]).env).lineExportAns 9 = .fail ∧
    linesAnsweredOk pre (s [.ok, .ok] [.ok, .fail]).env ∧
      (envAfterLines pre (s [.ok, .ok] [.ok, .fail]).env).lineExportAns 9 = .ok ∧
      (envAfterLines pre (s [.ok, .ok] [.ok, .fail]).env).afterLineExport.lineSetDirAns 9 = .fail :=
  ⟨⟨rfl, rfl, rfl, rfl, trivial⟩, rfl, ⟨rfl, rfl, trivial⟩, rfl, ⟨rfl, rfl, trivial⟩, rfl, rfl⟩

theorem witness_LinesPhaseRefinesInitLines :
    let s : State := { tStart with phase := .pLines }
    s.phase = .pLines ∧ s.sub = .s0 ∧ s.li = 0 ∧ s.lines ≠ [] ∧ s.hung = none ∧ s.pinReset = false := by
  decide

theorem witness_ProgramSendsTheWholeImage :
    tReady.configured .cnd = true ∧ tReady.configured .syn2 = true ∧ tReady.hung = none ∧
    replayAnswers .cnd (imageFrames tParams .cnd) tReady.env =
      [.ok ⟨0, 0, 0⟩, .ok ⟨0, 0, 0⟩, .ok ⟨0, 0, 0⟩] ∧
    replayAnswers .syn2 (imageFrames tParams .syn2) (tSend [some .fail, none]).env = [.fail] ∧
    imageFrames tParams .cnd ≠ [] := by decide

theorem witness_ReplayPhaseRefinesProgram :
    let s : State := { tReady with phase := .pProgSyn1 }
    s.phase = progPhaseOf .syn1 ∧ s.sub = .s0 ∧ s.idx = 0 ∧ s.hung = none ∧ s.pinReset = false ∧
      s.configured .syn1 = true := by decide

theorem witness_ReadbackRefused :
    tStart.cfg.readbackEnable = false ∧
    ({ tParams with readbackEnable := true } : Params).readbackEnable = true ∧ tStart.pinStart = true := by
  decide

theorem witness_StartPhaseResult :
    tStart.pinStart = true ∧ tStart.cfg.readbackEnable = false ∧
      ({ tStart with pinStart := false } : State).pinStart = false := by decide

/-- Each sub-step of P_LINES, a pulse and a static level. -/
theorem witness_LinesPhaseResult :
    (∃ l, tStart.lines[tStart.li]? = some l ∧ tStart.sub = .s0 ∧
      tStart.env.lineExportAns l.cfg.id = .ok) ∧
    (∃ l, tExported.lines[0]? = some l ∧ l.exportedNow = true ∧
      tExported.env.lineSetDirAns l.cfg.id = .ok) ∧
    (tAsk { Env.reset with lineExport := [.fail] }).env.lineExportAns 7 = .fail ∧
    (tAsk { Env.reset with lineSetDir := [.fail] }).env.lineSetDirAns 7 = .fail ∧
    (∃ l, tOutput.lines[0]? = some l ∧ l.dirNow = true ∧ l.cfg.policy = .pulse) ∧
    (∃ l, (lineDone (tLine 9 (.static true) 0) :: []).head? = some l ∧ l.dirNow = true ∧
      l.cfg.policy = .static true) :=
  ⟨⟨_, rfl, rfl, rfl⟩, ⟨_, rfl, rfl, rfl⟩, rfl, rfl, ⟨_, rfl, rfl, rfl⟩, ⟨_, rfl, rfl, rfl⟩⟩

/-- The last channel at each sub-step of P_OPEN, with answers that work and answers that do not. -/
theorem witness_OpenPhaseResult (w : CfgWhich) :
    let s (c : Chan) (a : Ans) := tOpening c Channel.fresh { Env.reset with chanOpen := [a] }
    let q (a : Ans) (g : GetAns) : State :=
      { tOpening .syn2 (tBefore w) { Env.reset with cfgSet := [a], cfgGet := [g] } with sub := cfgSub w }
    let v := tChan.value w
    ((s .syn2 .ok).sub = .s0 ∧ ((s .syn2 .ok).ch.get .syn2).isOpen = false ∧
      ((s .syn2 .ok).ch.get .syn2).iwd = none ∧ (s .syn2 .ok).env.chanOpenAns 5 = .ok) ∧
    (s .cnd .fail).env.chanOpenAns 5 = .fail ∧
    ((q .ok (.value v)).sub = (match w with | .mode => .s1 | .bits => .s2 | .hz => .s3) ∧
      cfgReady ((q .ok (.value v)).ch.get .syn2) w = true ∧
      (q .ok (.value v)).env.cfgSetAns .syn2 w v = .ok ∧
      (q .ok (.value v)).env.afterCfgSet.cfgGetAns .syn2 w v = .value v) ∧
    (q .fail .fail).env.cfgSetAns .syn2 w v = .fail ∧
    (q .ok .fail).env.afterCfgSet.cfgGetAns .syn2 w v ≠ .value v := by
  cases w <;> decide

/-- The last entry of the conditioner's image and the first of a synthesizer's. -/
theorem witness_ReplayTransferResult :
    tReady.sub = .s0 ∧
    entryFrame tParams .cnd 2 = some ⟨0x00, 0x02, 0x00⟩ ∧ entryFrame tParams .syn1 0 = some ⟨0x70, 0, 0⟩ ∧
    tReady.configured .cnd = true ∧ tReady.configured .syn1 = true ∧
    (tSend [some (.ok ⟨0, 0, 0⟩)]).env.xferAns .cnd ⟨0x00, 0x02, 0x00⟩ = some (.ok ⟨0, 0, 0⟩) ∧
    (tSend [some .fail]).env.xferAns .cnd ⟨0x00, 0x02, 0x00⟩ = some .fail ∧ failed .fail = true ∧
    (tSend [none]).env.xferAns .syn1 ⟨0x70, 0, 0⟩ = none := by decide

theorem witness_ReplayGapAndExit :
    ({ tReady with sub := .s1 } : State).sub = .s1 ∧ tReady.sub = .s0 ∧
      3 = (imageFrames tParams .cnd).length ∧ 2 = (imageFrames tParams .syn2).length := by decide

theorem witness_TerminalPhasesHold :
    ({ tReady with phase := .pDone } : State).ended = true ∧
      ({ tReady with phase := .pFault } : State).ended = true ∧ tReady.pinReset = false := by decide

theorem witness_StepRunsTheFetchedInstruction :
    tStart.pinReset = false ∧ tStart.hung = none ∧ tStart.phase = .pReset ∧
    both .op8 [0x31] .sInitLines = true ∧ both (.wire .syn1) [0x70, 0, 0] (.synWr .first 0x70 0) = true ∧
    tStart.ops = [] ∧ ({ tReady with phase := .pClose } : State).phase ≠ .pReset ∧
    both .phase4 [Phase.pClose.code] .pClose = true := by decide

theorem witness_ResetInputResult : ({ tReady with pinReset := true } : State).pinReset = true := by decide

theorem witness_HungTransferHolds :
    let s : State := { tSend [none] with phase := .pProgCnd, idx := 2 }
    s.phase = progPhaseOf .cnd ∧ s.sub = .s0 ∧ s.hung = none ∧ s.pinReset = false ∧
      entryFrame s.cfg .cnd s.idx = some ⟨0x00, 0x02, 0x00⟩ ∧ s.configured .cnd = true ∧
      s.env.xferAns .cnd ⟨0x00, 0x02, 0x00⟩ = none := by decide

/-! A run in its first synthesizer's replay, the conditioner's image sent. -/

/-- What comes before the first transfer. -/
def tOpened : List Event :=
  linesEvents 0 tLines ++ [.delay .lineSettle 11] ++
    openEvents tParams .cnd ++ openEvents tParams .syn1 ++ openEvents tParams .syn2

/-- The conditioner's image and its settle. -/
def tSent : List Event :=
  imageEvents tParams .cnd (zeroReplies tParams .cnd) ++ [.delay .postCnd 1000]

/-- The state of P1 after its event 28. -/
def tMid : State :=
  { tReady with lines := tLines.map lineDone, phase := .pProgSyn1, trace := tOpened ++ tSent }

/-- Its next step: the first synthesizer's first frame. -/
theorem tMid_steps : ∃ t, step tMid = .next t := ⟨_, rfl⟩

theorem witness_ConfigurationKept : ∃ t, step tMid = .next t := tMid_steps

theorem witness_DeviceRegistersFrame :
    ((∃ t, exec (.lLevel 0 true) tOutput = .next t) ∧ transfers (.lLevel 0 true) = false) ∧
    ((∃ t, exec (.cndWr 5 1) (tSend [some (.ok ⟨0, 0, 0⟩)]) = .next t) ∧
      (tSend [some (.ok ⟨0, 0, 0⟩)]).env.kind = .oracle) :=
  ⟨⟨⟨_, rfl⟩, rfl⟩, ⟨_, rfl⟩, rfl⟩

theorem witness_DevicesStayCanonical :
    ({ tMid with env := tWritten.env } : State).env.devicesWf = true ∧
      ∃ t, step { tMid with env := tWritten.env } = .next t := ⟨by decide, _, rfl⟩

theorem witness_RunInvariantKept : RunInv tMid ∧ ∃ t, step tMid = .next t :=
  ⟨⟨rfl, rfl, ⟨rfl, by decide, .inl rfl, fun h => by cases h⟩, fun k l hk hl => by
    match k, hk with
    | 0, _ => cases hl; exact ⟨rfl, rfl, rfl⟩
    | 1, _ => cases hl; exact ⟨rfl, rfl, rfl⟩, rfl⟩, tMid_steps⟩

theorem witness_RunNeverStops : RunInv tMid := witness_RunInvariantKept.1

theorem witness_NoFrameBeforeFaultKept :
    let s : State := { tStart with phase := .pOpen, trace := linesEvents 0 tLines }
    NoFrameBeforeFault s ∧ ∃ t, step s = .next t := ⟨⟨rfl, fun _ => rfl⟩, _, rfl⟩

theorem witness_LinesBeforeBusKept : LinesBeforeBus tMid ∧ ∃ t, step tMid = .next t := by
  refine ⟨⟨rfl, fun h => absurd h (by decide), fun _ _ => by decide, ?_⟩, tMid_steps⟩
  have h0 : Precedes (isDelay .lineSettle) isChanOpen
      (([] ++ linesEvents 0 tLines) ++ [.delay .lineSettle 11]) :=
    precedes_append (precedes_append (precedes_nil _ _) (.inr (by decide))) (.inr (by decide))
  have h1 := precedes_append h0 (b := openEvents tParams .cnd ++ openEvents tParams .syn1 ++
    openEvents tParams .syn2 ++ tSent) (.inl (by decide))
  simpa [tMid, tOpened] using h1

theorem witness_ConfiguredBeforeTransmitKept :
    ConfiguredBeforeTransmit tMid ∧ ∃ t, step tMid = .next t := by
  refine ⟨fun c => ⟨?_, ?_, ?_, fun w => precedes_append
    (by simpa using precedes_append (precedes_nil _ _) (b := tOpened) (.inr (by cases c <;> decide)))
    (.inl (by cases c <;> cases w <;> decide))⟩, tMid_steps⟩
  all_goals cases c <;> decide

theorem witness_ChannelOrderKept : ChannelOrder tMid ∧ ∃ t, step tMid = .next t := by
  refine ⟨⟨rfl, fun c h => ?_, ?_, ?_, ?_⟩, tMid_steps⟩
  · cases c
    · exact absurd h (by decide)
    · exact absurd h (by decide)
    · decide
  all_goals
    rw [show tMid.trace = [] ++ tMid.trace from rfl]
    exact noneBefore_append (noneBefore_nil _ _) (.inr (by decide))

/-- The second clause's premise too: a transfer on channel 0 stands in the trace. -/
theorem witness_OnlyImageFramesKept :
    OnlyImageFrames tMid ∧ (∃ t, step tMid = .next t) ∧
      Event.xfer .cnd ⟨0x00, 0x02, 0x00⟩ (.ok ⟨0, 0, 0⟩) ∈ tMid.trace := by
  have key : ∀ e ∈ tMid.trace, (match e with
      | .xfer c f _ => (imageFrames tParams c).contains f
      | _ => true) = true := by decide
  refine ⟨⟨rfl, fun c f r hm => ?_⟩, tMid_steps, by decide⟩
  have := key _ hm
  show f ∈ imageFrames tParams c
  simpa using this

theorem witness_LinesNeverUndone :
    tMid.lines[1]? = some (lineDone (tLine 9 (.static true) 0)) ∧
    tMid.ops = [] ∧ tMid.phase ≠ .pLines ∧ tMid.pinReset = false ∧ ∃ t, step tMid = .next t :=
  ⟨by decide, rfl, by decide, rfl, tMid_steps⟩

theorem witness_HandleOnceKept : HandleOnce tMid ∧ ∃ t, step tMid = .next t :=
  ⟨fun c => by cases c <;> decide, tMid_steps⟩

theorem witness_BringUpRunEnds :
    let s := tAsk { Env.reset with lineExport := [.ok], lineSetDir := [.fail] }
    let u : State := { tStart with
      lines := []
      env := { Env.reset with
        chanOpen := [.ok, .ok, .ok]
        cfgSet := List.replicate 9 .ok
        cfgGet := (List.replicate 3 (cfgOrder.map fun w => .value (tChan.value w))).flatten
        xfer := [some (.ok ⟨0, 0, 0⟩), none] } }
    (AtStart s ∧ ¬SetupAnsweredOk s) ∧ (AtStart tStart ∧ SetupAnsweredOk tStart) ∧
    (AtStart u ∧ SetupAnsweredOk u) ∧
    replayAnswers .syn2 (imageFrames tParams .syn2) (envAfterSetup tStart) =
      zeroReplies tParams .syn2 ∧
    replayAnswers .cnd (imageFrames tParams .cnd) (envAfterSetup u) = [.ok ⟨0, 0, 0⟩] := by
  refine ⟨⟨⟨rfl, rfl, rfl, rfl, rfl, rfl, rfl, rfl, rfl⟩, fun h => ?_⟩,
    ⟨⟨rfl, rfl, rfl, rfl, rfl, rfl, rfl, rfl, rfl⟩, ?_⟩,
    ⟨⟨rfl, rfl, rfl, rfl, rfl, rfl, rfl, rfl, rfl⟩, ?_⟩, by decide, by decide⟩
  · exact absurd h.1.2.1 (by decide)
  · simp only [SetupAnsweredOk, linesAnsweredOk, opensAnsweredOk, cfgAnsweredOk, chanOrder, cfgOrder,
      tStart, tLines]
    decide
  · simp only [SetupAnsweredOk, linesAnsweredOk, opensAnsweredOk, cfgAnsweredOk, chanOrder, cfgOrder]
    decide

theorem witness_CleanRunTrace : AtStart tStart ∧ tStart.env.kind = .ideal :=
  ⟨⟨rfl, rfl, rfl, rfl, rfl, rfl, rfl, rfl, rfl⟩, rfl⟩

end Sys2Proof.Tests
end

section
/-!
PROOFS. The family 20_memory.md: no step writes the configuration (rule R53), and a bring-up keeps
the order of the channels (rules R51, R274).
-/

namespace Sys2Proof.Proofs.Memory

open Sys2Proof.Machine Sys2Proof.Safety Sys2Proof.Laws

/-! ### The configuration (rule R53) -/

/-- The parameters and the lines' configuration of two states are the same. -/
def SameConfig (s t : State) : Prop :=
  t.cfg = s.cfg ∧ t.lines.map Line.cfg = s.lines.map Line.cfg

theorem SameConfig.trans {s t u : State} : SameConfig s t → SameConfig t u → SameConfig s u
  | ⟨hcfg, hlines⟩, ⟨hcfg', hlines'⟩ => ⟨hcfg'.trans hcfg, hlines'.trans hlines⟩

theorem linesKept_map_cfg {xs ys : List Line} (h : LinesKept xs ys) :
    ys.map Line.cfg = xs.map Line.cfg := by
  obtain ⟨hlen, hkept⟩ := h
  refine List.ext_getElem (by simp [hlen]) fun k hy hx => ?_
  have hk : k < xs.length := by simpa using hx
  obtain ⟨l', hl', hcfg, -, -⟩ := hkept k xs[k] (List.getElem?_eq_getElem hk)
  obtain ⟨_, rfl⟩ := List.getElem?_eq_some_iff.mp hl'
  simpa using hcfg

theorem blockReset_sameConfig (s : State) : SameConfig s s.blockReset :=
  ⟨rfl, by simp [State.blockReset]⟩

theorem effect_sameConfig {s t : State} (h : Effect s t) : SameConfig s t := by
  cases h with
  | plain _ _ _ _ hcfg hl _ => exact ⟨hcfg, linesKept_map_cfg hl⟩
  | opened _ _ _ _ _ hcfg hl _ => exact ⟨hcfg, by rw [hl]⟩
  | stored _ _ _ _ _ hcfg hl _ => exact ⟨hcfg, by rw [hl]⟩
  | sent _ _ _ _ _ _ hcfg hl _ => exact ⟨hcfg, by rw [hl]⟩
  | released _ _ _ _ hcfg hl _ => exact ⟨hcfg, by rw [hl]⟩

theorem step_sameConfig {s t : State} (h : step s = .next t) : SameConfig s t := by
  rcases step_effects h with rfl | he
  · exact blockReset_sameConfig s
  · exact effects_keep (P := SameConfig s) (fun _ _ hs he => hs.trans (effect_sameConfig he)) he
      ⟨rfl, rfl⟩

/-- Settles O45: each kind of effect, and the reset input, leaves the configuration as it is. -/
theorem configurationKept : Obligations.ConfigurationKept := by
  intro s t h
  obtain ⟨hcfg, hlines⟩ : SameConfig s t := step_sameConfig h
  exact ⟨hcfg, hlines, fun c => by rw [hcfg]⟩

/-! ### The order of the channels (rules R51, R274) -/

@[simp] theorem replayedUpTo_progPhaseOf (c : Chan) : replayedUpTo (progPhaseOf c) = c.index + 1 := by
  cases c <;> rfl

@[simp] theorem replayedUpTo_settlePhaseOf (c : Chan) :
    replayedUpTo (settlePhaseOf c) = c.index + 1 := by
  cases c <;> rfl

theorem not_isXfer_of_quietEvent {e : Event} (h : quietEvent e = true) : isXfer e = false := by
  unfold quietEvent at h
  simp_all

/-- Each transfer among the events is on the channel whose replay `replayedUpTo` counts as `n`. -/
def OnlyReplayed (n : Nat) (evs : List Event) : Prop :=
  ∀ e ∈ evs, ∀ c, isXferOn c e = true → c.index + 1 = n

theorem onlyReplayed_of_noXfer (n : Nat) {evs : List Event} (h : ∀ e ∈ evs, isXfer e = false) :
    OnlyReplayed n evs := by
  intro e he c hc
  simp [isXferOn_of_isXfer (h e he) c] at hc

theorem onlyReplayed_of_quiet (n : Nat) {evs : List Event} (h : ∀ e ∈ evs, quietEvent e = true) :
    OnlyReplayed n evs :=
  onlyReplayed_of_noXfer n fun e he => not_isXfer_of_quietEvent (h e he)

theorem onlyReplayed_sent (c : Chan) (f : Frame) (r : XferRes) {evs : List Event}
    (h : ∀ e ∈ evs, quietEvent e = true) : OnlyReplayed (c.index + 1) (.xfer c f r :: evs) := by
  intro e he d hd
  rcases List.mem_cons.mp he with rfl | he
  · have : c = d := by simpa [isXferOn] using hd
    rw [this]
  · exact onlyReplayed_of_quiet _ h e he d hd

theorem OnlyReplayed.silent {n : Nat} {evs : List Event} (h : OnlyReplayed n evs) {c : Chan}
    (hc : c.index + 1 ≠ n) : ∀ e ∈ evs, isXferOn c e = false := fun e he =>
  Bool.eq_false_iff.mpr fun hx => hc (h e he c hx)

/-- A step of a bring-up run goes on in the order of the channels, and transfers only on the channel
its phase replays. -/
theorem grow_inOrder {s t : State} (h : Grow s t) :
    ∃ evs, t.trace = s.trace ++ evs ∧ OnlyReplayed (replayedUpTo s.phase) evs ∧
      replayedUpTo s.phase ≤ replayedUpTo t.phase := by
  cases h with
  | same ht hp =>
    refine ⟨[], by simpa using ht, onlyReplayed_of_noXfer _ (by simp), ?_⟩
    rcases hp with hp | ⟨hs, -⟩ | ⟨c, hs, hp⟩
    · rw [hp]
    · rw [hs]
      exact Nat.zero_le _
    · simp [hs, hp]
  | lines evs hs _ ht he =>
    refine ⟨evs, ht, onlyReplayed_of_quiet _ he, ?_⟩
    rw [hs]
    exact Nat.zero_le _
  | fatal evs hs _ ht he _ =>
    refine ⟨evs, ht, onlyReplayed_of_noXfer _ he, ?_⟩
    rcases hs with hs | hs <;> rw [hs] <;> exact Nat.zero_le _
  | settle n d ht hp =>
    refine ⟨_, ht, onlyReplayed_of_noXfer _ (by simp [isXfer]), ?_⟩
    rcases hp with ⟨hs, -, hp⟩ | ⟨hs, hp⟩ | ⟨hs, hp⟩ | ⟨hs, hp⟩ | ⟨c, -, hp⟩
    · simp [hs, hp, replayedUpTo]
    · simp [hs, hp, replayedUpTo]
    · simp [hs, hp, replayedUpTo]
    · simp [hs, hp, replayedUpTo]
    · rw [hp]
  | opening ev hs _ ht he =>
    refine ⟨_, ht, onlyReplayed_of_noXfer _ (by simpa using he), ?_⟩
    rw [hs]
    exact Nat.zero_le _
  | sent c f r evs hs hp _ ht he =>
    refine ⟨_, ht, ?_, by rw [hp]⟩
    rw [hs, replayedUpTo_progPhaseOf]
    exact onlyReplayed_sent c f r he
  | closing evs hs hp ht he =>
    refine ⟨evs, ht, onlyReplayed_of_quiet _ he, ?_⟩
    simp [hs, hp, replayedUpTo]

/-- The three order clauses as one, over any two channels. -/
theorem channelOrder_iff (s : State) : ChannelOrder s ↔ s.ops = [] ∧
    (∀ c, replayedUpTo s.phase ≤ c.index → ∀ e ∈ s.trace, isXferOn c e = false) ∧
    ∀ c d : Chan, c.index < d.index → NoneBefore (isXferOn d) (isXferOn c) s.trace := by
  refine and_congr_right fun _ => and_congr_right fun _ => ⟨?_, fun h => ?_⟩
  · rintro ⟨h01, h02, h12⟩ c d hlt
    cases c <;> cases d <;> simp [Chan.index] at hlt <;> assumption
  · exact ⟨h .cnd .syn1 (by decide), h .cnd .syn2 (by decide), h .syn1 .syn2 (by decide)⟩

/-- Transfers on the channel under replay come after those of the channels before it, which send no
more, and before those of the channels after it, which have sent nothing yet. -/
theorem channelOrder_append {s t : State} {evs : List Event} (h : ChannelOrder s) (ho : t.ops = [])
    (ht : t.trace = s.trace ++ evs) (hx : OnlyReplayed (replayedUpTo s.phase) evs)
    (hp : replayedUpTo s.phase ≤ replayedUpTo t.phase) : ChannelOrder t := by
  obtain ⟨-, hold, hord⟩ := (channelOrder_iff s).mp h
  have later : ∀ d : Chan, replayedUpTo s.phase ≤ d.index → ∀ e ∈ evs, isXferOn d e = false :=
    fun d hd => hx.silent (by omega)
  refine (channelOrder_iff t).mpr ⟨ho, fun d hd e he => ?_, fun c d hlt => ?_⟩
  · have hd := hp.trans hd
    rw [ht] at he
    exact (List.mem_append.mp he).elim (hold d hd e) (later d hd e)
  · rw [ht]
    refine noneBefore_append (hord c d hlt) ?_
    by_cases hc : c.index + 1 = replayedUpTo s.phase
    · exact .inr ⟨hold d (by omega), later d (by omega)⟩
    · exact .inl (hx.silent hc)

/-- The reset input leaves an empty trace. -/
theorem channelOrder_blockReset {s : State} (ho : s.ops = []) : ChannelOrder s.blockReset :=
  ⟨ho, fun _ _ _ he => absurd he List.not_mem_nil, noneBefore_nil _ _, noneBefore_nil _ _,
    noneBefore_nil _ _⟩

/-- Settles O53: a step transfers only on the channel its phase replays, and the phases take the
channels in order. -/
theorem channelOrderKept : Obligations.ChannelOrderKept := by
  intro s t h hstep
  have ho : s.ops = [] := h.1
  obtain ⟨-, hops, rfl | hg⟩ := step_growth ho hstep
  · exact channelOrder_blockReset ho
  · obtain ⟨evs, ht, hx, hp⟩ := grow_inOrder hg
    exact channelOrder_append h (hops.trans ho) ht hx hp

end Sys2Proof.Proofs.Memory
end

section
/-!
PROOFS. The statements about the bus transport (40_bus_transport.md).
-/

namespace Sys2Proof.Proofs.Transport

open Sys2Proof.Machine Sys2Proof.Laws

/-- Nothing stops `T.CLOSE` exactly on an open channel (the precondition of rule R107). -/
theorem closeStop_eq_none_iff {c : Chan} {s : State} :
    closeStop c s = none ↔ (s.ch.get c).isOpen = true := by
  unfold closeStop
  split
  · next hopen => exact iff_of_true rfl hopen
  · next hopen => exact iff_of_false (Option.some_ne_none _) hopen

/-- `T.CLOSE` is its guarded effect (rule R107). -/
theorem exec_tClose (c : Chan) (s : State) :
    exec (.tClose c) s = guarded (closeStop c s) (s.closeCh c) := rfl

/-- Settles O15: the precondition holds, and the effect `closeCh` is the stated update. -/
theorem closeResult : Obligations.CloseResult := by
  intro c s hopen
  have hstop : closeStop c s = none := closeStop_eq_none_iff.mpr hopen
  calc exec (.tClose c) s = guarded (closeStop c s) (s.closeCh c) := exec_tClose c s
    _ = .next (s.closeCh c) := guarded_next_iff.mpr ⟨hstop, rfl⟩
    _ = _ := rfl

end Sys2Proof.Proofs.Transport
end

section
/-!
PROOFS. The statements about the reset and enable sequencer (44_reset_enable_sequencer.md).
-/

namespace Sys2Proof.Proofs.ResetEnable

open Sys2Proof.Machine Sys2Proof.Safety Sys2Proof.Laws

/-! ### No line is undone (rule R189) -/

theorem LineKept.trans {l m n : Line} : LineKept l m → LineKept m n → LineKept l n
  | ⟨hcfg, hexp, hdir⟩, ⟨hcfg', hexp', hdir'⟩ =>
    ⟨hcfg'.trans hcfg, fun h => hexp' (hexp h), fun h => hdir' (hdir h)⟩

theorem LinesKept.trans {xs ys zs : List Line} : LinesKept xs ys → LinesKept ys zs → LinesKept xs zs
  | ⟨hlen, hkept⟩, ⟨hlen', hkept'⟩ => by
    refine ⟨hlen'.trans hlen, fun k l hl => ?_⟩
    obtain ⟨m, hm, hlm⟩ := hkept k l hl
    obtain ⟨n, hn, hmn⟩ := hkept' k m hm
    exact ⟨n, hn, LineKept.trans hlm hmn⟩

theorem LinesKept.map {f : Line → Line} (hf : ∀ l, LineKept l (f l)) (xs : List Line) :
    LinesKept xs (xs.map f) :=
  ⟨List.length_map f, fun _ l hl => ⟨f l, by rw [List.getElem?_map, hl]; rfl, hf l⟩⟩

/-- The reset input clears only the flags of the run (rule R262, log 14). -/
theorem blockReset_linesKept (s : State) : LinesKept s.lines s.blockReset.lines :=
  LinesKept.map (f := fun l => { l with exportedNow := false, dirNow := false })
    (fun _ => ⟨rfl, id, id⟩) s.lines

theorem effect_linesKept {s t : State} (h : Effect s t) : LinesKept s.lines t.lines := by
  cases h with
  | plain _ _ _ _ _ hl _ => exact hl
  | opened _ _ _ _ _ _ hl _ => exact hl ▸ LinesKept.refl _
  | stored _ _ _ _ _ _ hl _ => exact hl ▸ LinesKept.refl _
  | sent _ _ _ _ _ _ _ hl _ => exact hl ▸ LinesKept.refl _
  | released _ _ _ _ _ hl _ => exact hl ▸ LinesKept.refl _

theorem step_linesKept {s t : State} (h : step s = .next t) : LinesKept s.lines t.lines := by
  rcases step_effects h with rfl | he
  · exact blockReset_linesKept s
  · exact effects_keep (P := fun u => LinesKept s.lines u.lines)
      (fun _ _ hs he => LinesKept.trans hs (effect_linesKept he)) he (LinesKept.refl _)

/-! ### The phases that leave the lines alone (rule R189) -/

theorem nextChannel_lines (s : State) : s.nextChannel.lines = s.lines := by
  unfold State.nextChannel
  split <;> rfl

theorem afterCfg_lines (w : CfgWhich) (s : State) : (afterCfg w s).lines = s.lines := by
  cases w with
  | mode => rfl
  | bits => rfl
  | hz => exact nextChannel_lines s

theorem execPReset_lines {s t : State} (h : exec .pReset s = .next t) : t.lines = s.lines := by
  rcases execPReset_cases h with ⟨-, rfl⟩ | ⟨-, -, rfl⟩
  · rfl
  · rfl

theorem execPOpen_lines {s t : State} (h : exec .pOpen s = .next t) : t.lines = s.lines := by
  rcases execPOpen_cases h with ⟨-, -, -, rfl⟩ | ⟨-, -, -, rfl⟩ | ⟨w, -, -, rfl⟩ | ⟨w, r, -, -, -, rfl⟩
  · rfl
  · rfl
  · exact afterCfg_lines w _
  · rfl

theorem execProg_lines {s t : State} (c : Chan) (h : exec (progPhaseOf c).instr s = .next t) :
    t.lines = s.lines := by
  rcases execProg_cases c h with ⟨-, -, rfl⟩ | ⟨-, rfl⟩ |
    ⟨-, -, -, f, a, d, w, -, ⟨-, rfl⟩ | ⟨r, x, -, rfl⟩⟩
  · rfl
  · rfl
  · rfl
  · rfl

theorem execPClose_lines {s t : State} (h : exec .pClose s = .next t) : t.lines = s.lines := by
  rw [execPClose_eq] at h
  cases h
  rfl

/-- Of the phases, only `P_LINES` writes a line. -/
theorem execPhase_lines {p : Phase} {s t : State} (hp : p ≠ .pLines) (h : exec p.instr s = .next t) :
    t.lines = s.lines := by
  cases p with
  | pReset => exact execPReset_lines h
  | pLines => exact absurd rfl hp
  | pLineSettle =>
    cases h
    rfl
  | pOpen => exact execPOpen_lines h
  | pProgCnd => exact execProg_lines .cnd h
  | pSettleCnd =>
    cases h
    rfl
  | pProgSyn1 => exact execProg_lines .syn1 h
  | pSettleSyn1 =>
    cases h
    rfl
  | pProgSyn2 => exact execProg_lines .syn2 h
  | pSettleSyn2 =>
    cases h
    rfl
  | pClose => exact execPClose_lines h
  | pDone =>
    cases h
    rfl
  | pFault =>
    cases h
    rfl

/-- A bring-up step outside `P_LINES`, other than the reset input, leaves every line as it is. -/
theorem step_lines {s t : State} (ho : s.ops = []) (hp : s.phase ≠ .pLines)
    (hr : s.pinReset = false) (h : step s = .next t) : t.lines = s.lines := by
  rcases step_cases_run ho h with ⟨hreset, -⟩ | ⟨-, -, rfl⟩ | ⟨-, -, hexec⟩
  · rw [hr] at hreset
    cases hreset
  · rfl
  · exact execPhase_lines hp hexec

/-- Settles O55: each kind of effect and the reset input keep what was done to a line, and of the
phases only `P_LINES` touches one. -/
theorem linesNeverUndone : Obligations.LinesNeverUndone :=
  ⟨fun _ _ h => step_linesKept h, fun _ _ ho hp hr h => step_lines ho hp hr h⟩

end Sys2Proof.Proofs.ResetEnable
end

section
/-!
PROOFS. The statements about the bring-up's phases (45_bringup_fsm.md).
-/

namespace Sys2Proof.Proofs.BringUp

open Sys2Proof.Machine

/-! ### The settle phases: one named delay, then the next phase (rules R204, R207, R209) -/

theorem delay_enter_eq (s : State) (n : DelayName) (d : Nat) (p : Phase) :
    (s.delay n d).enter p = { s with trace := s.trace ++ [.delay n d], sub := .s0, phase := p } := rfl

theorem delay_enterProg_eq (s : State) (n : DelayName) (d : Nat) (p : Phase) :
    (s.delay n d).enterProg p =
      { s with trace := s.trace ++ [.delay n d], idx := 0, sub := .s0, phase := p } := rfl

theorem exec_pLineSettle (s : State) : exec .pLineSettle s =
    .next { (s.delay .lineSettle s.cfg.tLineSettle).enter .pOpen with ci := .cnd } := rfl

theorem exec_pSettleCnd (s : State) : exec .pSettleCnd s =
    .next ((s.delay .postCnd s.cfg.tPostCnd).enterProg .pProgSyn1) := rfl

theorem exec_pSettleSyn1 (s : State) : exec .pSettleSyn1 s =
    .next ((s.delay .interDev s.cfg.tInterDev).enterProg .pProgSyn2) := rfl

/-- Settles O34: the line settle's delay, then `P_OPEN` entered with `ci` at the conditioner. -/
theorem lineSettleResult : Obligations.LineSettleResult := by
  intro s
  rw [exec_pLineSettle, delay_enter_eq]

/-- Settles O38: each settle is its delay followed by the entry of the next replay phase. -/
theorem settlePhasesResult : Obligations.SettlePhasesResult := by
  intro s
  constructor
  · rw [exec_pSettleCnd, delay_enterProg_eq]
  · rw [exec_pSettleSyn1, delay_enterProg_eq]

end Sys2Proof.Proofs.BringUp
end

section
/-!
PROOFS. The statements about reset and the hazards (70_reset_and_hazards.md): no frame goes on a channel
before its three verified configuration steps (rule R271), and the values after reset (rule R260).
-/

namespace Sys2Proof.Proofs.ResetHazards

open Sys2Proof.Machine Sys2Proof.Safety Sys2Proof.Laws

/-! ### What a channel holds -/

/-- The channel holds a value for the configuration step. -/
def holds (h : Channel) : CfgWhich → Bool
  | .mode => h.mode.isSome
  | .bits => h.bits.isSome
  | .hz => h.hz.isSome

@[simp] theorem holds_fresh (w : CfgWhich) : holds .fresh w = false := by
  cases w <;> rfl

@[simp] theorem holds_open (h : Channel) (b : Bool) (i : Option Nat) (w : CfgWhich) :
    holds { h with isOpen := b, iwd := i } w = holds h w := by
  cases w <;> rfl

@[simp] theorem holds_released (h : Channel) (w : CfgWhich) : holds (released h) w = holds h w :=
  holds_open h false h.iwd w

/-- Storing the value of one step leaves what is held for the others. -/
@[simp] theorem holds_store (h : Channel) (p : ChanCfg) (v w : CfgWhich) :
    holds (h.store (p.value v)) w = (w == v || holds h w) := by
  cases v <;> cases w <;> rfl

/-- A configured channel holds a value for each of the three steps (rule R21). -/
theorem holds_of_configured {s : State} {c : Chan} (h : s.configured c = true) (w : CfgWhich) :
    holds (s.ch.get c) w = true := by
  simp only [State.configured, channelConfigured, Bool.and_eq_true, beq_iff_eq] at h
  obtain ⟨⟨⟨-, hmode⟩, hbits⟩, hhz⟩ := h
  cases w <;> simp [holds, hmode, hbits, hhz]

/-! ### Configure before transmit (rule R271) -/

/-- The four clauses of a channel as two, over any configuration step. -/
theorem configuredBeforeTransmit_iff (s : State) : ConfiguredBeforeTransmit s ↔ ∀ c w,
    (holds (s.ch.get c) w = true → ∃ e ∈ s.trace, isVerified c w e = true) ∧
      Precedes (isVerified c w) (isXferOn c) s.trace := by
  refine forall_congr' fun c => ⟨?_, fun h => ?_⟩
  · rintro ⟨hmode, hbits, hhz, hprec⟩ w
    refine ⟨?_, hprec w⟩
    cases w with
    | mode => exact hmode
    | bits => exact hbits
    | hz => exact hhz
  · exact ⟨(h .mode).1, (h .bits).1, (h .hz).1, fun w => (h w).2⟩

/-- The two ways a step could break the rule, excluded: a value that is newly held has its verified event
among the new ones, and a channel with a new transfer was configured. -/
def Accounted (s t : State) (evs : List Event) : Prop :=
  (∀ c w, holds (t.ch.get c) w = true →
    holds (s.ch.get c) w = true ∨ ∃ e ∈ evs, isVerified c w e = true) ∧
  ∀ c, s.configured c = true ∨ ∀ e ∈ evs, isXferOn c e = false

theorem accounted_append {s t : State} {evs : List Event} (h : ConfiguredBeforeTransmit s)
    (ht : t.trace = s.trace ++ evs) (ha : Accounted s t evs) : ConfiguredBeforeTransmit t := by
  rw [configuredBeforeTransmit_iff] at h ⊢
  obtain ⟨hheld, hsent⟩ := ha
  intro c w
  obtain ⟨hver, hprec⟩ := h c w
  rw [ht]
  refine ⟨fun hw => ?_, precedes_append hprec ?_⟩
  · rcases hheld c w hw with hold | ⟨e, he, hv⟩
    · obtain ⟨e, he, hv⟩ := hver hold
      exact ⟨e, List.mem_append_left _ he, hv⟩
    · exact ⟨e, List.mem_append_right _ he, hv⟩
  · exact (hsent c).imp_left fun hc => hver (holds_of_configured hc w)

/-- Where each channel holds what it held and nothing is sent, nothing is to be accounted for. -/
theorem accounted_of_held {s t : State} {evs : List Event}
    (hch : ∀ c w, holds (t.ch.get c) w = holds (s.ch.get c) w)
    (hx : ∀ e ∈ evs, ∀ c, isXferOn c e = false) : Accounted s t evs :=
  ⟨fun c w hw => .inl (hch c w ▸ hw), fun c => .inr fun e he => hx e he c⟩

/-- Writing a channel with one that holds the same values leaves what each channel holds. -/
theorem holds_get_set {ch : Three Channel} {c : Chan} {h : Channel}
    (hh : ∀ w, holds h w = holds (ch.get c) w) (d : Chan) (w : CfgWhich) :
    holds ((ch.set c h).get d) w = holds (ch.get d) w := by
  rw [three_get_set]
  split
  · next hd => rw [hd, hh w]
  · rfl

theorem isXferOn_of_isPlain {e : Event} (h : isPlain e = true) (c : Chan) : isXferOn c e = false := by
  refine isXferOn_of_isXfer ?_ c
  cases e with
  | xfer _ _ _ => exact absurd h Bool.false_ne_true
  | _ => rfl

/-- A configuration step stores one value, with its verified event. -/
theorem accounted_stored {s t : State} {c : Chan} {w : CfgWhich} {v : CfgVal}
    (hch : t.ch = s.ch.set c ((s.ch.get c).store ((s.cfg.chans.get c).value w))) :
    Accounted s t [.cfg c w v .verified] := by
  refine ⟨fun d u hu => ?_, fun d => .inr (by simp [isXferOn])⟩
  rw [hch, three_get_set] at hu
  split at hu
  · next hd =>
    subst hd
    simp only [holds_store, Bool.or_eq_true, beq_iff_eq] at hu
    rcases hu with rfl | hold
    · exact .inr ⟨_, List.mem_singleton_self _, by simp [isVerified]⟩
    · exact .inl hold
  · exact .inl hu

/-- A transfer is on a configured channel (rule R106). -/
theorem accounted_sent {s t : State} {c : Chan} {f : Frame} {r : XferRes}
    (hc : s.configured c = true) (hch : t.ch = s.ch) : Accounted s t [.xfer c f r] := by
  refine ⟨fun d w hw => .inl (hch ▸ hw), fun d => ?_⟩
  by_cases hd : c = d
  · exact .inl (hd ▸ hc)
  · exact .inr (by simp [isXferOn, hd])

theorem effect_accounted {s t : State} (h : Effect s t) :
    ∃ evs, t.trace = s.trace ++ evs ∧ Accounted s t evs := by
  cases h with
  | plain evs he ht hch =>
    exact ⟨evs, ht, accounted_of_held (fun _ _ => by rw [hch]) fun e hm => isXferOn_of_isPlain (he e hm)⟩
  | opened c _ _ ht hch =>
    refine ⟨_, ht, accounted_of_held (fun d w => ?_) (by simp [isXferOn])⟩
    rw [hch]
    exact holds_get_set (holds_open _ _ _) d w
  | stored c w _ ht hch => exact ⟨_, ht, accounted_stored hch⟩
  | sent c f r hc ht hch => exact ⟨_, ht, accounted_sent hc hch⟩
  | released c _ ht hch =>
    refine ⟨_, ht, accounted_of_held (fun d w => ?_) (by simp [isXferOn])⟩
    rw [hch]
    exact holds_get_set (holds_released _) d w

theorem effect_configuredBeforeTransmit (s t : State) (h : ConfiguredBeforeTransmit s)
    (he : Effect s t) : ConfiguredBeforeTransmit t := by
  obtain ⟨evs, ht, ha⟩ := effect_accounted he
  exact accounted_append h ht ha

@[simp] theorem blockReset_ch_get (s : State) (c : Chan) : s.blockReset.ch.get c = .fresh := by
  cases c <;> rfl

/-- The reset input leaves channels that hold nothing and an empty trace. -/
theorem blockReset_configuredBeforeTransmit (s : State) : ConfiguredBeforeTransmit s.blockReset :=
  (configuredBeforeTransmit_iff _).mpr fun c w => ⟨fun h => by simp at h, precedes_nil _ _⟩

/-- Settles O52: of the effects only a transfer sends, on a channel that is configured, and only a
configuration step makes a channel hold a value, with its verified event. -/
theorem configuredBeforeTransmitKept : Obligations.ConfiguredBeforeTransmitKept := by
  intro s t h hstep
  rcases step_effects hstep with rfl | he
  · exact blockReset_configuredBeforeTransmit s
  · exact effects_keep effect_configuredBeforeTransmit he h

/-! ### The state after reset (rule R260) -/

@[simp] theorem reset_ch_get (c : Chan) : State.reset.ch.get c = .fresh := by
  cases c <;> rfl

/-- Settles O43: the registers, the status and the trace, then the three channels, each fresh. -/
theorem resetStateValues : Obligations.ResetStateValues :=
  ⟨rfl, rfl, rfl, rfl, rfl, rfl, rfl, rfl, rfl, rfl, rfl, reset_ch_get⟩

end Sys2Proof.Proofs.ResetHazards
end

section
/-!
PROOFS. The codecs (30_encoding.md, 41_codec_conditioner.md, 42_codec_synthesizer.md): what a field of an
encoded frame is, as bits and as a number, and the statements about the codecs and the decoder.
-/

namespace Sys2Proof.Proofs.Codec

open Sys2Proof.Machine Sys2Proof.Safety

theorem frame_ext {f g : Frame} (h0 : f.b0 = g.b0) (h1 : f.b1 = g.b1) (h2 : f.b2 = g.b2) : f = g := by
  cases f
  cases g
  rw [Frame.mk.injEq]
  exact ⟨h0, h1, h2⟩

/-! ### The conditioner's fields (rules R71, R78) -/

@[simp] theorem cndRw_cndFrame (rw : BitVec 1) (a : BitVec 13) (d : Byte) :
    cndRw (cndFrame rw a d) = rw :=
  (BitVec.extractLsb'_append_eq_of_le (by decide)).trans BitVec.extractLsb'_append_eq_left

@[simp] theorem cndRsv_cndFrame (rw : BitVec 1) (a : BitVec 13) (d : Byte) :
    cndRsv (cndFrame rw a d) = 0#2 :=
  (BitVec.extractLsb'_append_eq_of_le (by decide)).trans BitVec.extractLsb'_append_eq_right

@[simp] theorem cndAddr_cndFrame (rw : BitVec 1) (a : BitVec 13) (d : Byte) :
    cndAddr (cndFrame rw a d) = a :=
  calc cndAddr (cndFrame rw a d)
    _ = a.extractLsb' 8 5 ++ a.extractLsb' 0 8 :=
      congrArg (· ++ a.extractLsb' 0 8) BitVec.extractLsb'_append_eq_right
    _ = a := BitVec.extractLsb'_append_extractLsb'

@[simp] theorem cndData_cndFrame (rw : BitVec 1) (a : BitVec 13) (d : Byte) :
    cndData (cndFrame rw a d) = d := rfl

/-- A frame with its reserved bits clear is the frame of its fields. -/
theorem cndFrame_fields {f : Frame} (h : cndRsv f = 0#2) :
    cndFrame (cndRw f) (cndAddr f) (cndData f) = f := by
  refine frame_ext ?_ BitVec.extractLsb'_append_eq_right rfl
  calc cndRw f ++ 0#2 ++ (cndAddr f).extractLsb' 8 5
    _ = cndRw f ++ cndRsv f ++ f.b0.extractLsb' 0 5 := by
      rw [h, show (cndAddr f).extractLsb' 8 5 = f.b0.extractLsb' 0 5 from
        BitVec.extractLsb'_append_eq_left]
    _ = f.b0.extractLsb' 5 3 ++ f.b0.extractLsb' 0 5 :=
      congrArg (· ++ f.b0.extractLsb' 0 5) (BitVec.extractLsb'_append_extractLsb'_eq_extractLsb' rfl)
    _ = f.b0 := BitVec.extractLsb'_append_extractLsb'

/-- The top bit of byte 0 is the read/write bit. -/
theorem topBit_eq_cndRw (f : Frame) : f.b0.getLsbD 7 = (cndRw f == 1#1) :=
  BitVec.getLsbD_eq_extractLsb' f.b0 7

@[simp] theorem cndRw_cndEncWr (a : BitVec 13) (d : Byte) : cndRw (cndEncWr a d) = 0#1 :=
  cndRw_cndFrame _ a d

@[simp] theorem cndRsv_cndEncWr (a : BitVec 13) (d : Byte) : cndRsv (cndEncWr a d) = 0#2 :=
  cndRsv_cndFrame _ a d

@[simp] theorem cndAddr_cndEncWr (a : BitVec 13) (d : Byte) : cndAddr (cndEncWr a d) = a :=
  cndAddr_cndFrame _ a d

@[simp] theorem cndData_cndEncWr (a : BitVec 13) (d : Byte) : cndData (cndEncWr a d) = d := rfl

@[simp] theorem cndRw_cndEncRd (a : BitVec 13) : cndRw (cndEncRd a) = 1#1 := cndRw_cndFrame _ a _

@[simp] theorem cndRsv_cndEncRd (a : BitVec 13) : cndRsv (cndEncRd a) = 0#2 := cndRsv_cndFrame _ a _

@[simp] theorem cndAddr_cndEncRd (a : BitVec 13) : cndAddr (cndEncRd a) = a := cndAddr_cndFrame _ a _

@[simp] theorem cndData_cndEncRd (a : BitVec 13) : cndData (cndEncRd a) = 0#8 := rfl

/-- A frame with its reserved bits clear and its read/write bit 0 is the write of its fields. -/
theorem cndEncWr_fields {f : Frame} (hrsv : cndRsv f = 0#2) (hrw : cndRw f = 0#1) :
    cndEncWr (cndAddr f) (cndData f) = f :=
  calc cndEncWr (cndAddr f) (cndData f)
    _ = cndFrame (cndRw f) (cndAddr f) (cndData f) := by rw [hrw]; rfl
    _ = f := cndFrame_fields hrsv

/-- A frame with its reserved bits clear, its read/write bit 1 and a zero third byte is the read of its
address. -/
theorem cndEncRd_fields {f : Frame} (hrsv : cndRsv f = 0#2) (hrw : cndRw f = 1#1)
    (hd : cndData f = 0#8) : cndEncRd (cndAddr f) = f :=
  calc cndEncRd (cndAddr f)
    _ = cndFrame (cndRw f) (cndAddr f) (cndData f) := by rw [hrw, hd]; rfl
    _ = f := cndFrame_fields hrsv

theorem cndFrameValid_iff (f : Frame) : cndFrameValid f = true ↔
    cndRsv f = 0#2 ∧ (cndRw f = 0#1 ∨ cndData f = 0#8) := by
  simp [cndFrameValid, Config.cndRwWrite]

/-! ### The synthesizer's fields (rules R74, R79) -/

@[simp] theorem synJoin_synSplit (w : Word24) : synJoin (synSplit w) = w :=
  calc synJoin (synSplit w)
    _ = w.extractLsb' 8 16 ++ w.extractLsb' 0 8 :=
      congrArg (· ++ w.extractLsb' 0 8) (BitVec.extractLsb'_append_extractLsb'_eq_extractLsb' rfl)
    _ = w := BitVec.extractLsb'_append_extractLsb'

@[simp] theorem synSplit_synJoin (f : Frame) : synSplit (synJoin f) = f :=
  frame_ext ((BitVec.extractLsb'_append_eq_of_le (by decide)).trans BitVec.extractLsb'_append_eq_left)
    ((BitVec.extractLsb'_append_eq_of_le (by decide)).trans BitVec.extractLsb'_append_eq_right)
    BitVec.extractLsb'_append_eq_right

@[simp] theorem synPack_fields (w : Word24) : synPack (synRw w) (synAddr w) (synData w) = w :=
  calc synPack (synRw w) (synAddr w) (synData w)
    _ = w.extractLsb' 16 8 ++ synData w :=
      congrArg (· ++ synData w) (BitVec.extractLsb'_append_extractLsb'_eq_extractLsb' rfl)
    _ = w := BitVec.extractLsb'_append_extractLsb'

@[simp] theorem synRw_synPack (rw : BitVec 1) (a : BitVec 7) (d : BitVec 16) :
    synRw (synPack rw a d) = rw :=
  (BitVec.extractLsb'_append_eq_of_le (by decide)).trans BitVec.extractLsb'_append_eq_left

@[simp] theorem synAddr_synPack (rw : BitVec 1) (a : BitVec 7) (d : BitVec 16) :
    synAddr (synPack rw a d) = a :=
  (BitVec.extractLsb'_append_eq_of_le (by decide)).trans BitVec.extractLsb'_append_eq_right

@[simp] theorem synData_synPack (rw : BitVec 1) (a : BitVec 7) (d : BitVec 16) :
    synData (synPack rw a d) = d :=
  BitVec.extractLsb'_append_eq_right

/-- A word's frame, with its first byte in one piece. -/
theorem synSplit_synPack (rw : BitVec 1) (a : BitVec 7) (d : BitVec 16) :
    synSplit (synPack rw a d) = ⟨rw ++ a, d.extractLsb' 8 8, d.extractLsb' 0 8⟩ :=
  frame_ext BitVec.extractLsb'_append_eq_left
    (BitVec.extractLsb'_append_eq_of_add_le (xhi := rw ++ a) (xlo := d) (start := 8) (len := 8) (by decide))
    (BitVec.extractLsb'_append_eq_of_add_le (xhi := rw ++ a) (xlo := d) (start := 0) (len := 8) (by decide))

theorem synRw_synJoin (f : Frame) : synRw (synJoin f) = f.b0.extractLsb' 7 1 :=
  (BitVec.extractLsb'_append_eq_of_le (by decide)).trans
    (BitVec.extractLsb'_append_eq_of_le (by decide))

/-- The top bit of byte 0 is the word's read/write bit. -/
theorem topBit_eq_synRw (f : Frame) : f.b0.getLsbD 7 = (synRw (synJoin f) == 1#1) := by
  rw [BitVec.getLsbD_eq_extractLsb', synRw_synJoin]

/-! ### The codecs' laws -/

/-- Settles O3: the fields of an encoded frame, and the frame of the fields. -/
theorem conditionerCodecRoundTrip : Obligations.ConditionerCodecRoundTrip := by
  refine ⟨fun a d => by simp, fun a => by simp, fun a a' d d' h => ?_, fun f hv htop => ?_⟩
  · constructor
    · simpa using congrArg cndAddr h
    · simpa using congrArg cndData h
  · obtain ⟨hrsv, -⟩ := (cndFrameValid_iff f).mp hv
    have hrw : cndRw f ≠ 1#1 := by
      rw [topBit_eq_cndRw] at htop
      simpa using htop
    exact cndEncWr_fields hrsv ((BitVec.eq_zero_or_eq_one _).resolve_right hrw)

/-- Settles O4: split and join, pack and fields are inverse to each other. -/
theorem synthesizerCodecBijection : Obligations.SynthesizerCodecBijection :=
  ⟨synJoin_synSplit, synSplit_synJoin, synPack_fields, fun rw a d => by simp,
    Function.bijective_iff_has_inverse.mpr ⟨synJoin, synJoin_synSplit, synSplit_synJoin⟩⟩

/-- Settles O5: a valid frame is the write, or with a zero third byte the read, of its fields. -/
theorem validFramesAreTheEncoded : Obligations.ValidFramesAreTheEncoded := by
  intro f
  rw [cndFrameValid_iff]
  constructor
  · rintro ⟨hrsv, hrw | hd⟩
    · exact ⟨cndAddr f, cndData f, .inl (cndEncWr_fields hrsv hrw).symm⟩
    · rcases BitVec.eq_zero_or_eq_one (cndRw f) with hrw | hrw
      · exact ⟨cndAddr f, cndData f, .inl (cndEncWr_fields hrsv hrw).symm⟩
      · exact ⟨cndAddr f, 0#8, .inr (cndEncRd_fields hrsv hrw hd).symm⟩
  · rintro ⟨a, d, rfl | rfl⟩
    · exact ⟨cndRsv_cndEncWr a d, .inl (cndRw_cndEncWr a d)⟩
    · exact ⟨cndRsv_cndEncRd a, .inr rfl⟩

/-! ### The fields as numbers -/

theorem toNat_append_eq {m n : Nat} (x : BitVec m) (y : BitVec n) :
    (x ++ y).toNat = x.toNat * 2 ^ n + y.toNat := by
  rw [BitVec.toNat_append, ← Nat.shiftLeft_add_eq_or_of_lt y.isLt, Nat.shiftLeft_eq]

theorem toNat_extract {n : Nat} (s m : Nat) (x : BitVec n) :
    (x.extractLsb' s m).toNat = x.toNat / 2 ^ s % 2 ^ m := by
  rw [BitVec.extractLsb'_toNat, Nat.shiftRight_eq_div_pow]

theorem word24_toNat (f : Frame) :
    (word24 f).toNat = f.b0.toNat * 65536 + f.b1.toNat * 256 + f.b2.toNat := by
  rw [word24, toNat_append_eq, toNat_append_eq]
  omega

theorem cndFrame_b0_toNat (rw : BitVec 1) (a : BitVec 13) (d : Byte) :
    (cndFrame rw a d).b0.toNat = rw.toNat * 128 + a.toNat / 256 := by
  have ha := a.isLt
  rw [cndFrame, toNat_append_eq, toNat_append_eq, toNat_extract, BitVec.toNat_ofNat]
  omega

theorem cndFrame_b1_toNat (rw : BitVec 1) (a : BitVec 13) (d : Byte) :
    (cndFrame rw a d).b1.toNat = a.toNat % 256 := by
  rw [cndFrame, toNat_extract]
  omega

theorem cndRw_toNat (f : Frame) : (cndRw f).toNat = f.b0.toNat / 128 := by
  have h := f.b0.isLt
  rw [cndRw, toNat_extract]
  omega

theorem cndRsv_toNat (f : Frame) : (cndRsv f).toNat = f.b0.toNat / 32 % 4 := toNat_extract 5 2 f.b0

theorem cndAddr_toNat (f : Frame) : (cndAddr f).toNat = f.b0.toNat % 32 * 256 + f.b1.toNat := by
  rw [cndAddr, toNat_append_eq, toNat_extract]
  omega

theorem cndRsv_eq_zero_iff (f : Frame) : cndRsv f = 0#2 ↔ f.b0.toNat / 32 % 4 = 0 := by
  rw [← cndRsv_toNat]
  exact BitVec.toNat_inj.symm

theorem cndRw_eq_zero_iff (f : Frame) : cndRw f = 0#1 ↔ f.b0.toNat < 128 := by
  rw [← BitVec.toNat_inj, cndRw_toNat, BitVec.toNat_ofNat]
  omega

theorem synSplit_b0_toNat (w : Word24) : (synSplit w).b0.toNat = w.toNat / 65536 := by
  have h := w.isLt
  rw [synSplit, toNat_extract]
  omega

theorem synSplit_b1_toNat (w : Word24) : (synSplit w).b1.toNat = w.toNat / 256 % 256 :=
  toNat_extract 8 8 w

theorem synSplit_b2_toNat (w : Word24) : (synSplit w).b2.toNat = w.toNat % 256 := by
  rw [synSplit, toNat_extract]
  omega

theorem synRw_toNat (w : Word24) : (synRw w).toNat = w.toNat / 8388608 := by
  have h := w.isLt
  rw [synRw, toNat_extract]
  omega

theorem synAddr_toNat (w : Word24) : (synAddr w).toNat = w.toNat / 65536 % 128 := toNat_extract 16 7 w

theorem synData_toNat (w : Word24) : (synData w).toNat = w.toNat % 65536 := by
  rw [synData, toNat_extract]
  omega

theorem synPack_toNat (rw : BitVec 1) (a : BitVec 7) (d : BitVec 16) :
    (synPack rw a d).toNat = rw.toNat * 8388608 + a.toNat * 65536 + d.toNat := by
  rw [synPack, toNat_append_eq, toNat_append_eq]
  omega

/-! ### The codec operations -/

/-- Settles O8: the frame's bytes as numbers, from the operands' named bits. -/
theorem conditionerEncodersResult : Obligations.ConditionerEncodersResult := by
  intro a d s
  constructor
  · refine ⟨cndEncWr (a.setWidth 13) (d.setWidth 8), rfl, ?_⟩
    simp only [word24_toNat, cndEncWr, cndFrame_b0_toNat, cndFrame_b1_toNat, Config.cndRwWrite]
    simp only [cndFrame, BitVec.toNat_setWidth, BitVec.toNat_ofNat, true_and]
    omega
  · refine ⟨cndEncRd (a.setWidth 13), rfl, ?_⟩
    simp only [word24_toNat, cndEncRd, cndFrame_b0_toNat, cndFrame_b1_toNat, Config.cndRwRead]
    simp only [cndFrame, BitVec.toNat_setWidth, BitVec.toNat_ofNat]
    exact ⟨by omega, by omega, rfl, by omega⟩

/-- Settles O9: the fields as numbers, and validity from the reserved bits, the read/write bit and the
third byte. -/
theorem conditionerParseResult : Obligations.ConditionerParseResult := by
  intro f s
  refine ⟨⟨_, _, _, _, _, rfl, cndRw_toNat f, cndRsv_toNat f, cndAddr_toNat f, rfl, ?_⟩, rfl⟩
  rw [cndFrameValid_iff, cndRsv_eq_zero_iff, cndRw_eq_zero_iff]
  rfl

/-- Settles O10: the bytes, the word and the fields as numbers. -/
theorem synthesizerCodecResult : Obligations.SynthesizerCodecResult := by
  intro w g rw addr data s
  refine ⟨⟨_, rfl, ?_⟩, ⟨_, rfl, word24_toNat g⟩, ⟨_, _, _, rfl, ?_⟩, ⟨_, rfl, ?_⟩⟩
  · rw [synSplit_b0_toNat, synSplit_b1_toNat, synSplit_b2_toNat, BitVec.toNat_setWidth]
    omega
  · rw [synRw_toNat, synAddr_toNat, synData_toNat, BitVec.toNat_setWidth]
    omega
  · rw [synPack_toNat, BitVec.toNat_setWidth, BitVec.toNat_setWidth]

/-! ### The decoder on frames -/

theorem decodeCnd_reserved {f : Frame} (h : cndRsv f ≠ 0#2) : decodeCnd f = .error .reservedBits :=
  if_pos h

theorem decodeCnd_write {f : Frame} (hrsv : cndRsv f = 0#2) (hrw : cndRw f = 0#1) :
    decodeCnd f = .ok (.cndWr (cndAddr f) (cndData f)) := by
  simp [decodeCnd, hrsv, hrw, Config.cndRwWrite]

theorem decodeCnd_read {f : Frame} (hrsv : cndRsv f = 0#2) (hrw : cndRw f = 1#1) :
    decodeCnd f = .ok (.cndRd (cndAddr f)) := by
  simp [decodeCnd, hrsv, hrw, Config.cndRwWrite]

theorem decodeSyn_write {f : Frame} (n : SynChan) (h : synRw (synJoin f) = 0#1) :
    decodeSyn n f = .ok (.synWr n (synAddr (synJoin f)) (synData (synJoin f))) := by
  simp [decodeSyn, h, Config.synRwWrite]

theorem decodeSyn_read {f : Frame} (n : SynChan) (h : synRw (synJoin f) = 1#1) :
    decodeSyn n f = .ok (.synRd n (synAddr (synJoin f)) (synData (synJoin f))) := by
  simp [decodeSyn, h, Config.synRwWrite]

theorem decode_wire_cnd (f : Frame) : decode (.wire .cnd) (frameBytes f) = decodeCnd f := rfl

theorem decode_wire_syn (n : SynChan) (f : Frame) :
    decode (.wire n.chan) (frameBytes f) = decodeSyn n f := by
  cases n <;> rfl

/-- A word's frame is the frame of its fields, its read/write bit given. -/
theorem synSplit_fields {f : Frame} {rw : BitVec 1} (h : synRw (synJoin f) = rw) :
    synSplit (synPack rw (synAddr (synJoin f)) (synData (synJoin f))) = f := by
  rw [← h, synPack_fields, synSplit_synJoin]

/-- Settles O6: the top bit is the word's read/write bit, and every word is the word of its fields. -/
theorem synthesizerFramesPartition : Obligations.SynthesizerFramesPartition := by
  intro n b0 b1 b2
  generalize hf : Frame.mk b0 b1 b2 = f
  have hb : [b0, b1, b2] = frameBytes f := by rw [← hf]; rfl
  have htop : b0.getLsbD 7 = (synRw (synJoin f) == 1#1) := by rw [← topBit_eq_synRw, ← hf]
  rw [hb, decode_wire_syn, htop]
  rcases BitVec.eq_zero_or_eq_one (synRw (synJoin f)) with h | h
  · exact ⟨_, decodeSyn_write n h, congrArg frameBytes (synSplit_fields h),
      fun _ => ⟨_, _, rfl⟩, fun h1 => by simp [h] at h1⟩
  · exact ⟨_, decodeSyn_read n h, congrArg frameBytes (synSplit_fields h),
      fun h0 => by simp [h] at h0, fun _ => ⟨_, _, rfl⟩⟩

/-- Settles O7: byte 0 gives the reserved bits and the read/write bit, and with them the decoder's
choice. -/
theorem conditionerFramesDecode : Obligations.ConditionerFramesDecode := by
  intro b0 b1 b2
  have hrsv := cndRsv_eq_zero_iff ⟨b0, b1, b2⟩
  have hrw := cndRw_eq_zero_iff ⟨b0, b1, b2⟩
  refine ⟨fun h => decodeCnd_reserved (hrsv.not.mpr h), fun h => ?_, fun h => ?_⟩
  · have h0 := hrsv.mpr (by simp only; omega)
    have h1 := hrw.mpr (by simp only; omega)
    exact ⟨_, _, decodeCnd_write h0 h1, congrArg frameBytes (cndEncWr_fields h0 h1)⟩
  · have h0 := hrsv.mpr (by simp only; omega)
    have h1 := (BitVec.eq_zero_or_eq_one _).resolve_left (hrw.not.mpr (by simp only; omega))
    exact ⟨_, decodeCnd_read h0 h1, congrArg frameBytes (cndEncRd_fields (f := ⟨b0, b1, 0⟩) h0 h1 rfl)⟩

/-! ### The decoder on operation words (log 9) -/

theorem of16_bytes (v : BitVec 16) : of16 (v.extractLsb' 8 8) (v.extractLsb' 0 8) = v :=
  BitVec.extractLsb'_append_extractLsb'

theorem of32_bytes (v : BitVec 32) :
    of32 (v.extractLsb' 24 8) (v.extractLsb' 16 8) (v.extractLsb' 8 8) (v.extractLsb' 0 8) = v :=
  calc of32 (v.extractLsb' 24 8) (v.extractLsb' 16 8) (v.extractLsb' 8 8) (v.extractLsb' 0 8)
    _ = v.extractLsb' 16 16 ++ v.extractLsb' 8 8 ++ v.extractLsb' 0 8 :=
      congrArg (· ++ v.extractLsb' 8 8 ++ v.extractLsb' 0 8)
        (BitVec.extractLsb'_append_extractLsb'_eq_extractLsb' rfl)
    _ = v.extractLsb' 8 24 ++ v.extractLsb' 0 8 :=
      congrArg (· ++ v.extractLsb' 0 8) (BitVec.extractLsb'_append_extractLsb'_eq_extractLsb' rfl)
    _ = v := BitVec.extractLsb'_append_extractLsb'

theorem toNat_ofNat_of_lt {n k : Nat} (h : k < 2 ^ n) : (BitVec.ofNat n k).toNat = k := by
  rw [BitVec.toNat_ofNat, Nat.mod_eq_of_lt h]

theorem chanOfByte_byteOfChan (c : Chan) : chanOfByte (byteOfChan c) = .ok c := by
  cases c <;> rfl

theorem levelOfByte_byteOfLevel (v : Bool) : levelOfByte (byteOfLevel v) = .ok v := by
  cases v <;> rfl

/-- A line index read back from its two operand bytes. -/
theorem of16_lineIndex {k : Nat} (h : lineIndexFits k = true) :
    (of16 ((BitVec.ofNat 16 k).extractLsb' 8 8) ((BitVec.ofNat 16 k).extractLsb' 0 8)).toNat = k := by
  rw [of16_bytes]
  exact toNat_ofNat_of_lt (of_decide_eq_true h)

/-- A duration read back from its four operand bytes. -/
theorem of32_duration {t : Nat} (h : durationFits t = true) :
    (of32 ((BitVec.ofNat 32 t).extractLsb' 24 8) ((BitVec.ofNat 32 t).extractLsb' 16 8)
      ((BitVec.ofNat 32 t).extractLsb' 8 8) ((BitVec.ofNat 32 t).extractLsb' 0 8)).toNat = t := by
  rw [of32_bytes]
  exact toNat_ofNat_of_lt (of_decide_eq_true h)

theorem decode_lExport {k : Nat} (h : lineIndexFits k = true) :
    decode .op8 (encode (.lExport k)) = .ok (.lExport k) :=
  congrArg (fun j => Except.ok (Instr.lExport j)) (of16_lineIndex h)

theorem decode_lDir {k : Nat} (h : lineIndexFits k = true) :
    decode .op8 (encode (.lDir k)) = .ok (.lDir k) :=
  congrArg (fun j => Except.ok (Instr.lDir j)) (of16_lineIndex h)

theorem decode_lLevel {k : Nat} (v : Bool) (h : lineIndexFits k = true) :
    decode .op8 (encode (.lLevel k v)) = .ok (.lLevel k v) := by
  calc decode .op8 (encode (.lLevel k v))
    _ = (levelOfByte (byteOfLevel v)).map (.lLevel _) := rfl
    _ = .ok (.lLevel k v) := by
      rw [levelOfByte_byteOfLevel, of16_lineIndex h]
      rfl

/-- A delay name's first operand byte tells the name, the other two its index. -/
theorem decode_sDelay {name : DelayName} {t : Nat} (hn : name.wf = true) (ht : durationFits t = true) :
    decode .op8 (encode (.sDelay name t)) = .ok (.sDelay name t) := by
  have key : decode .op8 (encode (.sDelay name t)) = .ok (.sDelay name (of32 ((BitVec.ofNat 32 t).extractLsb' 24 8)
      ((BitVec.ofNat 32 t).extractLsb' 16 8) ((BitVec.ofNat 32 t).extractLsb' 8 8)
      ((BitVec.ofNat 32 t).extractLsb' 0 8)).toNat) := by
    cases name with
    | pulse k => exact congrArg (fun j => Except.ok (Instr.sDelay (.pulse j) _)) (of16_lineIndex hn)
    | lineSettle => rfl
    | txn img => cases img <;> rfl
    | postCnd => rfl
    | interDev => rfl
  rw [key, of32_duration ht]

/-- Settles O1: frames by the codecs' laws, operation words by their operands' bytes, phases by their
codes. -/
theorem decodeEncodeRoundTrip : Obligations.DecodeEncodeRoundTrip := by
  intro i h
  cases i with
  | cndWr a d =>
    calc decodeCnd (cndEncWr a d)
      _ = .ok (.cndWr (cndAddr (cndEncWr a d)) (cndData (cndEncWr a d))) :=
        decodeCnd_write (by simp) (by simp)
      _ = .ok (.cndWr a d) := by simp
  | cndRd a =>
    calc decodeCnd (cndEncRd a)
      _ = .ok (.cndRd (cndAddr (cndEncRd a))) := decodeCnd_read (by simp) (by simp)
      _ = .ok (.cndRd a) := by simp
  | synWr n a d =>
    refine (decode_wire_syn n _).trans ((decodeSyn_write n ?_).trans ?_) <;> simp [Config.synRwWrite]
  | synRd n a d =>
    refine (decode_wire_syn n _).trans ((decodeSyn_read n ?_).trans ?_) <;> simp [Config.synRwRead]
  | cndEncWr a d =>
    exact congrArg₂ (fun x y => Except.ok (Instr.cndEncWr x y)) (of16_bytes a) (of16_bytes d)
  | cndEncRd a => exact congrArg (fun x => Except.ok (Instr.cndEncRd x)) (of16_bytes a)
  | cndParse f => rfl
  | cndRdValue r => rfl
  | synSplit w => exact congrArg (fun x => Except.ok (Instr.synSplit x)) (of32_bytes w)
  | synJoin f => rfl
  | synFields w => exact congrArg (fun x => Except.ok (Instr.synFields x)) (of32_bytes w)
  | synPack rw addr data =>
    exact congrArg (fun x => Except.ok (Instr.synPack rw addr x)) (of16_bytes data)
  | tOpen c => exact congrArg (Except.map _) (chanOfByte_byteOfChan c)
  | tCfgMode c => exact congrArg (Except.map _) (chanOfByte_byteOfChan c)
  | tCfgBits c => exact congrArg (Except.map _) (chanOfByte_byteOfChan c)
  | tCfgHz c => exact congrArg (Except.map _) (chanOfByte_byteOfChan c)
  | tXfer c f => exact congrArg (Except.map fun d => Instr.tXfer d f) (chanOfByte_byteOfChan c)
  | tClose c => exact congrArg (Except.map _) (chanOfByte_byteOfChan c)
  | lExport k => exact decode_lExport h
  | lDir k => exact decode_lDir h
  | lLevel k v => exact decode_lLevel v h
  | sProgram c => exact congrArg (Except.map _) (chanOfByte_byteOfChan c)
  | sDelay name t =>
    obtain ⟨hn, ht⟩ := Bool.and_eq_true_iff.mp h
    exact decode_sDelay hn ht
  | _ => rfl

/-- Settles O2: each word is read by its table. -/
theorem writtenWordsDecode : Obligations.WrittenWordsDecode :=
  ⟨rfl, rfl, rfl, rfl, rfl, rfl, rfl, rfl⟩

end Sys2Proof.Proofs.Codec
end

section
/-!
PROOFS. Invariants over every step: the devices' canonical form (rule R52), the frames a bring-up sends
(rules R55, R164, R276), the order of lines and bus (rules R187, R219, R270), and the handles (rule R22).
-/

namespace Sys2Proof.Proofs.Invariants

open Sys2Proof.Machine Sys2Proof.Safety Sys2Proof.Laws Sys2Proof.Proofs.Codec
open Sys2Proof.Proofs.Memory (not_isXfer_of_quietEvent)

/-! ### The device register spaces (rules R25, R26, R52) -/

theorem sameDevices_trans {d e f : Env} : SameDevices d e → SameDevices e f → SameDevices d f
  | ⟨hk, hc, h1, h2⟩, ⟨hk', hc', h1', h2'⟩ =>
    ⟨hk'.trans hk, hc'.trans hc, h1'.trans h1, h2'.trans h2⟩

theorem sameDevices_devicesWf {d e : Env} : SameDevices d e → e.devicesWf = d.devicesWf
  | ⟨_, hc, h1, h2⟩ => by rw [Env.devicesWf, hc, h1, h2, ← Env.devicesWf]

theorem sameDevices_memRead {d e : Env} (a : Nat) : SameDevices d e →
    memRead e.devCnd a = memRead d.devCnd a ∧ memRead e.devSyn1 a = memRead d.devSyn1 a ∧
      memRead e.devSyn2 a = memRead d.devSyn2 a
  | ⟨_, hc, h1, h2⟩ => by rw [hc, h1, h2]; exact ⟨rfl, rfl, rfl⟩

theorem devicesWf_iff (e : Env) : e.devicesWf = true ↔
    memWf (2 ^ 13) e.devCnd = true ∧ memWf (2 ^ 7) e.devSyn1 = true ∧ memWf (2 ^ 7) e.devSyn2 = true := by
  rw [Env.devicesWf, Bool.and_eq_true, Bool.and_eq_true, and_assoc]

/-- The ideal device stores below the size of its space: an address has as many bits as the space. -/
theorem idealStore_devicesWf {e : Env} (c : Chan) (f : Frame) (h : e.devicesWf = true) :
    (e.idealStore c f).devicesWf = true := by
  obtain ⟨hc, h1, h2⟩ := (devicesWf_iff e).mp h
  cases c <;> dsimp only [Env.idealStore] <;> split
  · exact (devicesWf_iff _).mpr ⟨memWf_memWrite (cndAddr f).isLt hc, h1, h2⟩
  · exact h
  · exact (devicesWf_iff _).mpr ⟨hc, memWf_memWrite (synAddr (synJoin f)).isLt h1, h2⟩
  · exact h
  · exact (devicesWf_iff _).mpr ⟨hc, h1, memWf_memWrite (synAddr (synJoin f)).isLt h2⟩
  · exact h

theorem afterXfer_ideal {e : Env} (h : e.kind = .ideal) (c : Chan) (f : Frame) :
    e.afterXfer c f = e.idealStore c f := by
  rw [Env.afterXfer, h]

theorem afterXfer_devicesWf {e : Env} (c : Chan) (f : Frame) (h : e.devicesWf = true) :
    (e.afterXfer c f).devicesWf = true := by
  cases hk : e.kind with
  | ideal =>
    rw [afterXfer_ideal hk]
    exact idealStore_devicesWf c f h
  | oracle => exact (sameDevices_devicesWf (afterXfer_oracle hk c f)).trans h

theorem effect_devicesWf (s t : State) (h : s.env.devicesWf = true) (he : Effect s t) :
    t.env.devicesWf = true := by
  cases he with
  | plain _ _ _ _ _ _ hd => exact (sameDevices_devicesWf hd).trans h
  | opened _ _ _ _ _ _ _ hd => exact (sameDevices_devicesWf hd).trans h
  | stored _ _ _ _ _ _ _ hd => exact (sameDevices_devicesWf hd).trans h
  | sent c f _ _ _ _ _ _ hd => exact (sameDevices_devicesWf hd).trans (afterXfer_devicesWf c f h)
  | released _ _ _ _ _ _ hd => exact (sameDevices_devicesWf hd).trans h

/-- Settles O47: of the effects only a transfer writes a register space, within its bounds. -/
theorem devicesStayCanonical : Obligations.DevicesStayCanonical := by
  intro s t h hstep
  rcases step_effects hstep with rfl | he
  · exact h
  · exact effects_keep effect_devicesWf he h

/-! ### Who writes a device register (log 16) -/

/-- With the oracle no effect writes a register. -/
theorem effect_sameDevices {s t : State} (ho : s.env.kind = .oracle) (he : Effect s t) :
    SameDevices s.env t.env := by
  cases he with
  | plain _ _ _ _ _ _ hd => exact hd
  | opened _ _ _ _ _ _ _ hd => exact hd
  | stored _ _ _ _ _ _ _ hd => exact hd
  | sent c f _ _ _ _ _ _ hd => exact sameDevices_trans (afterXfer_oracle ho c f) hd
  | released _ _ _ _ _ _ hd => exact hd

theorem exec_sameDevices_of_oracle {i : Instr} {s t : State} (h : exec i s = .next t)
    (ho : s.env.kind = .oracle) : SameDevices s.env t.env :=
  effects_keep (P := fun u => SameDevices s.env u.env)
    (fun _ _ hu he => sameDevices_trans hu (effect_sameDevices (hu.1.trans ho) he)) (exec_effects h) (.refl _)

theorem guarded_sameDevices {stop : Option Stop} {s t u : State} (h : guarded stop t = .next u)
    (ht : SameDevices s.env t.env) : SameDevices s.env u.env := by
  obtain ⟨-, rfl⟩ := guarded_next_iff.mp h
  exact ht

theorem andThen_sameDevices {s : State} {e : Eff} {f : State → Eff} (he : SameDevices s.env e.st.env)
    (hf : ∀ t, SameDevices t.env (f t).st.env) : SameDevices s.env (e.andThen f).st.env := by
  unfold Eff.andThen
  split
  · exact sameDevices_trans he (hf _)
  · exact he

theorem openEff_sameDevices (c : Chan) (s : State) : SameDevices s.env (openEff c s).st.env := by
  rcases openEff_cases c s with ⟨-, e⟩ | ⟨-, e⟩ <;> rw [e] <;> exact .refl _

theorem cfgEff_sameDevices (c : Chan) (w : CfgWhich) (s : State) :
    SameDevices s.env (cfgEff c w s).st.env := by
  rcases cfgEff_cases c w s with ⟨-, e⟩ | ⟨-, e⟩ <;> rw [e] <;> exact verifyEnv_same ..

theorem exportEff_sameDevices (k : Nat) (s : State) : SameDevices s.env (exportEff k s).st.env := by
  rcases exportEff_cases k s with ⟨-, e⟩ | ⟨-, e⟩ <;> rw [e] <;> exact .refl _

theorem dirEff_sameDevices (k : Nat) (s : State) : SameDevices s.env (dirEff k s).st.env := by
  rcases dirEff_cases k s with ⟨-, e⟩ | ⟨-, e⟩ <;> rw [e] <;> exact .refl _

@[simp] theorem levelLine_env (s : State) (k : Nat) (v : Bool) : (s.levelLine k v).env = s.env := rfl

theorem applyPolicy_env (s : State) (k : Nat) : (s.applyPolicy k).env = s.env := by
  unfold State.applyPolicy
  split
  · rfl
  · split <;> simp

theorem initLinesFrom_sameDevices (n : Nat) : ∀ k s, SameDevices s.env (initLinesFrom n k s).st.env := by
  induction n with
  | zero => exact fun _ s => .refl s.env
  | succ n ih =>
    exact fun k s => andThen_sameDevices (andThen_sameDevices (andThen_sameDevices
      (exportEff_sameDevices k s) (dirEff_sameDevices k)) fun t => applyPolicy_env t k ▸ .refl t.env) (ih (k + 1))

theorem nextLine_env (s : State) : s.nextLine.env = s.env := by
  rcases nextLine_cases s with ⟨-, e⟩ | ⟨-, e⟩ <;> rw [e]

theorem nextChannel_env (s : State) : s.nextChannel.env = s.env := by
  unfold State.nextChannel
  split <;> rfl

theorem afterCfg_env (w : CfgWhich) (s : State) : (afterCfg w s).env = s.env := by
  cases w with
  | mode => rfl
  | bits => rfl
  | hz => exact nextChannel_env s

theorem execPLines_sameDevices {s t : State} (h : exec .pLines s = .next t) :
    SameDevices s.env t.env := by
  obtain ⟨l, -, hc⟩ := execPLines_cases h
  rcases hc with ⟨-, -, rfl⟩ | ⟨-, -, rfl⟩ | ⟨-, -, -, rfl⟩ | ⟨-, -, -, rfl⟩ | ⟨-, -, -, rfl⟩ |
    ⟨v, -, -, -, rfl⟩ | ⟨-, rfl⟩ | ⟨-, -, rfl⟩
  · exact .refl _
  · exact .refl _
  · exact .refl _
  · exact .refl _
  · exact .refl _
  · rw [nextLine_env]
    exact .refl _
  · exact .refl _
  · rw [nextLine_env]
    exact .refl _

theorem execPOpen_sameDevices {s t : State} (h : exec .pOpen s = .next t) :
    SameDevices s.env t.env := by
  rcases execPOpen_cases h with ⟨-, -, -, rfl⟩ | ⟨-, -, -, rfl⟩ | ⟨w, -, -, rfl⟩ | ⟨w, r, -, -, -, rfl⟩
  · exact .refl _
  · exact .refl _
  · rw [afterCfg_env]
    exact verifyEnv_same ..
  · exact verifyEnv_same ..

/-- An instruction that puts no frame on the bus leaves the devices alone. -/
theorem exec_sameDevices_of_not_transfers {i : Instr} {s t : State} (h : exec i s = .next t)
    (hi : transfers i = false) : SameDevices s.env t.env := by
  have keep : ∀ u : State, exec i s = .next u → u.env = s.env → SameDevices s.env t.env := by
    intro u hu he
    rw [h] at hu
    cases hu
    rw [he]
    exact .refl _
  cases i with
  | cndWr | cndRd | synWr | synRd | tXfer | sProgram | pProgCnd | pProgSyn1 | pProgSyn2 =>
    cases hi
  | tOpen c => exact guarded_sameDevices h (openEff_sameDevices c s)
  | tCfgMode c => exact guarded_sameDevices h (cfgEff_sameDevices c .mode s)
  | tCfgBits c => exact guarded_sameDevices h (cfgEff_sameDevices c .bits s)
  | tCfgHz c => exact guarded_sameDevices h (cfgEff_sameDevices c .hz s)
  | tClose c => exact guarded_sameDevices h (.refl _)
  | lExport k => exact guarded_sameDevices h (exportEff_sameDevices k s)
  | lDir k => exact guarded_sameDevices h (dirEff_sameDevices k s)
  | lLevel k v => exact guarded_sameDevices h (.refl _)
  | sInitLines =>
    cases h
    exact initLinesFrom_sameDevices _ _ s
  | sReadback =>
    have h : execSReadback s = .next t := h
    unfold execSReadback at h
    split at h <;> cases h
  | pReset =>
    rcases execPReset_cases h with ⟨-, rfl⟩ | ⟨-, -, rfl⟩ <;> exact .refl _
  | pLines => exact execPLines_sameDevices h
  | pOpen => exact execPOpen_sameDevices h
  | pClose => exact keep _ (execPClose_eq s) rfl
  | _ => exact keep _ rfl rfl

/-- Settles O46: the oracle's answers write no register, and an instruction that sends no frame asks
the devices nothing. -/
theorem deviceRegistersFrame : Obligations.DeviceRegistersFrame := by
  rintro i s t a h (hi | ho)
  · exact sameDevices_memRead a (exec_sameDevices_of_not_transfers h hi)
  · exact sameDevices_memRead a (exec_sameDevices_of_oracle h ho)

/-! ### Only image frames (rules R55, R164, R276) -/

/-- A step of a bring-up run sends only frames of its channel's image. -/
theorem grow_imageFrames {s t : State} (h : Grow s t) : ∃ evs, t.trace = s.trace ++ evs ∧
    ∀ c f r, Event.xfer c f r ∈ evs → f ∈ imageFrames s.cfg c := by
  have none : ∀ evs : List Event, (∀ e ∈ evs, isXfer e = false) →
      ∀ c f r, Event.xfer c f r ∈ evs → f ∈ imageFrames s.cfg c :=
    fun evs he c f r hm => absurd (he _ hm) (by simp [isXfer])
  cases h with
  | same ht => exact ⟨[], by simpa using ht, none _ (by simp)⟩
  | lines evs _ _ ht he => exact ⟨evs, ht, none _ fun e hm => not_isXfer_of_quietEvent (he e hm)⟩
  | fatal evs _ _ ht he => exact ⟨evs, ht, none _ he⟩
  | settle n d ht => exact ⟨_, ht, none _ (by simp [isXfer])⟩
  | opening ev _ _ ht he => exact ⟨_, ht, none _ (by simpa using he)⟩
  | sent c f r evs _ _ hf ht he =>
    refine ⟨_, ht, fun c' f' r' hm => ?_⟩
    rcases List.mem_cons.mp hm with h | hm
    · cases h
      exact hf
    · exact none evs (fun e hm => not_isXfer_of_quietEvent (he e hm)) c' f' r' hm
  | closing evs _ _ ht he => exact ⟨evs, ht, none _ fun e hm => not_isXfer_of_quietEvent (he e hm)⟩

theorem onlyImageFrames_step {s t : State} (h : OnlyImageFrames s) (hstep : step s = .next t) :
    OnlyImageFrames t := by
  obtain ⟨ho, himg⟩ := h
  obtain ⟨hcfg, hops, rfl | hg⟩ := step_growth ho hstep
  · exact ⟨ho, fun _ _ _ hm => absurd hm List.not_mem_nil⟩
  · obtain ⟨evs, ht, hnew⟩ := grow_imageFrames hg
    refine ⟨hops.trans ho, fun c f r hm => ?_⟩
    rw [ht] at hm
    rw [hcfg]
    exact (List.mem_append.mp hm).elim (himg c f r) (hnew c f r)

/-- A frame of the conditioner's image is an encoded write. -/
theorem exists_cndEncWr_of_mem_imageFrames {p : Params} {f : Frame} (h : f ∈ imageFrames p .cnd) :
    ∃ a d, cndEncWr a d = f := by
  obtain ⟨e, -, rfl⟩ := List.mem_map.mp h
  exact ⟨_, _, rfl⟩

/-- Settles O54: a step sends only frames of the image, and those of the conditioner's are encoded
writes. -/
theorem onlyImageFramesKept : Obligations.OnlyImageFramesKept := by
  refine ⟨fun s t => onlyImageFrames_step, fun s f r h hm => ?_⟩
  obtain ⟨a, d, rfl⟩ := exists_cndEncWr_of_mem_imageFrames (h.2 .cnd f r hm)
  exact ⟨(validFramesAreTheEncoded _).mpr ⟨a, d, .inl rfl⟩, cndRw_cndEncWr a d⟩

/-! ### No frame before a fault (rules R188, R219) -/

@[simp] theorem noFramePhase_progPhaseOf (c : Chan) : noFramePhase (progPhaseOf c) = false := by
  cases c <;> rfl

@[simp] theorem noFramePhase_settlePhaseOf (c : Chan) : noFramePhase (settlePhaseOf c) = false := by
  cases c <;> rfl

/-- A step that ends where no frame was sent yet began there, and sent none. -/
theorem grow_noFrame {s t : State} (h : Grow s t) (hp : noFramePhase t.phase = true) :
    noFramePhase s.phase = true ∧ busTraceAll t.trace = busTraceAll s.trace := by
  have silent : ∀ evs, t.trace = s.trace ++ evs → (∀ e ∈ evs, isXfer e = false) →
      busTraceAll t.trace = busTraceAll s.trace := by
    intro evs ht he
    rw [ht, busTraceAll_append, busTraceAll_none he, List.append_nil]
  cases h with
  | same ht hq =>
    refine ⟨?_, by rw [ht]⟩
    rcases hq with hq | ⟨hs, -⟩ | ⟨c, -, hq⟩
    · rw [← hq]
      exact hp
    · rw [hs]
      rfl
    · simp [hq] at hp
  | lines evs hs _ ht he =>
    exact ⟨by rw [hs]; rfl, silent evs ht fun e hm => not_isXfer_of_quietEvent (he e hm)⟩
  | fatal evs hs _ ht he => exact ⟨by rcases hs with hs | hs <;> rw [hs] <;> rfl, silent evs ht he⟩
  | settle n d ht hq =>
    refine ⟨?_, silent _ ht (by simp [isXfer])⟩
    rcases hq with ⟨hs, -, -⟩ | ⟨-, hq⟩ | ⟨-, hq⟩ | ⟨-, hq⟩ | ⟨c, hs, hq⟩
    · rw [hs]
      rfl
    · simp [hq, noFramePhase] at hp
    · simp [hq, noFramePhase] at hp
    · simp [hq, noFramePhase] at hp
    · simp [hq, hs] at hp
  | opening ev hs _ ht he => exact ⟨by rw [hs]; rfl, silent _ ht (by simpa using he)⟩
  | sent c f r evs hs hq _ ht he => simp [hq, hs] at hp
  | closing evs hs hq ht he => simp [hq, noFramePhase] at hp

/-- Settles O50: a phase without frames is reached only from such a phase, silently. -/
theorem noFrameBeforeFaultKept : Obligations.NoFrameBeforeFaultKept := by
  rintro s t ⟨ho, hno⟩ hstep
  obtain ⟨-, hops, rfl | hg⟩ := step_growth ho hstep
  · exact ⟨ho, fun _ => rfl⟩
  · refine ⟨hops.trans ho, fun hp => ?_⟩
    obtain ⟨hs, hsame⟩ := grow_noFrame hg hp
    exact hsame.trans (hno hs)

/-! ### Lines before bus (rules R187, R270) -/

/-- A phase of a run past the line settle. -/
def pastSettle (p : Phase) : Bool := !beforeBus p && p != .pFault

theorem pastSettle_iff (p : Phase) : pastSettle p = true ↔ beforeBus p = false ∧ p ≠ .pFault := by
  simp [pastSettle]

@[simp] theorem pastSettle_progPhaseOf (c : Chan) : pastSettle (progPhaseOf c) = true := by
  cases c <;> rfl

@[simp] theorem pastSettle_settlePhaseOf (c : Chan) : pastSettle (settlePhaseOf c) = true := by
  cases c <;> rfl

theorem not_beforeBus_of_pastSettle {p : Phase} (h : pastSettle p = true) : beforeBus p = false :=
  ((pastSettle_iff p).mp h).1

/-- What a step's phases and new events must keep to for the lines to come before the bus. -/
structure SettlesFirst (p q : Phase) (evs : List Event) : Prop where
  /-- No step goes back before the settle. -/
  stays : beforeBus q = true → beforeBus p = true
  /-- The settle is passed with its delay. -/
  settles : pastSettle q = true → pastSettle p = true ∨ ∃ e ∈ evs, isDelay .lineSettle e = true
  /-- A channel is opened past the settle only. -/
  opens : (∀ e ∈ evs, isChanOpen e = false) ∨ pastSettle p = true

/-- Steps from past the settle. -/
theorem settlesFirst_of_past {p q : Phase} {evs : List Event} (hp : pastSettle p = true)
    (hq : beforeBus q = false) : SettlesFirst p q evs :=
  ⟨fun h => by simp [hq] at h, fun _ => .inl hp, .inr hp⟩

/-- Steps that do not pass the settle and open no channel. -/
theorem settlesFirst_of_quiet {p q : Phase} {evs : List Event} (hp : beforeBus p = true)
    (hq : pastSettle q = false) (he : ∀ e ∈ evs, isChanOpen e = false) : SettlesFirst p q evs :=
  ⟨fun _ => hp, fun h => by simp [hq] at h, .inl he⟩

theorem not_isChanOpen_of_quietEvent {e : Event} (h : quietEvent e = true) : isChanOpen e = false := by
  unfold quietEvent at h
  simp_all

theorem grow_settlesFirst {s t : State} (h : Grow s t) :
    ∃ evs, t.trace = s.trace ++ evs ∧ SettlesFirst s.phase t.phase evs := by
  cases h with
  | same ht hp =>
    refine ⟨[], by simpa using ht, ?_⟩
    rcases hp with hp | ⟨hs, hp | hp⟩ | ⟨c, hs, hp⟩
    · rw [hp]
      exact ⟨id, .inl, .inl (by simp)⟩
    · rw [hs, hp]
      exact settlesFirst_of_quiet rfl rfl (by simp)
    · rw [hs, hp]
      exact settlesFirst_of_quiet rfl rfl (by simp)
    · rw [hs, hp]
      exact settlesFirst_of_past (by simp) (not_beforeBus_of_pastSettle (by simp))
  | lines evs hs hp ht he =>
    have hq := fun e hm => not_isChanOpen_of_quietEvent (he e hm)
    refine ⟨evs, ht, ?_⟩
    rcases hp with hp | hp <;> rw [hs, hp] <;> exact settlesFirst_of_quiet rfl rfl hq
  | fatal evs hs hp ht he hl =>
    refine ⟨evs, ht, ?_⟩
    rcases hs with hs | hs
    · have hq := hl hs
      rw [hs, hp]
      exact settlesFirst_of_quiet rfl rfl hq
    · rw [hs, hp]
      exact settlesFirst_of_past rfl rfl
  | settle n d ht hp =>
    refine ⟨_, ht, ?_⟩
    rcases hp with ⟨hs, rfl, hp⟩ | ⟨hs, hp⟩ | ⟨hs, hp⟩ | ⟨hs, hp⟩ | ⟨c, hs, hp⟩ <;> rw [hp, hs]
    · exact ⟨fun _ => rfl, fun _ => .inr ⟨_, List.mem_singleton_self _, by simp [isDelay]⟩,
        .inl (by simp [isChanOpen])⟩
    · exact settlesFirst_of_past rfl rfl
    · exact settlesFirst_of_past rfl rfl
    · exact settlesFirst_of_past rfl rfl
    · exact settlesFirst_of_past (by simp) (not_beforeBus_of_pastSettle (by simp))
  | opening ev hs hp ht he =>
    refine ⟨_, ht, ?_⟩
    rcases hp with hp | hp <;> rw [hs, hp] <;> exact settlesFirst_of_past rfl rfl
  | sent c f r evs hs hp hf ht he =>
    refine ⟨_, ht, ?_⟩
    rw [hp, hs]
    exact settlesFirst_of_past (by simp) (not_beforeBus_of_pastSettle (by simp))
  | closing evs hs hp ht he =>
    refine ⟨evs, ht, ?_⟩
    rw [hs, hp]
    exact settlesFirst_of_past rfl rfl

theorem linesBeforeBus_append {s t : State} {evs : List Event} (h : LinesBeforeBus s) (ho : t.ops = [])
    (ht : t.trace = s.trace ++ evs) (hf : SettlesFirst s.phase t.phase evs) : LinesBeforeBus t := by
  obtain ⟨-, hquiet, hsettled, hprec⟩ := h
  obtain ⟨hstays, hsettles, hopens⟩ := hf
  have hpast : pastSettle s.phase = true → ∃ e ∈ s.trace, isDelay .lineSettle e = true := fun hs =>
    have ⟨hb, hne⟩ := (pastSettle_iff _).mp hs
    hsettled hb hne
  rw [LinesBeforeBus, ht]
  refine ⟨ho, fun hp e he => ?_, fun hb hne => ?_, precedes_append hprec ?_⟩
  · have hs := hstays hp
    have hnew := hopens.resolve_right fun h => by simp [not_beforeBus_of_pastSettle h] at hs
    exact (List.mem_append.mp he).elim (hquiet hs e) (hnew e)
  · rcases hsettles ((pastSettle_iff _).mpr ⟨hb, hne⟩) with hs | ⟨e, he, hd⟩
    · obtain ⟨e, he, hd⟩ := hpast hs
      exact ⟨e, List.mem_append_left _ he, hd⟩
    · exact ⟨e, List.mem_append_right _ he, hd⟩
  · exact hopens.symm.imp_left hpast

/-- Settles O51: the settle is passed with its delay, and channels are opened past it only. -/
theorem linesBeforeBusKept : Obligations.LinesBeforeBusKept := by
  intro s t h hstep
  have ho : s.ops = [] := h.1
  obtain ⟨-, hops, rfl | hg⟩ := step_growth ho hstep
  · exact ⟨ho, fun _ _ he => absurd he List.not_mem_nil, fun hb => absurd hb Bool.noConfusion, precedes_nil _ _⟩
  · obtain ⟨evs, ht, hf⟩ := grow_settlesFirst hg
    exact linesBeforeBus_append h (hops.trans ho) ht hf

/-! ### One opening and one release of a handle (rules R22, R107) -/

theorem handleOnce_append {s t : State} {evs : List Event} (h : HandleOnce s)
    (ht : t.trace = s.trace ++ evs)
    (hopen : ∀ c, (evs.filter (isOpenOk c)).length + (if (s.ch.get c).iwd.isSome then 1 else 0) =
      if (t.ch.get c).iwd.isSome then 1 else 0)
    (hclose : ∀ c, (evs.filter (isCloseOf c)).length + (if (t.ch.get c).isOpen then 1 else 0) =
      (evs.filter (isOpenOk c)).length + if (s.ch.get c).isOpen then 1 else 0) : HandleOnce t := by
  intro c
  obtain ⟨ho, hc⟩ := h c
  have ho' := hopen c
  have hc' := hclose c
  rw [ht, List.filter_append, List.filter_append, List.length_append, List.length_append]
  constructor <;> omega

/-- Neither the opening nor the release of a handle. -/
theorem not_handle_of_isPlain {e : Event} (h : isPlain e = true) (c : Chan) :
    isOpenOk c e = false ∧ isCloseOf c e = false := by
  cases e with
  | chanOpen _ a =>
    cases a with
    | ok => cases h
    | fail => exact ⟨rfl, rfl⟩
  | close _ => cases h
  | _ => exact ⟨rfl, rfl⟩

/-- Events that open and release no handle, on channels open as before. -/
theorem handleOnce_of_quiet {s t : State} {evs : List Event} (h : HandleOnce s)
    (ht : t.trace = s.trace ++ evs)
    (he : ∀ e ∈ evs, ∀ c, isOpenOk c e = false ∧ isCloseOf c e = false)
    (hch : ∀ c, (t.ch.get c).isOpen = (s.ch.get c).isOpen ∧ (t.ch.get c).iwd = (s.ch.get c).iwd) :
    HandleOnce t := by
  have hopen : ∀ c, evs.filter (isOpenOk c) = [] := fun c =>
    List.filter_eq_nil_iff.mpr fun e hm => by simp [(he e hm c).1]
  have hclose : ∀ c, evs.filter (isCloseOf c) = [] := fun c =>
    List.filter_eq_nil_iff.mpr fun e hm => by simp [(he e hm c).2]
  refine handleOnce_append h ht (fun c => ?_) (fun c => ?_)
  · simp [hopen, (hch c).2]
  · simp [hopen, hclose, (hch c).1]

theorem store_handle (h : Channel) (v : CfgVal) : (h.store v).isOpen = h.isOpen ∧ (h.store v).iwd = h.iwd := by
  cases v <;> exact ⟨rfl, rfl⟩

theorem effect_handleOnce (s t : State) (h : HandleOnce s) (he : Effect s t) : HandleOnce t := by
  cases he with
  | plain evs he ht hch =>
    exact handleOnce_of_quiet h ht (fun e hm c => not_handle_of_isPlain (he e hm) c)
      fun c => by rw [hch]; exact ⟨rfl, rfl⟩
  | opened c ho hi ht hch =>
    refine handleOnce_append h ht (fun d => ?_) (fun d => ?_) <;> rw [hch, three_get_set] <;>
      by_cases hd : c = d
    · subst hd
      simp [isOpenOk, hi]
    · simp [isOpenOk, hd, Ne.symm hd]
    · subst hd
      simp [isOpenOk, isCloseOf, ho]
    · simp [isOpenOk, isCloseOf, hd, Ne.symm hd]
  | stored c w hr ht hch =>
    refine handleOnce_of_quiet h ht (by simp [isOpenOk, isCloseOf]) fun d => ?_
    rw [hch, three_get_set]
    split
    · next hd => exact hd ▸ store_handle _ _
    · exact ⟨rfl, rfl⟩
  | sent c f r hc ht hch =>
    exact handleOnce_of_quiet h ht (by simp [isOpenOk, isCloseOf]) fun d => by rw [hch]; exact ⟨rfl, rfl⟩
  | released c ho ht hch =>
    refine handleOnce_append h ht (fun d => ?_) (fun d => ?_) <;> rw [hch, three_get_set] <;>
      by_cases hd : c = d
    · subst hd
      simp [isOpenOk, released]
    · simp [isOpenOk, Ne.symm hd]
    · subst hd
      simp [isOpenOk, isCloseOf, released, ho]
    · simp [isOpenOk, isCloseOf, hd, Ne.symm hd]

theorem blockReset_handleOnce (s : State) : HandleOnce s.blockReset := by
  intro c
  cases c <;> exact ⟨rfl, rfl⟩

/-- Settles O56: only an opening sets a handle's delay and only on a channel not opened before, only a
release clears an open handle. -/
theorem handleOnceKept : Obligations.HandleOnceKept := by
  intro s t h hstep
  rcases step_effects hstep with rfl | he
  · exact blockReset_handleOnce s
  · exact effects_keep effect_handleOnce he h

end Sys2Proof.Proofs.Invariants
end

section
/-!
PROOFS. The bus operations, each from its answer (40_bus_transport.md, 41_codec_conditioner.md section 2,
42_codec_synthesizer.md section 2), the ideal device (rule R52) and the pin view (rule R33).
-/

namespace Sys2Proof.Proofs.Bus

open Sys2Proof.Machine Sys2Proof.Safety Sys2Proof.Laws Sys2Proof.Proofs.Codec Sys2Proof.Proofs.Invariants
open Sys2Proof.Proofs.Transport (exec_tClose)

/-! ### Opening a channel (rule R101) -/

theorem exec_tOpen (c : Chan) (s : State) :
    exec (.tOpen c) s = guarded (openStop c s) (openEff c s).st := rfl

theorem openStop_eq_none {c : Chan} {s : State} (ho : (s.ch.get c).isOpen = false)
    (hi : (s.ch.get c).iwd = none) : openStop c s = none := by
  simp [openStop, ho, hi]

theorem openEff_ok {c : Chan} {s : State} (h : s.env.chanOpenAns (s.cfg.chans.get c).path = .ok) :
    openEff c s = ⟨{ s with
      env := s.env.afterChanOpen
      trace := s.trace ++ [.chanOpen c .ok]
      ch := s.ch.set c { s.ch.get c with isOpen := true, iwd := some (s.cfg.chans.get c).iwd } }, true⟩ := by
  rcases openEff_cases c s with ⟨-, e⟩ | ⟨ha, -⟩
  · exact e
  · simp [h] at ha

theorem openEff_fail {c : Chan} {s : State} (h : s.env.chanOpenAns (s.cfg.chans.get c).path = .fail) :
    openEff c s = ⟨afterFatal { s with
      env := s.env.afterChanOpen
      trace := s.trace ++ [.chanOpen c .fail] } (diagChannelOpen c), false⟩ := by
  rcases openEff_cases c s with ⟨ha, -⟩ | ⟨-, e⟩
  · simp [h] at ha
  · exact e

/-- Settles O11: nothing stops the operation, and its effect is that of the answer. -/
theorem openResult : Obligations.OpenResult := by
  intro c s ho hi
  rw [exec_tOpen, openStop_eq_none ho hi, guarded_none]
  refine ⟨fun h => ?_, fun h => ?_⟩
  · rw [openEff_ok h]
  · rw [openEff_fail h]
    rfl

/-! ### Configuring a channel (rules R102 to R105) -/

theorem exec_cfgInstr (w : CfgWhich) (c : Chan) (s : State) :
    exec (cfgInstr w c) s = guarded (cfgStop c w s) (cfgEff c w s).st := by
  cases w <;> rfl

theorem cfgStop_eq_none {c : Chan} {w : CfgWhich} {s : State} (h : cfgReady (s.ch.get c) w = true) :
    cfgStop c w s = none := by
  simp [cfgStop, h]

section verify
variable {c : Chan} {w : CfgWhich} {v v' : CfgVal} {e : Env}

theorem verifyRes_setFailed (hs : e.cfgSetAns c w v = .fail) : verifyRes c w v e = .setFailed := by
  simp [verifyRes, hs]

theorem verifyRes_getFailed (hs : e.cfgSetAns c w v = .ok)
    (hg : e.afterCfgSet.cfgGetAns c w v = .fail) : verifyRes c w v e = .getFailed := by
  simp [verifyRes, hs, hg]

theorem verifyRes_mismatch (hs : e.cfgSetAns c w v = .ok)
    (hg : e.afterCfgSet.cfgGetAns c w v = .value v') (hv : v' ≠ v) :
    verifyRes c w v e = .mismatch v' := by
  simp [verifyRes, hs, hg, hv]

theorem verifyRes_verified_iff : verifyRes c w v e = .verified ↔
    e.cfgSetAns c w v = .ok ∧ e.afterCfgSet.cfgGetAns c w v = .value v := by
  cases hs : e.cfgSetAns c w v with
  | fail => simp [verifyRes_setFailed hs]
  | ok =>
    cases hg : e.afterCfgSet.cfgGetAns c w v with
    | fail => simp [verifyRes_getFailed hs hg]
    | value v' =>
      by_cases hv : v' = v
      · simp [verifyRes, hs, hg, hv]
      · simp [verifyRes_mismatch hs hg hv, hv]

theorem verifyEnv_setOk (hs : e.cfgSetAns c w v = .ok) :
    verifyEnv c w v e = e.afterCfgSet.afterCfgGet := by
  simp [verifyEnv, hs]

theorem verifyEnv_setFailed (hs : e.cfgSetAns c w v = .fail) : verifyEnv c w v e = e.afterCfgSet := by
  simp [verifyEnv, hs]

end verify

theorem cfgEff_verified {c : Chan} {w : CfgWhich} {s : State}
    (hs : s.env.cfgSetAns c w ((s.cfg.chans.get c).value w) = .ok)
    (hg : s.env.afterCfgSet.cfgGetAns c w ((s.cfg.chans.get c).value w) =
      .value ((s.cfg.chans.get c).value w)) :
    cfgEff c w s = ⟨{ s with
      env := s.env.afterCfgSet.afterCfgGet
      trace := s.trace ++ [.cfg c w ((s.cfg.chans.get c).value w) .verified]
      ch := s.ch.set c ((s.ch.get c).store ((s.cfg.chans.get c).value w)) }, true⟩ := by
  rcases cfgEff_cases c w s with ⟨-, e⟩ | ⟨hv, -⟩
  · rw [e, verifyEnv_setOk hs]
  · exact absurd (verifyRes_verified_iff.mpr ⟨hs, hg⟩) hv

/-- A configuration step that is not verified: the fatal entry with the result recorded. -/
theorem cfgEff_failed {c : Chan} {w : CfgWhich} {r : CfgRes} {e' : Env} {s : State}
    (hr : verifyRes c w ((s.cfg.chans.get c).value w) s.env = r) (hne : r ≠ .verified)
    (he : verifyEnv c w ((s.cfg.chans.get c).value w) s.env = e') :
    cfgEff c w s = ⟨afterFatal { s with
      env := e'
      trace := s.trace ++ [.cfg c w ((s.cfg.chans.get c).value w) r] } (diagChannelConfig c w), false⟩ := by
  rcases cfgEff_cases c w s with ⟨hv, -⟩ | ⟨-, e⟩
  · exact absurd (hr.symm.trans hv) hne
  · rw [e, hr, he]

/-- Settles O12: nothing stops the step, and its effect is that of the result of `verify`. -/
theorem configStepsSetAndVerify : Obligations.ConfigStepsSetAndVerify := by
  intro w c s hready
  rw [exec_cfgInstr, cfgStop_eq_none hready]
  refine ⟨fun hs hg => ?_, fun hs => ?_, fun hs hg => ?_, fun v' hs hg hv => ?_⟩
  · rw [cfgEff_verified hs hg]
    rfl
  · rw [cfgEff_failed (verifyRes_setFailed hs) (by simp) (verifyEnv_setFailed hs)]
    rfl
  · rw [cfgEff_failed (verifyRes_getFailed hs hg) (by simp) (verifyEnv_setOk hs)]
    rfl
  · rw [cfgEff_failed (verifyRes_mismatch hs hg hv) (by simp) (verifyEnv_setOk hs)]
    rfl

/-! ### A transfer (rule R106) -/

theorem exec_tXfer (c : Chan) (f : Frame) (s : State) :
    exec (.tXfer c f) s = guarded (xferStop c s) (xferEff c f s returnXfer).st := rfl

section transfer
variable {c : Chan} {f : Frame} {s : State} (caller : XferRes → State → State)

theorem xferEff_none (h : s.env.xferAns c f = none) : xferEff c f s caller =
    ⟨{ s with env := s.env.afterXfer c f, hung := some ⟨c, f⟩ }, false⟩ := by
  rcases xferEff_cases c f s caller with ⟨-, e⟩ | ⟨r, hr, -⟩
  · exact e
  · simp [h] at hr

theorem xferEff_some {r : XferRes} (h : s.env.xferAns c f = some r) : xferEff c f s caller =
    ⟨caller r (rxAfter r
      { s with env := s.env.afterXfer c f, trace := s.trace ++ [.xfer c f r] }), true⟩ := by
  rcases xferEff_cases c f s caller with ⟨hn, -⟩ | ⟨r', hr, e⟩
  · simp [h] at hn
  · cases h.symm.trans hr
    exact e

theorem rxAfter_ok (y : Frame) (s : State) : rxAfter (.ok y) s = { s with rxf := y } := rfl

theorem rxAfter_failed {r : XferRes} (h : failed r = true) (s : State) : rxAfter r s = { s with
    rxf := Config.freeFrame s.env.draws
    env := { s.env with draws := s.env.draws + 1 } } := by
  rcases rxAfter_cases r s with ⟨y, rfl, -⟩ | ⟨-, e⟩
  · cases h
  · exact e

end transfer

/-- Settles O13: the answer decides what the transfer leaves. -/
theorem transferResult : Obligations.TransferResult := by
  intro c f s hc
  rw [exec_tXfer, xferStop_of_configured hc, guarded_none]
  refine ⟨fun r h => ?_, fun r hr h => ?_, fun h => ?_⟩
  · rw [xferEff_some _ h]
    rfl
  · rw [xferEff_some _ h, rxAfter_failed hr]
    exact ⟨_, _, rfl⟩
  · rw [xferEff_none _ h]

/-! ### Refusals (log 13) -/

theorem guarded_unconfigured {c : Chan} {s : State} (h : s.configured c = false) (t : State) :
    guarded (xferStop c s) t = .refused (.channelNotConfigured c) := by
  simp [xferStop, h, guarded]

theorem exec_prog (c : Chan) (s : State) :
    exec (progPhaseOf c).instr s = progPhase (progPhaseOf c) c (settlePhaseOf c) s := by
  cases c <;> rfl

/-- The XFER sub-step where there is an entry to send (rule R206). -/
theorem exec_prog_xfer {c : Chan} {s : State} (hs : s.sub = .s0) (hi : s.idx < s.imageLength c) :
    exec (progPhaseOf c).instr s = guarded (xferStop c s) (xferSubEff c s).st := by
  simp [exec_prog, progPhase, hs, hi.ne, xferSubStop, hi]

/-- Settles O14: each of these operations first asks whether the channel is configured. -/
theorem transferRefusedUnlessConfigured : Obligations.TransferRefusedUnlessConfigured := by
  intro c s h
  refine ⟨fun f => guarded_unconfigured h _, guarded_unconfigured h _, fun hs hi => ?_, ?_, ?_⟩
  · rw [exec_prog_xfer hs hi]
    exact guarded_unconfigured h _
  · rintro rfl
    exact ⟨fun a d => guarded_unconfigured (s := { s with txf := cndEncWr a d }) h _,
      fun a => guarded_unconfigured (s := { s with txf := cndEncRd a }) h _⟩
  · rintro n rfl a d
    exact ⟨guarded_unconfigured (s := { s with txf := _ }) h _,
      guarded_unconfigured (s := { s with txf := _ }) h _⟩

/-- Settles O16: each precondition is asked before anything is done. -/
theorem outOfOrderOperationsRefused : Obligations.OutOfOrderOperationsRefused := by
  intro c w k v l s
  refine ⟨fun ho => ?_, fun ho hi => ?_, fun h => ?_, fun ho => ?_, fun hl he => ?_, fun hl hd => ?_⟩
  · simp [exec_tOpen, openStop, ho, guarded]
  · simp [exec_tOpen, openStop, ho, hi, guarded]
  · simp [exec_cfgInstr, cfgStop, h, guarded]
  · simp [exec_tClose, closeStop, ho, guarded]
  · have hstop : dirStop k s = some (.refuse (.lineNotExported k)) := by simp [dirStop, hl, he]
    calc exec (.lDir k) s = guarded (dirStop k s) (dirEff k s).st := rfl
      _ = .refused (.lineNotExported k) := by rw [hstop, guarded]
  · have hstop : levelStop k s = some (.refuse (.lineNotOutput k)) := by simp [levelStop, hl, hd]
    calc exec (.lLevel k v) s = guarded (levelStop k s) (s.levelLine k v) := rfl
      _ = .refused (.lineNotOutput k) := by rw [hstop, guarded]

/-! ### The wire frames (rules R122, R126, R145, R146) -/

/-- A frame sent for a caller that is given the transfer's result. -/
theorem sendFrame_returnXfer {c : Chan} {f : Frame} {s : State} (hc : s.configured c = true) :
    (∀ r, s.env.xferAns c f = some r →
      ∃ (x : Frame) (n : Nat), sendFrame c f returnXfer s = .next { s with
          txf := f
          rxf := x
          env := { s.env.afterXfer c f with draws := n }
          trace := s.trace ++ [.xfer c f r]
          ret := .xfer r } ∧
        ∀ y, r = .ok y → x = y ∧ n = (s.env.afterXfer c f).draws) ∧
    (s.env.xferAns c f = none →
      sendFrame c f returnXfer s = .next { s with
        txf := f
        env := s.env.afterXfer c f
        hung := some ⟨c, f⟩ }) := by
  rw [sendFrame_eq returnXfer hc]
  refine ⟨fun r h => ?_, fun h => ?_⟩
  · rw [xferEff_some (s := { s with txf := f }) returnXfer h]
    rcases rxAfter_cases r { s with
      txf := f, env := s.env.afterXfer c f, trace := s.trace ++ [.xfer c f r] } with
      ⟨y, rfl, e⟩ | ⟨hf, e⟩ <;> dsimp only <;> rw [e]
    · exact ⟨y, _, rfl, fun z hz => by cases hz; exact ⟨rfl, rfl⟩⟩
    · exact ⟨_, _, rfl, fun z hz => by simp [hz, failed] at hf⟩
  · rw [xferEff_none (s := { s with txf := f }) returnXfer h]

/-- Settles O17: the encoded write sent on channel 0. -/
theorem conditionerWriteResult : Obligations.ConditionerWriteResult :=
  fun _ _ _ h => sendFrame_returnXfer h

theorem returnRead_failed {r : XferRes} (h : failed r = true) (s : State) :
    returnRead r s = { s with ret := .xfer r } := by
  cases r with
  | ok y => cases h
  | short n => rfl
  | fail => rfl

/-- Settles O18: the encoded read sent on channel 0; its caller takes the third byte of the reply. -/
theorem conditionerReadResult : Obligations.ConditionerReadResult := by
  intro a s hc
  have hexec : exec (.cndRd a) s =
      .next (xferEff .cnd (cndEncRd a) { s with txf := cndEncRd a } returnRead).st :=
    sendFrame_eq returnRead hc
  rw [hexec]
  refine ⟨fun y h => ?_, fun r hr h => ?_, fun h => ?_⟩
  · rw [xferEff_some (s := { s with txf := cndEncRd a }) _ h]
    rfl
  · rw [xferEff_some (s := { s with txf := cndEncRd a }) _ h, rxAfter_failed hr, returnRead_failed hr]
    exact ⟨_, _, rfl⟩
  · rw [xferEff_none (s := { s with txf := cndEncRd a }) _ h]

/-- A synthesizer write or read, by the read/write bit: the word's frame sent on its channel. -/
theorem exec_syn (n : SynChan) (addr : BitVec 7) (data : BitVec 16) (rw : BitVec 1) (s : State) :
    exec (if rw = 0#1 then .synWr n addr data else .synRd n addr data) s =
      sendFrame n.chan ⟨rw ++ addr, data.extractLsb' 8 8, data.extractLsb' 0 8⟩ returnXfer s := by
  rw [← synSplit_synPack]
  rcases BitVec.eq_zero_or_eq_one rw with rfl | rfl <;> rfl

/-- Settles O19: either frame is sent for a caller that is given the result. -/
theorem synthesizerFrameResult : Obligations.SynthesizerFrameResult := by
  intro n addr data rw s hc f i
  have hexec : exec i s = sendFrame n.chan f returnXfer s := exec_syn n addr data rw s
  rw [hexec]
  exact sendFrame_returnXfer hc

/-! ### The ideal device (rule R52) -/

theorem idealStore_cndEncWr (e : Env) (a : BitVec 13) (d : Byte) :
    e.idealStore .cnd (cndEncWr a d) = { e with devCnd := memWrite e.devCnd a.toNat d } := by
  simp [Env.idealStore, Config.cndRwWrite]

theorem idealStore_cndEncRd (e : Env) (a : BitVec 13) : e.idealStore .cnd (cndEncRd a) = e := by
  simp [Env.idealStore, Config.cndRwWrite]

theorem idealReply_cndEncRd (e : Env) (a : BitVec 13) :
    e.idealReply .cnd (cndEncRd a) = ⟨0, 0, memRead e.devCnd a.toNat⟩ := by
  simp [Env.idealReply, Config.cndRwRead]

theorem idealStore_syn1_write (e : Env) (a : BitVec 7) (d : BitVec 16) :
    e.idealStore .syn1 (synSplit (synPack Config.synRwWrite a d)) =
      { e with devSyn1 := memWrite e.devSyn1 a.toNat d } := by
  simp [Env.idealStore]

theorem idealStore_syn2_write (e : Env) (a : BitVec 7) (d : BitVec 16) :
    e.idealStore .syn2 (synSplit (synPack Config.synRwWrite a d)) =
      { e with devSyn2 := memWrite e.devSyn2 a.toNat d } := by
  simp [Env.idealStore]

theorem idealStore_syn_read (e : Env) (n : SynChan) (a : BitVec 7) (d : BitVec 16) :
    e.idealStore n.chan (synSplit (synPack Config.synRwRead a d)) = e := by
  cases n <;> simp [Env.idealStore, SynChan.chan, Config.synRwRead, Config.synRwWrite]

/-- A frame sent to the ideal device: its reply goes to the caller, and a write is stored. -/
theorem sendFrame_ideal {c : Chan} {f : Frame} {caller : XferRes → State → State} {s t : State}
    (hk : s.env.kind = .ideal) (h : sendFrame c f caller s = .next t) :
    t = caller (.ok (s.env.idealReply c f)) { s with
      txf := f
      rxf := s.env.idealReply c f
      env := s.env.idealStore c f
      trace := s.trace ++ [.xfer c f (.ok (s.env.idealReply c f))] } := by
  obtain ⟨-, ht⟩ := guarded_next_iff.mp h
  rw [xferEff_some (s := { s with txf := f }) caller (xferAns_ideal hk c f),
    afterXfer_ideal (e := State.env { s with txf := f }) hk] at ht
  exact ht.symm

theorem sendFrame_ideal_env {c : Chan} {f : Frame} {s t : State} (hk : s.env.kind = .ideal)
    (h : sendFrame c f returnXfer s = .next t) : t.env = s.env.idealStore c f := by
  rw [sendFrame_ideal hk h]
  rfl

/-- Settles O20: the store of each frame, and the read after a write. -/
theorem idealDeviceStoresAndReplies : Obligations.IdealDeviceStoresAndReplies := by
  intro s t hk hwf
  obtain ⟨hc, h1, h2⟩ := (devicesWf_iff _).mp hwf
  refine ⟨fun a d h => ?_, fun a h => ?_, fun a d h => ?_, fun a d h => ?_, fun n a d h => ?_⟩
  · rw [sendFrame_ideal_env hk h, idealStore_cndEncWr]
    exact ⟨rfl, rfl, fun x => memRead_memWrite_of_wf x hc⟩
  · rw [sendFrame_ideal hk h, idealStore_cndEncRd, idealReply_cndEncRd]
    exact ⟨rfl, rfl⟩
  · rw [sendFrame_ideal_env hk h, show SynChan.first.chan = .syn1 from rfl, idealStore_syn1_write]
    exact ⟨rfl, rfl, fun x => memRead_memWrite_of_wf x h1⟩
  · rw [sendFrame_ideal_env hk h, show SynChan.second.chan = .syn2 from rfl, idealStore_syn2_write]
    exact ⟨rfl, rfl, fun x => memRead_memWrite_of_wf x h2⟩
  · rw [sendFrame_ideal_env hk h, idealStore_syn_read]

/-! ### The pin view (rules R33, R41) -/

theorem wireBits_length (f : Frame) : (wireBits f).length = 24 := by
  simp [wireBits]

theorem wireBits_getElem? (f : Frame) {i : Nat} (h : i < 24) :
    (wireBits f)[i]? = some ((word24 f).getLsbD (23 - i)) := by
  simp [wireBits, h, BitVec.getMsbD]

/-- The bits of a frame's word, byte 0 at the top. -/
theorem word24_getLsbD (f : Frame) {j : Nat} (h : j < 8) :
    (word24 f).getLsbD (16 + j) = f.b0.getLsbD j ∧ (word24 f).getLsbD (8 + j) = f.b1.getLsbD j ∧
      (word24 f).getLsbD j = f.b2.getLsbD j := by
  refine ⟨?_, ?_, ?_⟩
  · rw [word24, BitVec.getLsbD_append, if_neg (by omega), BitVec.getLsbD_append, if_neg (by omega)]
    congr 1
    omega
  · rw [word24, BitVec.getLsbD_append, if_neg (by omega), BitVec.getLsbD_append, if_pos (by omega)]
    congr 1
    omega
  · rw [word24, BitVec.getLsbD_append, if_pos h]

/-- Settles O21: the bits in wire order, and the chip select of the transfer's own channel. -/
theorem pinViewOfATransfer : Obligations.PinViewOfATransfer := by
  intro c c' f r s
  refine ⟨fun i hi => ?_, wireBits_length f, fun y i hi => wireBits_getElem? y hi, ?_, fun ev h => ?_⟩
  · obtain ⟨h0, h1, h2⟩ := word24_getLsbD f (j := 7 - i) (by omega)
    refine ⟨?_, ?_, ?_⟩
    · rw [pinMosi, wireBits_getElem? f (by omega), ← h0]
      congr 2
      omega
    · rw [pinMosi, wireBits_getElem? f (by omega), ← h1]
      congr 2
      omega
    · rw [pinMosi, wireBits_getElem? f (by omega), ← h2]
      congr 2
      omega
  · by_cases h : c = c'
    · simp [State.pinCs, selectedBy, h]
    · simp [State.pinCs, selectedBy, h, Ne.symm h]
  · cases ev with
    | xfer _ _ _ => cases h
    | _ => rfl

end Sys2Proof.Proofs.Bus
end

section
/-!
PROOFS. Steps and runs: the instruction a step runs (rules R201, R216), the reset input (rules R260 to
R262), and the phases in which nothing happens (rules R213, R214).
-/

namespace Sys2Proof.Proofs.Runs

open Sys2Proof.Machine Sys2Proof.Safety Sys2Proof.Laws

/-! ### Runs -/

/-- A run leads from one state to another. -/
def Reaches (s t : State) : Prop := ∃ n, core.run n s = .next t

theorem Reaches.refl (s : State) : Reaches s s := ⟨0, run_zero s⟩

theorem Reaches.trans {s t u : State} (h : Reaches s t) (h' : Reaches t u) : Reaches s u :=
  run_trans h h'

/-- One step of the phase's own instruction, and the run from its next state. -/
theorem Reaches.phase {s t u : State} (hu : Reaches t u) (hr : s.pinReset = false)
    (hh : s.hung = none) (hp : s.phase ≠ .pReset ∨ s.ops = []) (h : exec s.phase.instr s = .next t) :
    Reaches s u :=
  run_trans (run_one ((step_phase hr hh hp).trans h)) hu

/-! ### One step (rules R201, R261) -/

/-- A step that takes a request runs its instruction, and takes it off the list. -/
theorem step_request {s : State} {r : Request} {rest : List Request} {i : Instr}
    (hr : s.pinReset = false) (hh : s.hung = none) (hp : s.phase = .pReset) (ho : s.ops = r :: rest)
    (hd : decode r.port r.bytes = .ok i) : step s = exec i { s with ops := rest } := by
  have hreq : s.request = some r := by rw [State.request, hp, ho]
  simp [step, hr, State.waiting, hh, State.fetch, hreq, hd, runFetched, State.taken, ho]

theorem decode_phase_code (p : Phase) : decode .phase4 [p.code] = .ok p.instr := by
  cases p <;> rfl

/-- Settles O41: a request's instruction, or the phase's own. -/
theorem stepRunsTheFetchedInstruction : Obligations.StepRunsTheFetchedInstruction := by
  intro s i hr hh
  refine ⟨fun bs rest hp ho hd => step_request hr hh hp ho hd,
    fun c bs rest hp ho hd => step_request hr hh hp ho hd, fun hp hd => ?_⟩
  rw [decode_phase_code] at hd
  cases hd
  exact step_phase hr hh hp

/-- Settles O42: the reset input's values, and line by line what it keeps. -/
theorem resetInputResult : Obligations.ResetInputResult := by
  intro s h
  refine ⟨s.blockReset, step_reset h, rfl, rfl, rfl, rfl, rfl, rfl, rfl, rfl, rfl, rfl, rfl, rfl, rfl,
    rfl, rfl, List.length_map _, fun k l hl => ?_, rfl, rfl, rfl⟩
  refine ⟨{ l with exportedNow := false, dirNow := false }, ?_, rfl, rfl, rfl, rfl⟩
  rw [State.blockReset, List.getElem?_map, hl]
  rfl

/-! ### States at rest (rules R202, R213, R214) -/

theorem exec_pDone (s : State) : exec .pDone s = .next s := rfl

theorem exec_pFault (s : State) : exec .pFault s = .next s := rfl

theorem ended_iff (s : State) : s.ended = true ↔ s.phase = .pDone ∨ s.phase = .pFault := by
  simp [State.ended, State.done, State.fault]

/-- A step in a terminal phase changes nothing. -/
theorem step_ended {s : State} (he : s.ended = true) (hr : s.pinReset = false) : step s = .next s := by
  cases hh : s.hung with
  | some x => exact step_waiting hr (by rw [hh]; rfl)
  | none =>
    rcases (ended_iff s).mp he with hp | hp <;>
      rw [step_phase hr hh (.inl (by rw [hp]; exact Phase.noConfusion)), hp] <;> rfl

/-- Settles O40: a step in a terminal phase changes nothing, so a run does not. -/
theorem terminalPhasesHold : Obligations.TerminalPhasesHold :=
  fun s => ⟨exec_pDone s, exec_pFault s, fun he hr => run_fixed (step_ended he hr)⟩

/-! ### Phases of one step (rules R202, R211, R212) -/

/-- Settles O32: with `start`, the first phase that has something to do; without it, nothing. -/
theorem startPhaseResult : Obligations.StartPhaseResult := by
  intro s
  have hexec : exec .pReset s = execPReset s := rfl
  rw [hexec]
  refine ⟨fun hs hb => ?_, fun hs => ?_⟩
  · simp [execPReset, hs, hb, State.nLines]
  · simp [execPReset, hs]

/-- Settles O39: the settle's delay, then the releases and the exit. -/
theorem closePhaseResult : Obligations.ClosePhaseResult := by
  intro s
  refine ⟨rfl, ?_⟩
  rw [execPClose_eq, List.append_assoc]

/-- Settles O30: the delay's event. -/
theorem delayResult : Obligations.DelayResult := fun _ _ _ => rfl

/-- Settles O31: either value of READBACK_ENABLE has its own refusal. -/
theorem readbackRefused : Obligations.ReadbackRefused := by
  intro s
  have hread : exec .sReadback s = execSReadback s := rfl
  have hstart : exec .pReset s = execPReset s := rfl
  rw [hread, hstart]
  refine ⟨fun h => ?_, fun h => ⟨?_, fun hs => ?_⟩⟩
  · simp [execSReadback, h]
  · simp [execSReadback, h]
  · simp [execPReset, hs, h]

end Sys2Proof.Proofs.Runs
end

section
/-!
PROOFS. The control lines (44_reset_enable_sequencer.md): each operation from its answer, the whole of
`S.INIT_LINES`, and the phase P_LINES (rule R203) against it.
-/

namespace Sys2Proof.Proofs.Lines

open Sys2Proof.Machine Sys2Proof.Safety Sys2Proof.Laws Sys2Proof.Proofs.Runs

/-! ### The operations (rules R181 to R183) -/

theorem exec_lExport (k : Nat) (s : State) :
    exec (.lExport k) s = guarded (exportStop k s) (exportEff k s).st := rfl

theorem exec_lDir (k : Nat) (s : State) :
    exec (.lDir k) s = guarded (dirStop k s) (dirEff k s).st := rfl

theorem exec_lLevel (k : Nat) (v : Bool) (s : State) :
    exec (.lLevel k v) s = guarded (levelStop k s) (s.levelLine k v) := rfl

section line
variable {s : State} {k : Nat} {l : Line}

theorem modify_eq_set (f : Line → Line) (h : s.lines[k]? = some l) :
    s.lines.modify k f = s.lines.set k (f l) := by
  rw [List.modify_eq_set_getElem?, h]
  rfl

theorem exportStop_eq_none (h : s.lines[k]? = some l) : exportStop k s = none :=
  if_pos (lt_of_getElem? h)

theorem dirStop_eq_none (h : s.lines[k]? = some l) (he : l.exportedNow = true) : dirStop k s = none := by
  simp [dirStop, h, he]

theorem levelStop_eq_none (h : s.lines[k]? = some l) (hd : l.dirNow = true) : levelStop k s = none := by
  simp [levelStop, h, hd]

theorem exportEff_ok (h : s.lines[k]? = some l) (ha : s.env.lineExportAns l.cfg.id = .ok) :
    exportEff k s = ⟨{ s with
      env := s.env.afterLineExport
      trace := s.trace ++ [.lineExport k .ok]
      lines := s.lines.set k { l with exported := true, exportedNow := true } }, true⟩ := by
  rcases exportEff_cases k s with ⟨-, e⟩ | ⟨hf, -⟩
  · rw [e, modify_eq_set _ h]
  · simp [lineId_eq h, ha] at hf

theorem exportEff_fail (h : s.lines[k]? = some l) (ha : s.env.lineExportAns l.cfg.id = .fail) :
    exportEff k s = ⟨afterFatal { s with
      env := s.env.afterLineExport
      trace := s.trace ++ [.lineExport k .fail] } (diagLineSetup .lineExport k), false⟩ := by
  rcases exportEff_cases k s with ⟨ho, -⟩ | ⟨-, e⟩
  · simp [lineId_eq h, ha] at ho
  · exact e

theorem dirEff_ok (h : s.lines[k]? = some l) (ha : s.env.lineSetDirAns l.cfg.id = .ok) :
    dirEff k s = ⟨{ s with
      env := s.env.afterLineSetDir
      trace := s.trace ++ [.lineDir k .ok]
      lines := s.lines.set k { l with dir := .out, dirNow := true } }, true⟩ := by
  rcases dirEff_cases k s with ⟨-, e⟩ | ⟨hf, -⟩
  · rw [e, modify_eq_set _ h]
  · simp [lineId_eq h, ha] at hf

theorem dirEff_fail (h : s.lines[k]? = some l) (ha : s.env.lineSetDirAns l.cfg.id = .fail) :
    dirEff k s = ⟨afterFatal { s with
      env := s.env.afterLineSetDir
      trace := s.trace ++ [.lineDir k .fail] } (diagLineSetup .lineDir k), false⟩ := by
  rcases dirEff_cases k s with ⟨ho, -⟩ | ⟨-, e⟩
  · simp [lineId_eq h, ha] at ho
  · exact e

end line

/-- Settles O22: nothing stops the operation on a line that exists, and its effect is that of the
answer. -/
theorem lineExportResult : Obligations.LineExportResult := by
  intro k l s hl
  rw [exec_lExport, exportStop_eq_none hl, guarded_none]
  refine ⟨fun h => ?_, fun h => ?_⟩
  · rw [exportEff_ok hl h]
  · rw [exportEff_fail hl h]
    rfl

/-- Settles O23: nothing stops the operation on a line exported in this run, and its effect is that of
the answer. -/
theorem lineDirectionResult : Obligations.LineDirectionResult := by
  intro k l s hl he
  rw [exec_lDir, dirStop_eq_none hl he, guarded_none]
  refine ⟨fun h => ?_, fun h => ?_⟩
  · rw [dirEff_ok hl h]
  · rw [dirEff_fail hl h]
    rfl

/-- Settles O24: nothing stops the operation on a line made an output in this run. -/
theorem lineLevelResult : Obligations.LineLevelResult := by
  intro k v l s hl hd
  rw [exec_lLevel, levelStop_eq_none hl hd, guarded_none, levelLine_eq v hl]

/-- Settles O25: each operation first looks for its line. -/
theorem noSuchLineFaults : Obligations.NoSuchLineFaults := by
  intro k v s hk
  have hl : s.lines[k]? = none := List.getElem?_eq_none hk
  refine ⟨?_, ?_, ?_⟩
  · simp [exec_lExport, exportStop, State.nLines, Nat.not_lt.mpr hk, guarded]
  · simp [exec_lDir, dirStop, hl, guarded]
  · simp [exec_lLevel, levelStop, hl, guarded]

/-! ### `S.INIT_LINES` (rule R180) -/

theorem exec_sInitLines (s : State) :
    exec .sInitLines s = .next (initLinesFrom s.lines.length 0 s).st := rfl

/-- The lifecycles of `m + n` lines are those of `m` lines and then those of `n`. -/
theorem initLinesFrom_add (m n k : Nat) (s : State) :
    initLinesFrom (m + n) k s = (initLinesFrom m k s).andThen (initLinesFrom n (k + m)) := by
  induction m generalizing k s with
  | zero => simp [initLinesFrom]
  | succ m ih =>
    rw [Nat.succ_add, initLinesFrom, initLinesFrom]
    unfold Eff.andThen
    split
    · rw [ih, Nat.add_right_comm k 1 m]
      rfl
    · simp

theorem getElem?_append_length {α : Type} (xs ys : List α) (x : α) :
    (xs ++ x :: ys)[xs.length]? = some x := by
  simp

theorem set_append_length {α : Type} (xs ys : List α) (x y : α) :
    (xs ++ x :: ys).set xs.length y = xs ++ y :: ys := by
  simp

/-- Lines that answer `ok` go through their lifecycles; the lines around them are left alone. -/
theorem initLinesFrom_ok (mid before after : List Line) (s : State)
    (hs : s.lines = before ++ (mid ++ after)) (hok : linesAnsweredOk mid s.env) :
    initLinesFrom mid.length before.length s = ⟨{ s with
      env := envAfterLines mid s.env
      trace := s.trace ++ linesEvents before.length mid
      lines := before ++ (mid.map lineDone ++ after) }, true⟩ := by
  induction mid generalizing before s with
  | nil =>
    rw [List.nil_append] at hs
    simp [initLinesFrom, envAfterLines, linesEvents, ← hs]
  | cons l mid ih =>
    obtain ⟨he, hd, hrest⟩ := hok
    have hl : s.lines[before.length]? = some l := by rw [hs]; exact getElem?_append_length ..
    rcases initLineEff_cases hl with ⟨-, -, e⟩ | ⟨hf, -⟩ | ⟨-, hf, -⟩
    · have hlen : (before ++ [lineDone l]).length = before.length + 1 := by simp
      rw [List.length_cons, initLinesFrom, e, andThen_go, ← hlen, ih _ _ ?_ hrest]
      · simp [hlen, envAfterLines, linesEvents, List.append_assoc]
      · simp [hs]
    · simp [he] at hf
    · simp [hd] at hf

/-- The first line of the rest fails: its fatal entry ends `S.INIT_LINES`. -/
theorem initLinesFrom_failed {pre rest : List Line} {l : Line} {s u : State}
    (hs : s.lines = pre ++ l :: rest) (hok : linesAnsweredOk pre s.env)
    (hu : initLineEff pre.length { s with
      env := envAfterLines pre s.env
      trace := s.trace ++ linesEvents 0 pre
      lines := pre.map lineDone ++ l :: rest } = ⟨u, false⟩) :
    exec .sInitLines s = .next u := by
  have hlen : s.lines.length = pre.length + (rest.length + 1) := by rw [hs]; simp
  have hpre := initLinesFrom_ok pre [] (l :: rest) s hs hok
  simp only [List.length_nil, List.nil_append] at hpre
  rw [exec_sInitLines, hlen, initLinesFrom_add, hpre, andThen_go, Nat.zero_add, initLinesFrom, hu,
    andThen_stop]

/-- Settles O26: the lines before the first failure go through their lifecycles, and its fatal entry
ends the procedure. -/
theorem initLinesResult : Obligations.InitLinesResult := by
  intro s
  refine ⟨fun hok => ?_, fun pre rest l hs hok => ?_⟩
  · have h := initLinesFrom_ok s.lines [] [] s (by simp) hok
    simp only [List.length_nil, List.nil_append, List.append_nil] at h
    rw [exec_sInitLines, h]
  · have hl : (pre.map lineDone ++ l :: rest)[pre.length]? = some l := by
      rw [← List.length_map (f := lineDone)]
      exact getElem?_append_length ..
    have hset : ∀ l', (pre.map lineDone ++ l :: rest).set pre.length l' =
        pre.map lineDone ++ l' :: rest := by
      intro l'
      rw [← List.length_map (f := lineDone)]
      exact set_append_length ..
    refine ⟨fun he => ?_, fun he hd => ?_⟩ <;> refine initLinesFrom_failed hs hok ?_
    · rcases initLineEff_cases (s := { s with
        env := envAfterLines pre s.env
        trace := s.trace ++ linesEvents 0 pre
        lines := pre.map lineDone ++ l :: rest }) hl with ⟨hx, -⟩ | ⟨-, e⟩ | ⟨hx, -⟩
      · simp [he] at hx
      · rw [e, List.append_assoc]
        rfl
      · simp [he] at hx
    · rcases initLineEff_cases (s := { s with
        env := envAfterLines pre s.env
        trace := s.trace ++ linesEvents 0 pre
        lines := pre.map lineDone ++ l :: rest }) hl with ⟨-, hx, -⟩ | ⟨hx, -⟩ | ⟨-, -, e⟩
      · simp [hd] at hx
      · simp [he] at hx
      · rw [e, hset, List.append_assoc]
        rfl

/-! ### The sub-steps of P_LINES (rule R203) -/

theorem nextLine_eq (s : State) : s.nextLine =
    if s.li + 1 < s.lines.length then { s with li := s.li + 1, sub := .s0 }
    else { s with phase := .pLineSettle, sub := .s0 } := rfl

section phase
variable {s : State} {l : Line} (hl : s.lines[s.li]? = some l)
include hl

theorem exec_pLines_s0 (hs : s.sub = .s0) : exec .pLines s =
    guarded (exportStop s.li s) ((exportEff s.li s).update fun t => { t with sub := .s1 }) := by
  rw [exec, execPLines, hs, hl]

theorem exec_pLines_s1 (hs : s.sub = .s1) : exec .pLines s =
    guarded (dirStop s.li s) ((dirEff s.li s).update fun t => { t with sub := .s2 }) := by
  rw [exec, execPLines, hs, hl]

theorem exec_pLines_s2 (hs : s.sub = .s2) : exec .pLines s = guarded (levelStop s.li s)
    ((s.levelLine s.li (firstLevel l.cfg.policy)).afterLevelA l.cfg.policy) := by
  rw [exec, execPLines, hs, hl]

theorem exec_pLines_s4 (hs : s.sub = .s4) : exec .pLines s =
    guarded (levelStop s.li s) (s.levelLine s.li false).nextLine := by
  rw [exec, execPLines, hs, hl]

theorem pLines_export_ok (hs : s.sub = .s0) (ha : s.env.lineExportAns l.cfg.id = .ok) :
    exec .pLines s = .next { s with
      env := s.env.afterLineExport
      trace := s.trace ++ [.lineExport s.li .ok]
      lines := s.lines.set s.li { l with exported := true, exportedNow := true }
      sub := .s1 } := by
  rw [exec_pLines_s0 hl hs, exportStop_eq_none hl, guarded_none, exportEff_ok hl ha, update_go]

theorem pLines_export_fail (hs : s.sub = .s0) (ha : s.env.lineExportAns l.cfg.id = .fail) :
    exec .pLines s = .next (afterFatal { s with
      env := s.env.afterLineExport
      trace := s.trace ++ [.lineExport s.li .fail] } (diagLineSetup .lineExport s.li)) := by
  rw [exec_pLines_s0 hl hs, exportStop_eq_none hl, guarded_none, exportEff_fail hl ha, update_stop]

theorem pLines_dir_ok (hs : s.sub = .s1) (he : l.exportedNow = true)
    (ha : s.env.lineSetDirAns l.cfg.id = .ok) :
    exec .pLines s = .next { s with
      env := s.env.afterLineSetDir
      trace := s.trace ++ [.lineDir s.li .ok]
      lines := s.lines.set s.li { l with dir := .out, dirNow := true }
      sub := .s2 } := by
  rw [exec_pLines_s1 hl hs, dirStop_eq_none hl he, guarded_none, dirEff_ok hl ha, update_go]

theorem pLines_dir_fail (hs : s.sub = .s1) (he : l.exportedNow = true)
    (ha : s.env.lineSetDirAns l.cfg.id = .fail) :
    exec .pLines s = .next (afterFatal { s with
      env := s.env.afterLineSetDir
      trace := s.trace ++ [.lineDir s.li .fail] } (diagLineSetup .lineDir s.li)) := by
  rw [exec_pLines_s1 hl hs, dirStop_eq_none hl he, guarded_none, dirEff_fail hl ha, update_stop]

theorem pLines_pulse_high (hs : s.sub = .s2) (hd : l.dirNow = true) (hp : l.cfg.policy = .pulse) :
    exec .pLines s = .next { s with
      trace := s.trace ++ [.lineLevel s.li true]
      lines := s.lines.set s.li { l with level := some true }
      sub := .s3 } := by
  rw [exec_pLines_s2 hl hs, levelStop_eq_none hl hd, guarded_none, levelLine_eq _ hl, hp]
  rfl

theorem pLines_static {v : Bool} (hs : s.sub = .s2) (hd : l.dirNow = true)
    (hp : l.cfg.policy = .static v) :
    exec .pLines s = .next (State.nextLine { s with
      trace := s.trace ++ [.lineLevel s.li v]
      lines := s.lines.set s.li { l with level := some v } }) := by
  rw [exec_pLines_s2 hl hs, levelStop_eq_none hl hd, guarded_none, levelLine_eq _ hl, hp]
  rfl

theorem pLines_hold (hs : s.sub = .s3) : exec .pLines s = .next { s with
    trace := s.trace ++ [.delay (.pulse s.li) l.cfg.tPulse]
    sub := .s4 } := by
  rw [exec, execPLines, hs, hl]
  rfl

theorem pLines_pulse_low (hs : s.sub = .s4) (hd : l.dirNow = true) :
    exec .pLines s = .next (State.nextLine { s with
      trace := s.trace ++ [.lineLevel s.li false]
      lines := s.lines.set s.li { l with level := some false } }) := by
  rw [exec_pLines_s4 hl hs, levelStop_eq_none hl hd, guarded_none, levelLine_eq _ hl]

end phase

/-- Settles O33: the sub-steps one by one. -/
theorem linesPhaseResult : Obligations.LinesPhaseResult := by
  intro l s hl
  refine ⟨pLines_export_ok hl, pLines_export_fail hl, pLines_dir_ok hl, pLines_dir_fail hl,
    pLines_pulse_high hl, fun v hs hd hp => ?_, pLines_hold hl, fun hs hd => ?_⟩
  · rw [pLines_static hl hs hd hp, nextLine_eq, List.length_set]
  · rw [pLines_pulse_low hl hs hd, nextLine_eq, List.length_set]

/-! ### P_LINES against `S.INIT_LINES` (log 29) -/

/-- In P_LINES, with no reset and no transfer waited for. -/
def InLines (s : State) : Prop := s.phase = .pLines ∧ s.pinReset = false ∧ s.hung = none

/-- One sub-step of P_LINES, and the run from its next state. -/
theorem InLines.head {s t u : State} (h : InLines s) (he : exec .pLines s = .next t)
    (hu : Reaches t u) : Reaches s u := by
  obtain ⟨hp, hr, hh⟩ := h
  refine hu.phase hr hh (.inl (by rw [hp]; exact Phase.noConfusion)) ?_
  rw [hp]
  exact he

/-- A line made an output goes through the levels of its policy. -/
theorem reaches_policy {s : State} {l : Line} (hin : InLines s) (hl : s.lines[s.li]? = some l)
    (hs : s.sub = .s2) (hd : l.dirNow = true) : Reaches s (State.nextLine { s with
      trace := s.trace ++ policyEvents s.li l.cfg
      lines := s.lines.set s.li { l with level := some (finalLevel l.cfg.policy) } }) := by
  have hlt := lt_of_getElem? hl
  unfold policyEvents finalLevel
  cases hp : l.cfg.policy with
  | static v => exact hin.head (pLines_static hl hs hd hp) (.refl _)
  | pulse =>
    refine hin.head (pLines_pulse_high hl hs hd hp) ?_
    have hl' : (s.lines.set s.li { l with level := some true })[s.li]? =
        some { l with level := some true } := by simp [hlt]
    refine InLines.head hin (pLines_hold hl' rfl) ?_
    refine InLines.head hin (pLines_pulse_low hl' rfl hd) ?_
    simp only [nextLine_eq, List.length_set, List.set_set, List.append_assoc]
    exact .refl _

/-- The state of P_LINES that works on line `k`, at a sub-step. -/
def atLine (s : State) (k : Nat) (x : Sub) : State := { s with li := k, sub := x }

/-- One line: the sub-steps reach what its lifecycle in one step leaves, and the next line, or where the
fatal entry left `sub`. -/
theorem reaches_line {s : State} {k : Nat} {l : Line} (hin : InLines s) (hl : s.lines[k]? = some l) :
    ((initLineEff k s).go = true → InLines (initLineEff k s).st ∧
      (initLineEff k s).st.lines.length = s.lines.length ∧
      Reaches (atLine s k .s0) (atLine (initLineEff k s).st k .s0).nextLine) ∧
    ((initLineEff k s).go = false → (initLineEff k s).st.phase = .pFault ∧
      ∃ x, Reaches (atLine s k .s0) (atLine (initLineEff k s).st k x)) := by
  have hlt := lt_of_getElem? hl
  have hl1 : ∀ l1, (s.lines.set k l1)[k]? = some l1 := fun l1 => by simp [hlt]
  have hl2 : ∀ l1 l2, ((s.lines.set k l1).set k l2)[k]? = some l2 := fun l1 l2 => by simp [hlt]
  have hin0 : InLines (atLine s k .s0) := hin
  rcases initLineEff_cases hl with ⟨he, hd, e⟩ | ⟨he, e⟩ | ⟨he, hd, e⟩ <;> rw [e]
  · refine ⟨fun _ => ⟨hin, List.length_set, ?_⟩, fun h => (by cases h)⟩
    refine hin0.head (pLines_export_ok hl rfl he) ?_
    refine InLines.head hin (pLines_dir_ok (hl1 _) rfl rfl hd) ?_
    refine Reaches.trans (reaches_policy (by exact hin) (hl2 _ _) rfl rfl) ?_
    simp only [atLine, nextLine_eq, lineEvents_eq, lineDone, List.length_set, List.set_set,
      List.append_assoc]
    exact .refl _
  · refine ⟨fun h => (by cases h), fun _ => ⟨rfl, .s0, ?_⟩⟩
    exact hin0.head (pLines_export_fail hl rfl he) (.refl _)
  · refine ⟨fun h => (by cases h), fun _ => ⟨rfl, .s1, ?_⟩⟩
    refine hin0.head (pLines_export_ok hl rfl he) ?_
    refine InLines.head hin (pLines_dir_fail (hl1 _) rfl rfl hd) ?_
    simp only [atLine, List.append_assoc]
    exact .refl _

/-- What the steps of P_LINES leave, against what `S.INIT_LINES` leaves: past the last of `n` lines, or the
same fatal entry. -/
def SameAsInit (n : Nat) (u t : State) : Prop :=
  (u.phase = .pLines ∧ t = { u with phase := .pLineSettle, sub := .s0, li := n - 1 }) ∨
    (u.phase = .pFault ∧ t = { u with sub := t.sub, li := t.li })

/-- The last `n` lines, at least one. -/
theorem reaches_lines (n : Nat) : ∀ (k : Nat) (s : State), InLines s → k + n = s.lines.length → 0 < n →
    ∃ t, Reaches (atLine s k .s0) t ∧ SameAsInit s.lines.length (initLinesFrom n k s).st t := by
  induction n with
  | zero => exact fun _ _ _ _ h => absurd h (Nat.lt_irrefl 0)
  | succ n ih =>
    intro k s hin hk _
    obtain ⟨hgo, hstop⟩ := reaches_line hin (List.getElem?_eq_getElem (show k < s.lines.length by omega))
    rw [initLinesFrom, Eff.andThen]
    generalize initLineEff k s = e at hgo hstop
    cases hg : e.go with
    | false =>
      obtain ⟨hp, x, hr⟩ := hstop hg
      exact ⟨_, hr, .inr ⟨hp, rfl⟩⟩
    | true =>
      obtain ⟨hin', hlen, hr⟩ := hgo hg
      rw [nextLine_eq, show (atLine e.st k .s0).lines.length = s.lines.length from hlen] at hr
      rcases Nat.eq_zero_or_pos n with rfl | hn
      · rw [if_neg (by simp only [atLine]; omega)] at hr
        refine ⟨_, hr, .inl ⟨hin'.1, ?_⟩⟩
        have hk' : k = s.lines.length - 1 := by omega
        rw [hk']
        rfl
      · rw [if_pos (by simp only [atLine]; omega)] at hr
        obtain ⟨t, ht, hsame⟩ := ih (k + 1) e.st hin' (by omega) hn
        exact ⟨t, hr.trans ht, hlen ▸ hsame⟩

/-- Settles O27: line by line, the sub-steps reach what a lifecycle in one step leaves. -/
theorem linesPhaseRefinesInitLines : Obligations.LinesPhaseRefinesInitLines := by
  intro s hp hsub hli hne hh hr
  have hs : atLine s 0 .s0 = s := by rw [atLine, ← hsub, ← hli]
  obtain ⟨t, ⟨n, hn⟩, hsame⟩ := reaches_lines s.lines.length 0 s ⟨hp, hr, hh⟩ (Nat.zero_add _)
    (List.length_pos_iff.mpr hne)
  rw [hs] at hn
  exact ⟨n, t, _, hn, exec_sInitLines s, hsame⟩

end Sys2Proof.Proofs.Lines
end

section
/-!
PROOFS. The programming sequencer (43_programming_sequencer.md): the sub-steps of a replay phase,
`S.PROGRAM`, and the phase against it.
-/

namespace Sys2Proof.Proofs.Replay

open Sys2Proof.Machine Sys2Proof.Safety Sys2Proof.Laws Sys2Proof.Proofs.Runs
open Sys2Proof.Proofs.Bus (exec_prog exec_prog_xfer)

/-! ### The sub-steps (rules R161 to R163, R206) -/

theorem progPhaseOf_ne_pReset (c : Chan) : progPhaseOf c ≠ .pReset := by
  cases c <;> exact Phase.noConfusion

theorem lt_imageLength {s : State} {c : Chan} {f : Frame} (h : entryFrame s.cfg c s.idx = some f) :
    s.idx < s.imageLength c := by
  rw [entryFrame_eq] at h
  rw [← imageFrames_length]
  exact lt_of_getElem? h

theorem exists_entryFrame {s : State} {c : Chan} (h : s.idx < s.imageLength c) :
    ∃ f, entryFrame s.cfg c s.idx = some f := by
  rw [← imageFrames_length] at h
  exact ⟨_, (entryFrame_eq ..).trans (List.getElem?_eq_getElem h)⟩

/-- The XFER sub-step on an entry, the channel configured. -/
theorem exec_prog_entry {s : State} {c : Chan} (hs : s.sub = .s0) (hi : s.idx < s.imageLength c)
    (hc : s.configured c = true) : exec (progPhaseOf c).instr s = .next (xferSubEff c s).st := by
  rw [exec_prog_xfer hs hi, xferStop_of_configured hc, guarded_none]

theorem exec_prog_gap {s : State} (c : Chan) (hs : s.sub = .s1) :
    exec (progPhaseOf c).instr s = .next (s.gap c) := by
  rw [exec_prog, progPhase, hs]

theorem exec_prog_exit {s : State} {c : Chan} (hs : s.sub = .s0) (hi : s.idx = s.imageLength c) :
    exec (progPhaseOf c).instr s = .next (s.enter (settlePhaseOf c)) := by
  rw [exec_prog, progPhase, hs]
  exact if_pos hi

theorem envAnswered_ok (c : Chan) (f y : Frame) (e : Env) :
    envAnswered c f (.ok y) e = e.afterXfer c f := rfl

/-- Settles O36: the entry is fetched, and the answer decides the rest. -/
theorem replayTransferResult : Obligations.ReplayTransferResult := by
  intro c f s hs hf hc i e rec_
  have hexec : exec i s = .next (xferSubEff c s).st := exec_prog_entry hs (lt_imageLength hf) hc
  obtain ⟨a, d, w, hcnd, hsyn, hcase⟩ := xferSubEff_cases hf
  rw [hexec]
  refine ⟨a, d, w, fun r hr => ?_, fun r hr h => ?_, fun h => ?_, hcnd, hsyn⟩
  · rcases hcase with ⟨hn, -⟩ | ⟨r', x, hr', hx, e⟩
    · simp [hr] at hn
    · cases hr.symm.trans hr'
      rw [e, hx r rfl]
      rfl
  · rcases hcase with ⟨hn, -⟩ | ⟨r', x, hr', -, e⟩
    · simp [h] at hn
    · cases h.symm.trans hr'
      refine ⟨x, (s.env.afterXfer c f).draws + 1, ?_⟩
      rw [e]
      simp only [envAnswered, reportOf, hr, if_pos]
      rfl
  · rcases hcase with ⟨-, e⟩ | ⟨r, x, hr, -⟩
    · rw [e]
    · simp [h] at hr

/-- Settles O37: the gap, and the exit at the end of the image. -/
theorem replayGapAndExit : Obligations.ReplayGapAndExit := by
  intro c s
  refine ⟨fun hs => exec_prog_gap c hs, fun hs hi => ?_⟩
  exact exec_prog_exit hs (hi.trans (imageFrames_length s c))

/-- Once a transfer is waited for, the state stays as it is. -/
theorem run_of_step_to_waiting {s t : State} (h : step s = .next t) (hr : t.pinReset = false)
    (hh : t.hung.isSome = true) (n : Nat) : core.run (n + 1) s = .next t :=
  (run_succ n h).trans (run_fixed (step_waiting hr hh) n)

/-- Settles O44: the sub-step leaves a state that waits, and a state that waits is held. -/
theorem hungTransferHolds : Obligations.HungTransferHolds := by
  intro c f s hp hs hh hr hf hc hn
  obtain ⟨a, d, w, -, -, ⟨-, e⟩ | ⟨r, x, hans, -⟩⟩ := xferSubEff_cases hf
  · have hexec : exec s.phase.instr s = .next (xferSubEff c s).st :=
      hp ▸ exec_prog_entry hs (lt_imageLength hf) hc
    have hstep := (step_phase hr hh (.inl (hp ▸ progPhaseOf_ne_pReset c))).trans hexec
    rw [e] at hstep
    refine ⟨{ s with
      opA := a, opD := d, opW := w, txf := f
      env := s.env.afterXfer c f
      hung := some ⟨c, f⟩ }, rfl, hs, rfl, rfl, rfl, ?_, ?_, rfl, rfl, fun n => ?_⟩
    · rw [State.done, hp]
      cases c <;> rfl
    · rw [State.fault, hp]
      cases c <;> rfl
    · exact run_of_step_to_waiting hstep hr rfl n
  · simp [hn] at hans

/-! ### `S.PROGRAM` (rules R160, R169) -/

theorem exec_sProgram {c : Chan} {s : State} (hc : s.configured c = true) :
    exec (.sProgram c) s = .next (replayEff c (s.imageLength c) { s with idx := 0, sub := .s0 }).st := by
  have h : exec (.sProgram c) s = guarded (xferStop c s) (programEff c s).st := rfl
  rw [h, xferStop_of_configured hc, guarded_none, programEff]

/-- Settles O28: the replay of the whole image from entry 0. -/
theorem programSendsTheWholeImage : Obligations.ProgramSendsTheWholeImage := by
  intro c s hc hh fs rs
  obtain ⟨t, he, ht, hl, hx0, hx⟩ := replayEff_eq c (s.imageLength c) { s with idx := 0, sub := .s0 }
    ((Nat.zero_add _).trans (imageFrames_length s c).symm) rfl hh
  refine ⟨t, (exec_sProgram hc).trans (by rw [he]), ?_, ?_, hx0, hx⟩
  · simp only [afterReplay, List.drop_zero, Nat.zero_add] at ht
    exact ht
  · have hne : fs ≠ [] ↔ 0 < s.imageLength c := by
      rw [← imageFrames_length, List.length_pos_iff]
    rw [hne]
    exact hl

/-! ### A replay phase against `S.PROGRAM` (log 29) -/

/-- In the replay phase of a configured channel, before an entry, with no reset and no transfer waited
for. -/
structure InReplay (c : Chan) (s : State) : Prop where
  phase : s.phase = progPhaseOf c
  sub : s.sub = .s0
  reset : s.pinReset = false
  hung : s.hung = none
  configured : s.configured c = true

/-- The steps of the phase reach what `n` entries in one step leave. -/
theorem reaches_replay (c : Chan) (n : Nat) : ∀ s : State, InReplay c s →
    s.idx + n = s.imageLength c → Reaches s (replayEff c n s).st := by
  induction n with
  | zero => exact fun s _ _ => .refl s
  | succ n ih =>
    rintro s ⟨hp, hs, hr, hh, hc⟩ hi
    have hlt : s.idx < s.imageLength c := by omega
    obtain ⟨f, hf⟩ := exists_entryFrame hlt
    have hnr := progPhaseOf_ne_pReset c
    have hexec : exec s.phase.instr s = .next (xferSubEff c s).st := hp ▸ exec_prog_entry hs hlt hc
    refine Reaches.phase ?_ hr hh (.inl (hp ▸ hnr)) hexec
    rw [replayEff, entryEff]
    obtain ⟨a, d, w, -, -, ⟨-, e⟩ | ⟨r, x, -, -, e⟩⟩ := xferSubEff_cases hf
    · rw [e]
      exact .refl _
    · rw [e, andThen_go, andThen_go]
      refine Reaches.phase (ih _ ⟨hp, rfl, hr, hh, hc⟩ ?_) hr hh (.inl (hp ▸ hnr)) ?_
      · exact (Nat.add_right_comm ..).trans hi
      · exact hp ▸ exec_prog_gap c rfl

/-- Settles O29: entry by entry, the sub-steps reach what the whole replay leaves. -/
theorem replayPhaseRefinesProgram : Obligations.ReplayPhaseRefinesProgram := by
  intro c s hp hs hi hh hr hc
  obtain ⟨n, hn⟩ := reaches_replay c (s.imageLength c) s ⟨hp, hs, hr, hh, hc⟩ (by omega)
  have hs0 : ({ s with idx := 0, sub := .s0 } : State) = s := by rw [← hi, ← hs]
  exact ⟨n, _, hn, (exec_sProgram hc).trans (by rw [hs0])⟩

end Sys2Proof.Proofs.Replay
end

section
/-!
PROOFS. The phase P_OPEN (rule R205), sub-step by sub-step.
-/

namespace Sys2Proof.Proofs.Opening

open Sys2Proof.Machine Sys2Proof.Safety Sys2Proof.Laws Sys2Proof.Proofs.Bus

theorem exec_pOpen_s0 {s : State} (hs : s.sub = .s0) : exec .pOpen s =
    guarded (openStop s.ci s) ((openEff s.ci s).update fun t => { t with sub := .s1 }) := by
  rw [exec, execPOpen, hs]

theorem exec_pOpen_cfg {s : State} {w : CfgWhich} (hs : s.sub = cfgSub w) : exec .pOpen s =
    guarded (cfgStop s.ci w s) ((cfgEff s.ci w s).update (afterCfg w)) := by
  rw [exec, execPOpen, hs]
  cases w <;> rfl

/-- A configuration step that is not verified ends the run. -/
theorem cfgEff_go_false {c : Chan} {w : CfgWhich} {s : State}
    (h : s.env.cfgSetAns c w ((s.cfg.chans.get c).value w) = .fail ∨
      s.env.afterCfgSet.cfgGetAns c w ((s.cfg.chans.get c).value w) ≠
        .value ((s.cfg.chans.get c).value w)) : (cfgEff c w s).go = false := by
  rcases cfgEff_cases c w s with ⟨hv, -⟩ | ⟨-, e⟩
  · obtain ⟨hs, hg⟩ := verifyRes_verified_iff.mp hv
    rcases h with h | h
    · simp [h] at hs
    · exact absurd hg h
  · rw [e]

theorem update_of_go_false {e : Eff} (h : e.go = false) (f : State → State) : e.update f = e.st := by
  simp [Eff.update, h]

/-- The opening of channel `ci`, answered `ok`. -/
theorem pOpen_open_ok {s : State} (hs : s.sub = .s0) (ho : (s.ch.get s.ci).isOpen = false)
    (hi : (s.ch.get s.ci).iwd = none)
    (ha : s.env.chanOpenAns (s.cfg.chans.get s.ci).path = .ok) :
    exec .pOpen s = .next { s with
      env := s.env.afterChanOpen
      trace := s.trace ++ [.chanOpen s.ci .ok]
      ch := s.ch.set s.ci
        { s.ch.get s.ci with isOpen := true, iwd := some (s.cfg.chans.get s.ci).iwd }
      sub := .s1 } := by
  rw [exec_pOpen_s0 hs, openStop_eq_none ho hi, guarded_none, openEff_ok ha, update_go]

/-- A configuration step of channel `ci`, verified. -/
theorem pOpen_verified {s : State} {w : CfgWhich} (hs : s.sub = cfgSub w)
    (hr : cfgReady (s.ch.get s.ci) w = true)
    (ha : s.env.cfgSetAns s.ci w ((s.cfg.chans.get s.ci).value w) = .ok)
    (hg : s.env.afterCfgSet.cfgGetAns s.ci w ((s.cfg.chans.get s.ci).value w) =
      .value ((s.cfg.chans.get s.ci).value w)) :
    exec .pOpen s = .next (afterCfg w { s with
      env := s.env.afterCfgSet.afterCfgGet
      trace := s.trace ++ [.cfg s.ci w ((s.cfg.chans.get s.ci).value w) .verified]
      ch := s.ch.set s.ci ((s.ch.get s.ci).store ((s.cfg.chans.get s.ci).value w)) }) := by
  rw [exec_pOpen_cfg hs, cfgStop_eq_none hr, guarded_none, cfgEff_verified ha hg, update_go]

/-- What follows a verified step, by the step and the channel. -/
theorem afterCfg_eq (w : CfgWhich) (s : State) : afterCfg w s = match w, s.ci with
    | .mode, _ => { s with sub := .s2 }
    | .bits, _ => { s with sub := .s3 }
    | .hz, .cnd => { s with ci := .syn1, sub := .s0 }
    | .hz, .syn1 => { s with ci := .syn2, sub := .s0 }
    | .hz, .syn2 => { s with idx := 0, sub := .s0, phase := .pProgCnd } := by
  cases w with
  | mode => rfl
  | bits => rfl
  | hz =>
    obtain ⟨_, _, _, ci⟩ := s
    cases ci <;> rfl

/-- Settles O35: each sub-step is its operation and what follows it; an operation that fails leaves
nothing to follow. -/
theorem openPhaseResult : Obligations.OpenPhaseResult := by
  intro s h p
  refine ⟨pOpen_open_ok, fun hs ho hi ha => ?_, fun w hs hr => ⟨fun ha hg => ?_, fun hbad => ?_⟩⟩
  · rw [exec_pOpen_s0 hs, exec_tOpen, openEff_fail ha, update_stop]
  · have hw : s.sub = cfgSub w := by cases w <;> exact hs
    exact (pOpen_verified hw hr ha hg).trans (congrArg Host.Outcome.next (afterCfg_eq w _))
  · have hw : s.sub = cfgSub w := by cases w <;> exact hs
    rw [exec_pOpen_cfg hw, exec_cfgInstr, update_of_go_false (cfgEff_go_false hbad)]

end Sys2Proof.Proofs.Opening
end

section
/-!
PROOFS. The invariant of a bring-up run: it holds right after reset, every step keeps it (rules R202 to
R214), and under it every step has a next state (rule R216).
-/

namespace Sys2Proof.Proofs.RunInvariant

open Sys2Proof.Machine Sys2Proof.Safety Sys2Proof.Laws
open Sys2Proof.Proofs.ResetHazards (reset_ch_get configuredBeforeTransmit_iff)
open Sys2Proof.Proofs.ResetEnable (nextChannel_lines)
open Sys2Proof.Proofs.BringUp (exec_pLineSettle exec_pSettleCnd exec_pSettleSyn1)
open Sys2Proof.Proofs.Bus (openStop_eq_none cfgStop_eq_none)
open Sys2Proof.Proofs.Runs (startPhaseResult)
open Sys2Proof.Proofs.Lines
open Sys2Proof.Proofs.Replay
open Sys2Proof.Proofs.Opening (exec_pOpen_s0 exec_pOpen_cfg)

/-! ### The lines set up so far -/

/-- The first `n` lines are set up. -/
def SetUpTo (lines : List Line) (n : Nat) : Prop :=
  ∀ (k : Nat) (l : Line), k < n → lines[k]? = some l → LineSetUp l

theorem setUpTo_zero (lines : List Line) : SetUpTo lines 0 := fun _ _ h => absurd h (Nat.not_lt_zero _)

/-- Once every line is set up, so is any stretch of them. -/
theorem SetUpTo.all {lines : List Line} {n : Nat} (h : SetUpTo lines n) (hn : lines.length ≤ n)
    (m : Nat) : SetUpTo lines m :=
  fun k l _ hl => h k l ((lt_of_getElem? hl).trans_le hn) hl

/-- Working on the next line leaves those set up as they are. -/
theorem SetUpTo.set {lines : List Line} {n : Nat} (h : SetUpTo lines n) (l' : Line) :
    SetUpTo (lines.set n l') n := by
  intro k l hk hl
  rw [List.getElem?_set_ne hk.ne'] at hl
  exact h k l hk hl

/-- The next line is set up too. -/
theorem SetUpTo.set_succ {lines : List Line} {n : Nat} {l' : Line} (h : SetUpTo lines n)
    (hl' : LineSetUp l') : SetUpTo (lines.set n l') (n + 1) := by
  intro k l hk hl
  rcases Nat.lt_succ_iff_lt_or_eq.mp hk with hlt | rfl
  · exact h.set l' k l hlt hl
  · obtain ⟨hk', rfl⟩ := List.getElem?_eq_some_iff.mp hl
    rwa [List.getElem_set_self]

/-! ### What the invariant says, phase by phase -/

/-- The part of the invariant that a step has to establish again. -/
def Promised (s : State) : Prop := PhaseInv s ∧ LinesInv s ∧ ExitInv s

/-- The phases from the line settle to the releases. -/
def afterLines : Phase → Bool
  | .pReset => false
  | .pLines => false
  | .pDone => false
  | .pFault => false
  | _ => true

@[simp] theorem afterLines_progPhaseOf (c : Chan) : afterLines (progPhaseOf c) = true := by
  cases c <;> rfl

@[simp] theorem afterLines_settlePhaseOf (c : Chan) : afterLines (settlePhaseOf c) = true := by
  cases c <;> rfl

/-- All channels ready, nothing waited for, at the first sub-step. -/
def Settled (s : State) : Prop := s.ch = allReady s.cfg.chans ∧ s.sub = .s0 ∧ s.hung = none

/-- What the steps of a line before a sub-step have done to it. -/
def LineAt (l : Line) : Sub → Prop
  | .s0 => True
  | .s1 => l.exportedNow = true ∧ l.exported = true
  | .s2 => l.dirNow = true ∧ l.exported = true ∧ l.dir = .out
  | .s3 => l.dirNow = true ∧ l.exported = true ∧ l.dir = .out ∧ l.cfg.policy = .pulse
  | .s4 => l.dirNow = true ∧ l.exported = true ∧ l.dir = .out ∧ l.cfg.policy = .pulse

section phases
variable {s : State}

/-- From the line settle to the releases every line is set up and there is no exit status. -/
theorem linesExit_iff (h : afterLines s.phase = true) :
    LinesInv s ∧ ExitInv s ↔ SetUpTo s.lines s.lines.length ∧ s.exitStatus = none := by
  unfold LinesInv linesSetUp ExitInv SetUpTo
  generalize s.phase = p at h
  cases p
  case pReset => cases h
  case pLines => cases h
  case pDone => cases h
  case pFault => cases h
  all_goals rfl

theorem phaseInv_pReset (h : s.phase = .pReset) :
    PhaseInv s ↔ s.ch = allFresh ∧ s.sub = .s0 ∧ s.hung = none := by
  rw [PhaseInv, h]

theorem promised_pLines (h : s.phase = .pLines) : Promised s ↔
    (s.ch = allFresh ∧ LineProgress s ∧ s.hung = none) ∧ SetUpTo s.lines s.li ∧
      s.exitStatus = none := by
  rw [Promised, PhaseInv, LinesInv, linesSetUp, ExitInv, h]
  rfl

theorem phaseInv_pLineSettle (h : s.phase = .pLineSettle) :
    PhaseInv s ↔ s.ch = allFresh ∧ s.sub = .s0 ∧ s.hung = none := by
  rw [PhaseInv, h]

theorem phaseInv_pOpen (h : s.phase = .pOpen) : PhaseInv s ↔ OpenProgress s ∧ s.hung = none := by
  rw [PhaseInv, h]

theorem phaseInv_prog {c : Chan} (h : s.phase = progPhaseOf c) : PhaseInv s ↔ ReplayProgress s c := by
  rw [PhaseInv, h]
  cases c <;> rfl

theorem phaseInv_settle {c : Chan} (h : s.phase = settlePhaseOf c) : PhaseInv s ↔ Settled s := by
  rw [PhaseInv, h]
  cases c <;> rfl

theorem phaseInv_pClose (h : s.phase = .pClose) : PhaseInv s ↔ Settled s := by
  rw [PhaseInv, h]
  rfl

theorem lineProgress_iff :
    LineProgress s ↔ ∃ l, s.lines[s.li]? = some l ∧ LineAt l s.sub := by
  unfold LineProgress
  cases s.lines[s.li]? with
  | none => simp
  | some l => cases h : s.sub <;> simp [LineAt]

/-- Before its first step a line only has to exist. -/
theorem lineProgress_s0 (hs : s.sub = .s0) (h : s.li < s.lines.length) : LineProgress s :=
  lineProgress_iff.mpr ⟨_, List.getElem?_eq_getElem h, by rw [hs]; trivial⟩

/-- The channels of P_OPEN, one clause for each side of `ci`. -/
theorem openProgress_iff : OpenProgress s ↔
    opening (s.cfg.chans.get s.ci) s.sub = some (s.ch.get s.ci) ∧
    (∀ c, c.index < s.ci.index → s.ch.get c = ready (s.cfg.chans.get c)) ∧
    (∀ c, s.ci.index < c.index → s.ch.get c = .fresh) := by
  have hall : ∀ P : Chan → Prop, (∀ c, P c) ↔ P .cnd ∧ P .syn1 ∧ P .syn2 := fun P =>
    ⟨fun h => ⟨h _, h _, h _⟩, fun ⟨h0, h1, h2⟩ c => by cases c <;> assumption⟩
  unfold OpenProgress
  rw [hall, hall]
  cases s.ci with
  | cnd => simp [Chan.index, Three.get]
  | syn1 => simpa [Chan.index, Three.get] using and_left_comm
  | syn2 => simpa [Chan.index, Three.get] using and_rotate.symm

/-- All channels ready, as they are one by one. -/
theorem eq_allReady_iff {ch : Three Channel} {p : Three ChanCfg} :
    ch = allReady p ↔ ∀ c, ch.get c = ready (p.get c) := by
  constructor
  · rintro rfl c
    cases c <;> rfl
  · intro h
    refine three_ext fun c => (h c).trans ?_
    cases c <;> rfl

theorem configured_of_allReady (h : s.ch = allReady s.cfg.chans) (c : Chan) :
    s.configured c = true := by
  simp [State.configured, eq_allReady_iff.mp h c, channelConfigured, ready]

theorem fresh_get (c : Chan) : allFresh.get c = .fresh := by cases c <;> rfl

end phases

/-! ### Every step keeps it -/

/-- Between the line settle and the releases a step leaves the lines and the exit status alone. -/
theorem promised_afterLines {s t : State} (hs : afterLines s.phase = true) (h : Promised s)
    (ht : afterLines t.phase = true) (hl : t.lines = s.lines) (hx : t.exitStatus = s.exitStatus)
    (hp : PhaseInv t) : Promised t :=
  ⟨hp, (linesExit_iff ht).mpr (by rw [hl, hx]; exact (linesExit_iff hs).mp h.2)⟩

/-- The fatal entry, where the lines before `li` are set up. -/
theorem promised_afterFatal {s : State} (d : Diag) (hh : s.hung = none)
    (hl : SetUpTo s.lines s.li) : Promised (afterFatal s d) :=
  ⟨⟨fun c => by cases c <;> rfl, hh⟩, hl, rfl⟩

theorem promised_blockReset (s : State) : Promised s.blockReset :=
  ⟨⟨rfl, rfl, rfl⟩, setUpTo_zero _, rfl⟩

theorem promised_pReset {s t : State} (hp : s.phase = .pReset) (h : Promised s)
    (he : exec .pReset s = .next t) : Promised t := by
  have ⟨hphase, _, hexit⟩ := h
  obtain ⟨hch, hsub, hh⟩ := (phaseInv_pReset hp).mp hphase
  rw [ExitInv, hp] at hexit
  rcases execPReset_cases he with ⟨-, rfl⟩ | ⟨-, -, rfl⟩
  · exact h
  · by_cases hn : s.lines = []
    · simp only [hn, if_true]
      exact ⟨⟨hch, rfl, hh⟩, setUpTo_zero _, hexit⟩
    · simp only [hn, if_false]
      exact (promised_pLines rfl).mpr ⟨⟨hch, lineProgress_s0 rfl (List.length_pos_iff.mpr hn), hh⟩,
        setUpTo_zero _, hexit⟩

/-- A line that is set up is followed by the next one, or by the line settle. -/
theorem promised_nextLine {s : State} (hp : s.phase = .pLines) (hch : s.ch = allFresh)
    (hh : s.hung = none) (hl : SetUpTo s.lines (s.li + 1)) (hx : s.exitStatus = none) :
    Promised s.nextLine := by
  rcases nextLine_cases s with ⟨hlt, e⟩ | ⟨hge, e⟩ <;> rw [e]
  · exact (promised_pLines (s := { s with li := s.li + 1, sub := .s0 }) hp).mpr
      ⟨⟨hch, lineProgress_s0 rfl hlt, hh⟩, hl, hx⟩
  · exact ⟨⟨hch, rfl, hh⟩, (linesExit_iff rfl).mpr ⟨hl.all (Nat.le_of_not_lt hge) _, hx⟩⟩

theorem promised_execPLines {s t : State} (hp : s.phase = .pLines) (h : Promised s)
    (he : exec .pLines s = .next t) : Promised t := by
  obtain ⟨⟨hch, hprog, hh⟩, hup, hx⟩ := (promised_pLines hp).mp h
  obtain ⟨l, hl, hat⟩ := lineProgress_iff.mp hprog
  have hset : ∀ l' : Line, (s.lines.set s.li l')[s.li]? = some l' := fun l' => by
    simp [lt_of_getElem? hl]
  have stay : ∀ (l' : Line) (u : State), u.phase = .pLines → u.ch = s.ch → u.hung = s.hung →
      u.exitStatus = s.exitStatus → u.li = s.li → u.lines = s.lines.set s.li l' →
      LineAt l' u.sub → Promised u := by
    intro l' u h1 h2 h3 h4 h5 h6 h7
    refine (promised_pLines h1).mpr ⟨⟨h2.trans hch, ?_, h3.trans hh⟩, ?_, h4.trans hx⟩
    · rw [lineProgress_iff, h5, h6]
      exact ⟨l', hset l', h7⟩
    · rw [h5, h6]
      exact hup.set l'
  obtain ⟨l0, hl0, hc⟩ := execPLines_cases he
  cases hl.symm.trans hl0
  rcases hc with ⟨-, -, rfl⟩ | ⟨-, -, rfl⟩ | ⟨hs, -, -, rfl⟩ | ⟨-, -, -, rfl⟩ | ⟨hs, -, hpol, rfl⟩ |
    ⟨v, hs, -, hpol, rfl⟩ | ⟨hs, rfl⟩ | ⟨hs, -, rfl⟩
  · exact stay _ _ hp rfl rfl rfl rfl rfl ⟨rfl, rfl⟩
  · exact promised_afterFatal _ hh hup
  · rw [hs] at hat
    exact stay _ _ hp rfl rfl rfl rfl rfl ⟨rfl, hat.2, rfl⟩
  · exact promised_afterFatal _ hh hup
  · rw [hs] at hat
    exact stay _ _ hp rfl rfl rfl rfl rfl ⟨hat.1, hat.2.1, hat.2.2, hpol⟩
  · rw [hs] at hat
    exact promised_nextLine hp hch hh (hup.set_succ ⟨hat.2.1, hat.2.2, by simp [hpol, finalLevel]⟩) hx
  · rw [hs] at hat
    refine stay l _ hp rfl rfl rfl rfl ?_ hat
    obtain ⟨hlt, rfl⟩ := List.getElem?_eq_some_iff.mp hl
    exact (List.set_getElem_self hlt).symm
  · rw [hs] at hat
    obtain ⟨-, hexp, hdir, hpol⟩ := hat
    exact promised_nextLine hp hch hh (hup.set_succ ⟨hexp, hdir, by simp [hpol, finalLevel]⟩) hx

theorem chanIndex_ne {c d : Chan} (h : c ≠ d) : c.index ≠ d.index := by
  cases c <;> cases d <;> simp [Chan.index] at h ⊢

theorem promised_execPLineSettle {s t : State} (hp : s.phase = .pLineSettle) (h : Promised s)
    (he : exec .pLineSettle s = .next t) : Promised t := by
  obtain ⟨hch, -, hh⟩ := (phaseInv_pLineSettle hp).mp h.1
  rw [exec_pLineSettle] at he
  cases he
  refine promised_afterLines (by rw [hp]; rfl) h rfl rfl rfl ⟨openProgress_iff.mpr ⟨?_, ?_, ?_⟩, hh⟩
  · exact congrArg (fun ch => some (ch.get Chan.cnd)) hch.symm
  · exact fun c hc => absurd hc (Nat.not_lt_zero _)
  · exact fun c _ => (congrArg (fun ch => ch.get c) hch).trans (fresh_get c)

/-- Working on the channel at `ci` leaves the others as they are. -/
theorem openProgress_set {s u : State} {h' : Channel} (h : OpenProgress s) (hch : u.ch = s.ch.set s.ci h')
    (hci : u.ci = s.ci) (hcfg : u.cfg = s.cfg)
    (ho : opening (s.cfg.chans.get s.ci) u.sub = some h') : OpenProgress u := by
  obtain ⟨-, hready, hfresh⟩ := openProgress_iff.mp h
  rw [openProgress_iff, hci, hch, hcfg, three_get_set_self]
  refine ⟨ho, fun c hc => ?_, fun c hc => ?_⟩
  · rw [three_get_set_ne _ _ (by rintro rfl; exact absurd hc (Nat.lt_irrefl _))]
    exact hready c hc
  · rw [three_get_set_ne _ _ (by rintro rfl; exact absurd hc (Nat.lt_irrefl _))]
    exact hfresh c hc

/-- Once the channel at `ci` is ready, so are all up to it. -/
theorem ready_set {s : State} {h' : Channel} (h : OpenProgress s)
    (hr : h' = ready (s.cfg.chans.get s.ci)) :
    (∀ c, c.index ≤ s.ci.index → (s.ch.set s.ci h').get c = ready (s.cfg.chans.get c)) ∧
    (∀ c, s.ci.index < c.index → (s.ch.set s.ci h').get c = .fresh) := by
  obtain ⟨-, hready, hfresh⟩ := openProgress_iff.mp h
  refine ⟨fun c hc => ?_, fun c hc => ?_⟩ <;> rw [three_get_set] <;> split
  · next hcc => rw [hcc, hr]
  · next hcc => exact hready c (lt_of_le_of_ne hc (chanIndex_ne hcc))
  · next hcc => exact absurd hc (by simp [hcc])
  · exact hfresh c hc

/-- The start of the next channel, the ones before it ready. -/
theorem openProgress_start {s : State} (hs : s.sub = .s0)
    (hready : ∀ c, c.index < s.ci.index → s.ch.get c = ready (s.cfg.chans.get c))
    (hfresh : ∀ c, s.ci.index ≤ c.index → s.ch.get c = .fresh) : OpenProgress s :=
  openProgress_iff.mpr ⟨by rw [hs, hfresh _ (Nat.le_refl _)]; rfl, hready, fun c hc => hfresh c hc.le⟩

/-- A channel that is ready is followed by the next one, or by the conditioner's image. -/
theorem phaseInv_nextChannel {s : State} (hp : s.phase = .pOpen)
    (hready : ∀ c, c.index ≤ s.ci.index → s.ch.get c = ready (s.cfg.chans.get c))
    (hfresh : ∀ c, s.ci.index < c.index → s.ch.get c = .fresh) (hh : s.hung = none) :
    PhaseInv s.nextChannel ∧ afterLines s.nextChannel.phase = true := by
  have next : ∀ c' : Chan, c'.index = s.ci.index + 1 →
      PhaseInv { s with ci := c', sub := .s0 } ∧ afterLines s.phase = true := by
    intro c' hc'
    refine ⟨(phaseInv_pOpen (s := { s with ci := c', sub := .s0 }) hp).mpr
      ⟨openProgress_start rfl (fun c hc => hready c ?_) (fun c hc => hfresh c ?_), hh⟩, by rw [hp]; rfl⟩
    · rw [hc'] at hc
      exact Nat.le_of_lt_succ hc
    · rw [hc'] at hc
      exact hc
  rw [State.nextChannel]
  cases hci : s.ci with
  | cnd => exact next .syn1 (by rw [hci]; rfl)
  | syn1 => exact next .syn2 (by rw [hci]; rfl)
  | syn2 =>
    have hall : s.ch = allReady s.cfg.chans := eq_allReady_iff.mpr fun c => hready c (by
      rw [hci]
      cases c <;> decide)
    exact ⟨⟨hall, Nat.zero_le _, .inl rfl, fun h => by simp [hh] at h⟩, rfl⟩

theorem nextChannel_exitStatus (s : State) : s.nextChannel.exitStatus = s.exitStatus := by
  unfold State.nextChannel
  split <;> rfl

/-- What a configuration step stores is what the next sub-step expects, or the ready channel. -/
theorem store_opening {p : ChanCfg} {h : Channel} (w : CfgWhich) (ho : opening p (cfgSub w) = some h) :
    (w = .mode ∧ opening p .s2 = some (h.store (p.value w))) ∨
    (w = .bits ∧ opening p .s3 = some (h.store (p.value w))) ∨
    (w = .hz ∧ h.store (p.value w) = ready p) := by
  cases w <;> cases ho
  · exact .inl ⟨rfl, rfl⟩
  · exact .inr (.inl ⟨rfl, rfl⟩)
  · exact .inr (.inr ⟨rfl, rfl⟩)

theorem promised_execPOpen {s t : State} (hp : s.phase = .pOpen) (h : Promised s)
    (he : exec .pOpen s = .next t) : Promised t := by
  obtain ⟨hprog, hh⟩ := (phaseInv_pOpen hp).mp h.1
  have hal : afterLines s.phase = true := by rw [hp]; rfl
  obtain ⟨hup, -⟩ := (linesExit_iff hal).mp h.2
  obtain ⟨ho, hready, hfresh⟩ := openProgress_iff.mp hprog
  have stay : ∀ (u : State) (h' : Channel), u.phase = s.phase → u.hung = s.hung → u.lines = s.lines →
      u.exitStatus = s.exitStatus → u.ch = s.ch.set s.ci h' → u.ci = s.ci → u.cfg = s.cfg →
      opening (s.cfg.chans.get s.ci) u.sub = some h' → Promised u := by
    intro u h' h1 h2 h3 h4 h5 h6 h7 h8
    exact promised_afterLines hal h (by rw [h1, hal]) h3 h4
      ((phaseInv_pOpen (h1.trans hp)).mpr ⟨openProgress_set hprog h5 h6 h7 h8, h2.trans hh⟩)
  rcases execPOpen_cases he with ⟨hs, -, -, rfl⟩ | ⟨-, -, -, rfl⟩ | ⟨w, hs, -, rfl⟩ | ⟨w, r, -, -, -, rfl⟩
  · rw [hs] at ho
    have hfr : Channel.fresh = s.ch.get s.ci := Option.some.inj ho
    exact stay _ _ rfl rfl rfl rfl rfl rfl rfl (by rw [← hfr]; rfl)
  · exact promised_afterFatal _ hh (hup.all (Nat.le_refl _) _)
  · rw [hs] at ho
    rcases store_opening w ho with ⟨rfl, hw⟩ | ⟨rfl, hw⟩ | ⟨rfl, hw⟩
    · exact stay _ _ rfl rfl rfl rfl rfl rfl rfl hw
    · exact stay _ _ rfl rfl rfl rfl rfl rfl rfl hw
    · obtain ⟨hready, hfresh⟩ := ready_set hprog hw
      obtain ⟨hphase, hmid⟩ := phaseInv_nextChannel (s := { s with
        env := verifyEnv s.ci .hz ((s.cfg.chans.get s.ci).value .hz) s.env
        trace := s.trace ++ [.cfg s.ci .hz ((s.cfg.chans.get s.ci).value .hz) .verified]
        ch := s.ch.set s.ci ((s.ch.get s.ci).store ((s.cfg.chans.get s.ci).value .hz)) })
        hp hready hfresh hh
      exact promised_afterLines hal h hmid (nextChannel_lines _) (nextChannel_exitStatus _) hphase
  · exact promised_afterFatal _ hh (hup.all (Nat.le_refl _) _)

theorem promised_execProg {s t : State} (c : Chan) (hp : s.phase = progPhaseOf c) (h : Promised s)
    (hh : s.hung = none) (he : exec (progPhaseOf c).instr s = .next t) : Promised t := by
  obtain ⟨hch, hi, -, -⟩ := (phaseInv_prog hp).mp h.1
  have hal : afterLines s.phase = true := by simp [hp]
  have stay : ∀ u : State, u.phase = s.phase → u.lines = s.lines → u.exitStatus = s.exitStatus →
      ReplayProgress u c → Promised u := fun u h1 h2 h3 h4 =>
    promised_afterLines hal h (by rw [h1, hal]) h2 h3 ((phaseInv_prog (h1.trans hp)).mpr h4)
  have quiet : ∀ P : Prop, s.hung.isSome → P := fun P hx => by simp [hh] at hx
  rcases execProg_cases c he with ⟨-, -, rfl⟩ | ⟨hs, rfl⟩ |
    ⟨hs, hlt, -, f, a, d, w, -, ⟨-, rfl⟩ | ⟨r, x, -, rfl⟩⟩
  · exact promised_afterLines hal h (by simp) rfl rfl ((phaseInv_settle rfl).mpr ⟨hch, rfl, hh⟩)
  · have hlt : s.idx < s.imageLength c := by
      obtain ⟨-, -, hx | hx, -⟩ := (phaseInv_prog hp).mp h.1
      · simp [hs] at hx
      · exact hx.2
    exact stay _ rfl rfl rfl ⟨hch, hlt, .inl rfl, quiet _⟩
  · exact stay _ rfl rfl rfl ⟨hch, hi, .inl hs, fun _ => ⟨hs, hlt⟩⟩
  · exact stay _ rfl rfl rfl ⟨hch, hi, .inr ⟨rfl, hlt⟩, quiet _⟩

/-- From a settle to the next replay. -/
theorem promised_enterProg {s : State} {c d : Chan} {n : DelayName} {x : Nat}
    (hp : s.phase = settlePhaseOf c) (h : Promised s) :
    Promised ((s.delay n x).enterProg (progPhaseOf d)) := by
  obtain ⟨hch, -, hh⟩ := (phaseInv_settle hp).mp h.1
  exact promised_afterLines (by simp [hp]) h (by simp) rfl rfl
    ((phaseInv_prog rfl).mpr ⟨hch, Nat.zero_le _, .inl rfl, fun hx => by simp [hh] at hx⟩)

theorem promised_execPSettleSyn2 {s t : State} (hp : s.phase = .pSettleSyn2) (h : Promised s)
    (he : exec .pSettleSyn2 s = .next t) : Promised t := by
  obtain ⟨hch, -, hh⟩ := (phaseInv_settle (c := .syn2) hp).mp h.1
  cases he
  exact promised_afterLines (by rw [hp]; rfl) h rfl rfl rfl ⟨hch, rfl, hh⟩

theorem promised_execPClose {s t : State} (hp : s.phase = .pClose) (h : Promised s)
    (he : exec .pClose s = .next t) : Promised t := by
  obtain ⟨-, hs, hh⟩ := (phaseInv_pClose hp).mp h.1
  obtain ⟨hup, -⟩ := (linesExit_iff (by rw [hp]; rfl)).mp h.2
  rw [execPClose_eq] at he
  cases he
  exact ⟨⟨fun c => by cases c <;> rfl, hs, hh⟩, hup, rfl⟩

/-- The instruction of a phase keeps what the invariant promises. -/
theorem promised_exec {s t : State} (h : Promised s) (hh : s.hung = none)
    (he : exec s.phase.instr s = .next t) : Promised t := by
  cases hp : s.phase <;> rw [hp] at he
  case pReset => exact promised_pReset hp h he
  case pLines => exact promised_execPLines hp h he
  case pLineSettle => exact promised_execPLineSettle hp h he
  case pOpen => exact promised_execPOpen hp h he
  case pProgCnd => exact promised_execProg .cnd hp h hh he
  case pProgSyn1 => exact promised_execProg .syn1 hp h hh he
  case pProgSyn2 => exact promised_execProg .syn2 hp h hh he
  case pSettleCnd =>
    cases he
    exact promised_enterProg (c := .cnd) (d := .syn1) hp h
  case pSettleSyn1 =>
    cases he
    exact promised_enterProg (c := .syn1) (d := .syn2) hp h
  case pSettleSyn2 => exact promised_execPSettleSyn2 hp h he
  case pClose => exact promised_execPClose hp h he
  case pDone =>
    cases he
    exact h
  case pFault =>
    cases he
    exact h

/-- Settles O48: the reset input, a transfer waited for, and each phase keep what the invariant
promises. -/
theorem runInvariantKept : Obligations.RunInvariantKept := by
  rintro s t ⟨ho, hw, h⟩ hstep
  obtain ⟨hcfg, hops, -⟩ := step_growth ho hstep
  refine ⟨hops.trans ho, by rw [hcfg, hw], ?_⟩
  rcases step_cases_run ho hstep with ⟨-, rfl⟩ | ⟨-, -, rfl⟩ | ⟨-, hh, he⟩
  · exact promised_blockReset s
  · exact h
  · exact promised_exec h hh he

/-! ### Right after reset -/

/-- Settles O57: no device register is listed, no event recorded, and the first phase promises nothing
but what reset leaves. -/
theorem invariantsHoldAtReset : Obligations.InvariantsHoldAtReset := by
  refine ⟨reset_devicesWf, ⟨rfl, rfl, ⟨rfl, rfl, rfl⟩, setUpTo_zero _, rfl⟩, ⟨rfl, fun _ => rfl⟩,
    ⟨rfl, fun _ => List.forall_mem_nil _, fun h => absurd h Bool.false_ne_true.symm, precedes_nil _ _⟩,
    (configuredBeforeTransmit_iff _).mpr fun c w => ⟨fun h => by simp at h, precedes_nil _ _⟩,
    ⟨rfl, fun _ _ => List.forall_mem_nil _, noneBefore_nil _ _, noneBefore_nil _ _,
      noneBefore_nil _ _⟩, ⟨rfl, fun _ _ _ h => absurd h List.not_mem_nil⟩, ?_⟩
  intro c
  rw [reset_ch_get]
  exact ⟨rfl, rfl⟩

/-! ### A next state (rule R216) -/

theorem guarded_of_none {stop : Option Stop} (h : stop = none) (t : State) :
    ∃ u, guarded stop t = .next u := ⟨t, by rw [h, guarded_none]⟩

theorem readbackEnable_of_wf {p : Params} (h : p.wf = true) : p.readbackEnable = false := by
  simp only [Params.wf, Bool.and_eq_true, Bool.not_eq_true'] at h
  exact h.2

theorem execPReset_next {s : State} (hw : s.cfg.wf = true) : ∃ t, exec .pReset s = .next t := by
  cases hs : s.pinStart with
  | false => exact ⟨_, (startPhaseResult s).2 hs⟩
  | true => exact ⟨_, (startPhaseResult s).1 hs (readbackEnable_of_wf hw)⟩

theorem execPLines_next {s : State} (h : LineProgress s) : ∃ t, exec .pLines s = .next t := by
  obtain ⟨l, hl, hat⟩ := lineProgress_iff.mp h
  cases hs : s.sub <;> rw [hs] at hat
  case s0 =>
    rw [exec_pLines_s0 hl hs]
    exact guarded_of_none (exportStop_eq_none hl) _
  case s1 =>
    rw [exec_pLines_s1 hl hs]
    exact guarded_of_none (dirStop_eq_none hl hat.1) _
  case s2 =>
    rw [exec_pLines_s2 hl hs]
    exact guarded_of_none (levelStop_eq_none hl hat.1) _
  case s3 => exact ⟨_, pLines_hold hl hs⟩
  case s4 =>
    rw [exec_pLines_s4 hl hs]
    exact guarded_of_none (levelStop_eq_none hl hat.1) _

/-- A channel on its way is ready for the step of its sub-step. -/
theorem cfgReady_of_opening {p : ChanCfg} {h : Channel} (w : CfgWhich)
    (ho : opening p (cfgSub w) = some h) : cfgReady h w = true := by
  cases w <;> cases ho <;> rfl

theorem execPOpen_next {s : State} (h : OpenProgress s) : ∃ t, exec .pOpen s = .next t := by
  obtain ⟨ho, -, -⟩ := openProgress_iff.mp h
  have cfg : ∀ w, s.sub = cfgSub w → ∃ t, exec .pOpen s = .next t := by
    intro w hs
    rw [exec_pOpen_cfg hs]
    exact guarded_of_none (cfgStop_eq_none (cfgReady_of_opening w (hs ▸ ho))) _
  cases hs : s.sub <;> rw [hs] at ho
  case s0 =>
    have hfr : Channel.fresh = s.ch.get s.ci := Option.some.inj ho
    rw [exec_pOpen_s0 hs]
    exact guarded_of_none (openStop_eq_none (hfr ▸ rfl) (hfr ▸ rfl)) _
  case s1 => exact cfg .mode hs
  case s2 => exact cfg .bits hs
  case s3 => exact cfg .hz hs
  case s4 => cases ho

theorem execProg_next {s : State} {c : Chan} (h : ReplayProgress s c) :
    ∃ t, exec (progPhaseOf c).instr s = .next t := by
  obtain ⟨hch, hi, hs | ⟨hs, -⟩, -⟩ := h
  · rcases hi.eq_or_lt with hi | hi
    · exact ⟨_, exec_prog_exit hs hi⟩
    · exact ⟨_, exec_prog_entry hs hi (configured_of_allReady hch c)⟩
  · exact ⟨_, exec_prog_gap c hs⟩

/-- Settles O49: what a phase promises is what its sub-step asks. -/
theorem runNeverStops : Obligations.RunNeverStops := by
  rintro s ⟨ho, hw, h, -, -⟩
  cases hr : s.pinReset with
  | true => exact ⟨_, step_reset hr⟩
  | false =>
    cases hh : s.hung with
    | some x => exact ⟨_, step_waiting hr (by rw [hh]; rfl)⟩
    | none =>
      rw [step_phase hr hh (.inr ho)]
      cases hp : s.phase
      case pReset => exact execPReset_next hw
      case pLines =>
        rw [PhaseInv, hp] at h
        exact execPLines_next h.2.1
      case pOpen => exact execPOpen_next ((phaseInv_pOpen hp).mp h).1
      case pProgCnd => exact execProg_next ((phaseInv_prog (c := .cnd) hp).mp h)
      case pProgSyn1 => exact execProg_next ((phaseInv_prog (c := .syn1) hp).mp h)
      case pProgSyn2 => exact execProg_next ((phaseInv_prog (c := .syn2) hp).mp h)
      all_goals exact ⟨_, rfl⟩

end Sys2Proof.Proofs.RunInvariant
end

section
/-!
PROOFS. A whole bring-up run, from its answers (rules R217 to R219): through the lines, the channels and the
three images to P_DONE, to P_FAULT, or to a transfer that is never answered; and the run with the ideal
device (rule R52).
-/

namespace Sys2Proof.Proofs.WholeRun

open Sys2Proof.Proofs

open Sys2Proof.Machine Sys2Proof.Safety Sys2Proof.Laws
open Sys2Proof.Proofs.Memory (step_sameConfig SameConfig)
open Sys2Proof.Proofs.BringUp (exec_pLineSettle exec_pSettleCnd exec_pSettleSyn1)
open Sys2Proof.Proofs.Invariants (afterXfer_ideal noFrameBeforeFaultKept)
open Sys2Proof.Proofs.Runs
open Sys2Proof.Proofs.Lines (initLinesResult linesPhaseRefinesInitLines)
open Sys2Proof.Proofs.Replay
open Sys2Proof.Proofs.Opening
open Sys2Proof.Proofs.RunInvariant

/-! ### What a run keeps -/

/-- A property that every step keeps holds of every state a run reaches. -/
theorem reaches_keep {P : State → Prop} (hP : ∀ s t, P s → step s = .next t → P t) {s t : State}
    (h : Reaches s t) (hs : P s) : P t := by
  obtain ⟨n, hn⟩ := h
  induction n generalizing s with
  | zero =>
    rw [run_zero] at hn
    cases hn
    exact hs
  | succ n ih =>
    obtain ⟨u, hu, hn⟩ := run_some hn
    exact ih (hP s u hs hu) hn

theorem reaches_runInv {s t : State} (h : Reaches s t) (hs : RunInv s) : RunInv t :=
  reaches_keep runInvariantKept h hs

theorem reaches_cfg {s t : State} (h : Reaches s t) : t.cfg = s.cfg :=
  reaches_keep (P := fun u => u.cfg = s.cfg) (fun _ _ hu hstep => (step_sameConfig hstep).1.trans hu) h rfl

/-! ### What a run has done so far -/

/-- The lines, the trace, the environment and the errors, which a run goes on from. -/
structure Account where
  lines : List Line
  trace : List Event
  env : Env
  errs : Nat
  lastErr : Option Diag

/-- The account of a state. -/
def account (s : State) : Account := ⟨s.lines, s.trace, s.env, s.txnErrCount, s.lastErr⟩

/-- Events recorded, answers taken. -/
def Account.log (a : Account) (evs : List Event) (e : Env) : Account :=
  { a with trace := a.trace ++ evs, env := e }

/-- Events recorded, no answer taken. -/
def Account.note (a : Account) (evs : List Event) : Account := a.log evs a.env

/-- An image replayed, with the answers its transfers had (rule R169). -/
def Account.replayed (a : Account) (p : Params) (c : Chan) : Account :=
  let rs := replayAnswers c (imageFrames p c) a.env
  { a with
    trace := a.trace ++ imageEvents p c rs
    env := envAfterReplay c (imageFrames p c) a.env
    errs := a.errs + (rs.filter failed).length
    lastErr := (lastDiag (imageEvents p c rs)).or a.lastErr }

/-- A bring-up run at the first sub-step of a phase, nothing waited for. -/
structure Stands (p : Params) (ph : Phase) (a : Account) (s : State) : Prop where
  inv : RunInv s
  cfg : s.cfg = p
  phase : s.phase = ph
  sub : s.sub = .s0
  reset : s.pinReset = false
  hung : s.hung = none
  account : account s = a

/-- Where the answers are `ok`, the run from a state reaches one with `G`; where not, one with `bad`. -/
def Decides (bad : State → Prop) (ok : Prop) (s : State) (G : State → Prop) : Prop :=
  (ok → ∃ t, Reaches s t ∧ G t) ∧ (¬ok → ∃ t, Reaches s t ∧ bad t)

section decides
variable {bad G H : State → Prop} {ok ok' : Prop} {s t : State}

theorem exists_of_reaches (h : Reaches s t) : (∃ u, Reaches t u ∧ G u) → ∃ u, Reaches s u ∧ G u :=
  fun ⟨u, htu, hu⟩ => ⟨u, h.trans htu, hu⟩

/-- One stretch of a run after the other. -/
theorem Decides.bind (h : Decides bad ok s G) (hG : ∀ t, G t → Decides bad ok' t H) :
    Decides bad (ok ∧ ok') s H := by
  refine ⟨fun ⟨hok, hok'⟩ => ?_, fun hbad => ?_⟩
  · obtain ⟨t, hst, ht⟩ := h.1 hok
    exact exists_of_reaches hst ((hG t ht).1 hok')
  · by_cases hok : ok
    · obtain ⟨t, hst, ht⟩ := h.1 hok
      exact exists_of_reaches hst ((hG t ht).2 fun hok' => hbad ⟨hok, hok'⟩)
    · exact h.2 hok

theorem Decides.congr (hiff : ok ↔ ok') (h : Decides bad ok s G) : Decides bad ok' s G := by
  rwa [← hiff]

/-- Steps that ask nothing, before a stretch. -/
theorem Decides.of_reaches (h : Reaches s t) (ht : Decides bad ok t G) : Decides bad ok s G :=
  ⟨fun hok => exists_of_reaches h (ht.1 hok), fun hbad => exists_of_reaches h (ht.2 hbad)⟩

/-- Steps that ask nothing, after a stretch. -/
theorem Decides.reach (h : Decides bad ok s G) (hG : ∀ t, G t → ∃ u, Reaches t u ∧ H u) :
    Decides bad ok s H :=
  ⟨fun hok => (h.1 hok).elim fun t ht => exists_of_reaches ht.1 (hG t ht.2), h.2⟩

/-- A stretch of a run with no question. -/
theorem Decides.done (h : G s) : Decides bad True s G :=
  ⟨fun _ => ⟨s, .refl s, h⟩, fun hbad => absurd trivial hbad⟩

end decides

/-- A run that ended in P_FAULT, with `n` errors counted. -/
structure Faulted (n : Nat) (s : State) : Prop where
  inv : RunInv s
  phase : s.phase = .pFault
  reset : s.pinReset = false
  errs : s.txnErrCount = n

/-- One step of a phase that is not P_RESET. -/
theorem reaches_one {s t : State} {ph : Phase} (hp : s.phase = ph) (hne : ph ≠ .pReset)
    (hr : s.pinReset = false) (hh : s.hung = none) (h : exec ph.instr s = .next t) : Reaches s t :=
  (Reaches.refl t).phase hr hh (.inl (hp ▸ hne)) (hp ▸ h)

/-! ### The start and the lines (rules R202, R203) -/

/-- The state after `start`. -/
def started (s : State) : State :=
  { s with
    li := 0, ci := .cnd, idx := 0, sub := .s0
    phase := if s.lines = [] then .pLineSettle else .pLines }

theorem exec_pReset_start {s : State} (hs : s.pinStart = true) (hw : s.cfg.wf = true) :
    exec .pReset s = .next (started s) :=
  (startPhaseResult s).1 hs (readbackEnable_of_wf hw)

/-- The start of a run. `AtStart` leaves `sub` open; the start writes it, so the invariant is taken from the
state with `sub` at its reset value, which starts in the same way. -/
theorem reaches_started {s : State} (h : AtStart s) : Reaches s (started s) ∧ RunInv (started s) := by
  obtain ⟨hp, hs, hr, hh, ho, hch, htr, hx, hw⟩ := h
  have hexec : ∀ u : State, u.phase = .pReset → u.pinReset = false → u.hung = none → u.ops = [] →
      u.pinStart = true → u.cfg.wf = true → step u = .next (started u) := by
    intro u h1 h2 h3 h4 h5 h6
    rw [step_phase h2 h3 (.inr h4), h1]
    exact exec_pReset_start h5 h6
  refine ⟨run_one (hexec s hp hr hh ho hs hw), ?_⟩
  have h0 : RunInv { s with sub := .s0 } := by
    refine ⟨ho, hw, (phaseInv_pReset (s := { s with sub := .s0 }) hp).mpr ⟨hch, rfl, hh⟩, ?_, ?_⟩
    · rw [LinesInv, linesSetUp, show State.phase { s with sub := .s0 } = .pReset from hp]
      exact setUpTo_zero _
    · rw [ExitInv, show State.phase { s with sub := .s0 } = .pReset from hp]
      exact hx
  exact runInvariantKept _ _ h0 (hexec _ hp hr hh ho hs hw)

/-- Where the lines are not all answered `ok`, there is a first one that is not. -/
theorem exists_failed_line {ls : List Line} {e : Env} (h : ¬linesAnsweredOk ls e) :
    ∃ (pre rest : List Line) (l : Line), ls = pre ++ l :: rest ∧ linesAnsweredOk pre e ∧
      ((envAfterLines pre e).lineExportAns l.cfg.id = .fail ∨
        (envAfterLines pre e).lineExportAns l.cfg.id = .ok ∧
          (envAfterLines pre e).afterLineExport.lineSetDirAns l.cfg.id = .fail) := by
  induction ls generalizing e with
  | nil => exact absurd trivial h
  | cons l ls ih =>
    cases he : e.lineExportAns l.cfg.id with
    | fail => exact ⟨[], ls, l, rfl, trivial, .inl he⟩
    | ok =>
      cases hd : e.afterLineExport.lineSetDirAns l.cfg.id with
      | fail => exact ⟨[], ls, l, rfl, trivial, .inr ⟨he, hd⟩⟩
      | ok =>
        obtain ⟨pre, rest, m, rfl, hok, hm⟩ := ih fun hrest => h ⟨he, hd, hrest⟩
        exact ⟨l :: pre, rest, m, rfl, ⟨he, hd, hok⟩, hm⟩

/-- `S.INIT_LINES` with a question that is not answered `ok` ends in P_FAULT. -/
theorem initLines_failed {s u : State} (h : ¬linesAnsweredOk s.lines s.env)
    (hu : exec .sInitLines s = .next u) :
    u.phase = .pFault ∧ u.pinReset = s.pinReset ∧ u.txnErrCount = s.txnErrCount := by
  obtain ⟨pre, rest, l, hl, hok, hbad⟩ := exists_failed_line h
  have hres := (initLinesResult s).2 pre rest l hl hok
  rcases hbad with he | ⟨he, hd⟩
  · cases hu.symm.trans (hres.1 he)
    exact ⟨rfl, rfl, rfl⟩
  · cases hu.symm.trans (hres.2 he hd)
    exact ⟨rfl, rfl, rfl⟩

/-- The account of a run whose lines are set up. -/
def accountAfterLines (s : State) : Account :=
  ⟨s.lines.map lineDone, linesEvents 0 s.lines, envAfterLines s.lines s.env, s.txnErrCount, s.lastErr⟩

theorem decides_lines {s : State} (h : AtStart s) :
    Decides (Faulted s.txnErrCount) (linesAnsweredOk s.lines s.env) s
      (Stands s.cfg .pLineSettle (accountAfterLines s)) := by
  obtain ⟨hreach, hinv⟩ := reaches_started h
  obtain ⟨-, -, hr, hh, -, -, htr, -, -⟩ := h
  refine .of_reaches hreach ?_
  by_cases hne : s.lines = []
  · have hstands : Stands s.cfg .pLineSettle (accountAfterLines s) (started s) := by
      refine ⟨hinv, rfl, if_pos hne, rfl, hr, hh, ?_⟩
      simp [account, accountAfterLines, started, hne, htr, linesEvents, envAfterLines]
    exact ⟨fun _ => ⟨_, .refl _, hstands⟩, fun hbad => absurd (by rw [hne]; trivial) hbad⟩
  · obtain ⟨n, t, u, hn, hu, hcase⟩ :=
      linesPhaseRefinesInitLines (started s) (if_neg hne) rfl rfl hne hh hr
    have hrt : Reaches (started s) t := ⟨n, hn⟩
    refine ⟨fun hok => ⟨t, hrt, ?_⟩, fun hbad => ⟨t, hrt, ?_⟩⟩
    · cases hu.symm.trans ((initLinesResult (started s)).1 hok)
      rcases hcase with ⟨-, rfl⟩ | ⟨hp, -⟩
      · refine ⟨reaches_runInv hrt hinv, rfl, rfl, rfl, hr, hh, ?_⟩
        simp [account, accountAfterLines, started, htr]
      · simp [started, hne] at hp
    · obtain ⟨hp, hr', hc⟩ := initLines_failed (s := started s) hbad hu
      rcases hcase with ⟨hp', -⟩ | ⟨-, ht⟩
      · simp [hp] at hp'
      · refine ⟨reaches_runInv hrt hinv, ?_, ?_, ?_⟩ <;> rw [ht]
        · exact hp
        · exact hr'.trans hr
        · exact hc

/-! ### The channels (rules R204, R205) -/

/-- In P_OPEN, on a channel. -/
structure OpenAt (p : Params) (c : Chan) (a : Account) (s : State) : Prop where
  cfg : s.cfg = p
  phase : s.phase = .pOpen
  ci : s.ci = c
  reset : s.pinReset = false
  hung : s.hung = none
  account : account s = a

section opening
variable {p : Params} {c : Chan} {a : Account} {s t : State}

/-- The channel at `ci` is on its way. -/
theorem OpenAt.opening (h : OpenAt p c a s) (hi : RunInv s) :
    opening (s.cfg.chans.get s.ci) s.sub = some (s.ch.get s.ci) := by
  obtain ⟨-, -, hphase, -⟩ := hi
  exact (openProgress_iff.mp ((phaseInv_pOpen h.phase).mp hphase).1).1

theorem OpenAt.env (h : OpenAt p c a s) : s.env = a.env := congrArg Account.env h.account

theorem OpenAt.step (h : OpenAt p c a s) (he : exec .pOpen s = .next t) : Reaches s t :=
  reaches_one h.phase Phase.noConfusion h.reset h.hung he

/-- A sub-step that takes the fatal entry. -/
theorem OpenAt.faults {u : State} {d : Diag} (h : OpenAt p c a s) (hi : RunInv s)
    (he : exec .pOpen s = .next (afterFatal u d)) (hr : u.pinReset = s.pinReset)
    (hn : u.txnErrCount = s.txnErrCount) : ∃ t, Reaches s t ∧ Faulted a.errs t :=
  ⟨_, h.step he, reaches_runInv (h.step he) hi, rfl, hr.trans h.reset, hn.trans (congrArg Account.errs h.account)⟩

/-- The opening of a channel. -/
theorem decides_open (h : OpenAt p c a s) (hi : RunInv s) (hs : s.sub = .s0) :
    Decides (Faulted a.errs) (a.env.chanOpenAns (p.chans.get c).path = .ok) s fun t =>
      OpenAt p c (a.log [.chanOpen c .ok] a.env.afterChanOpen) t ∧ RunInv t ∧ t.sub = .s1 := by
  have hfr : Channel.fresh = s.ch.get s.ci := by
    have ho := h.opening hi
    rw [hs] at ho
    exact Option.some.inj ho
  have hstop : openStop s.ci s = none := Bus.openStop_eq_none (hfr ▸ rfl) (hfr ▸ rfl)
  obtain ⟨rfl, hp, rfl, hr, hh, rfl⟩ := id h
  refine ⟨fun hok => ?_, fun hbad => ?_⟩
  · have hreach := h.step (pOpen_open_ok hs (hfr ▸ rfl) (hfr ▸ rfl) hok)
    exact ⟨_, hreach, ⟨rfl, hp, rfl, hr, hh, rfl⟩, reaches_runInv hreach hi, rfl⟩
  · have hfail : s.env.chanOpenAns (s.cfg.chans.get s.ci).path = .fail := by
      cases ha : s.env.chanOpenAns (s.cfg.chans.get s.ci).path with
      | ok => exact absurd ha hbad
      | fail => rfl
    have he := exec_pOpen_s0 hs
    rw [hstop, guarded_none, Bus.openEff_fail hfail, update_stop] at he
    exact h.faults hi he rfl rfl

theorem OpenAt.setSub (h : OpenAt p c a s) (x : Sub) : OpenAt p c a { s with sub := x } :=
  ⟨h.cfg, h.phase, h.ci, h.reset, h.hung, h.account⟩

/-- Another channel, from its first sub-step. -/
theorem OpenAt.start (h : OpenAt p c a s) (d : Chan) : OpenAt p d a { s with ci := d, sub := .s0 } :=
  ⟨h.cfg, h.phase, rfl, h.reset, h.hung, h.account⟩

/-- A configuration step of a channel. -/
theorem decides_cfg (w : CfgWhich) (h : OpenAt p c a s) (hi : RunInv s) (hs : s.sub = cfgSub w) :
    Decides (Faulted a.errs) (a.env.cfgSetAns c w ((p.chans.get c).value w) = .ok ∧
      a.env.afterCfgSet.cfgGetAns c w ((p.chans.get c).value w) = .value ((p.chans.get c).value w)) s
      fun t => ∃ u, OpenAt p c (a.log [.cfg c w ((p.chans.get c).value w) .verified]
        a.env.afterCfgSet.afterCfgGet) u ∧ t = afterCfg w u ∧ RunInv t := by
  have hready : cfgReady (s.ch.get s.ci) w = true := cfgReady_of_opening w (hs ▸ h.opening hi)
  obtain ⟨rfl, hp, rfl, hr, hh, rfl⟩ := id h
  refine ⟨fun ⟨hset, hget⟩ => ?_, fun hbad => ?_⟩
  · have hreach := h.step (pOpen_verified hs hready hset hget)
    refine ⟨_, hreach, _, ?_, rfl, reaches_runInv hreach hi⟩
    exact ⟨rfl, hp, rfl, hr, hh, rfl⟩
  · rcases cfgEff_cases s.ci w s with ⟨hv, -⟩ | ⟨-, e⟩
    · exact absurd (Bus.verifyRes_verified_iff.mp hv) hbad
    · have he := exec_pOpen_cfg hs
      rw [Bus.cfgStop_eq_none hready, guarded_none, e, update_stop] at he
      exact h.faults hi he rfl rfl

/-- The account after a verified step. -/
def Account.verified (a : Account) (p : Params) (c : Chan) (w : CfgWhich) : Account :=
  a.log [.cfg c w ((p.chans.get c).value w) .verified] a.env.afterCfgSet.afterCfgGet

/-- A configuration step, and the steps after it. -/
theorem decides_cfg_cons {w : CfgWhich} {ws : List CfgWhich} {G : State → Prop} (h : OpenAt p c a s)
    (hi : RunInv s) (hs : s.sub = cfgSub w)
    (hrest : ∀ u, OpenAt p c (a.verified p c w) u → RunInv (afterCfg w u) →
      Decides (Faulted a.errs) (cfgAnsweredOk p c ws (a.verified p c w).env) (afterCfg w u) G) :
    Decides (Faulted a.errs) (cfgAnsweredOk p c (w :: ws) a.env) s G := by
  refine Decides.congr and_assoc ((decides_cfg w h hi hs).bind ?_)
  rintro _ ⟨u, hu, rfl, hiu⟩
  exact hrest u hu hiu

/-- A channel opened and configured; what follows is `nextChannel`. -/
theorem decides_channel (h : OpenAt p c a s) (hi : RunInv s) (hs : s.sub = .s0) :
    Decides (Faulted a.errs) (a.env.chanOpenAns (p.chans.get c).path = .ok ∧
      cfgAnsweredOk p c cfgOrder a.env.afterChanOpen) s fun t =>
      ∃ u, OpenAt p c (a.log (openEvents p c) (envAfterCfg cfgOrder a.env.afterChanOpen)) u ∧
        t = u.nextChannel ∧ RunInv t := by
  refine (decides_open h hi hs).bind fun t1 ⟨h1, i1, s1⟩ => ?_
  refine decides_cfg_cons (w := .mode) h1 i1 s1 fun u2 h2 i2 => ?_
  refine decides_cfg_cons (w := .bits) (h2.setSub .s2) i2 rfl fun u3 h3 i3 => ?_
  refine decides_cfg_cons (w := .hz) (h3.setSub .s3) i3 rfl fun u4 h4 i4 => ?_
  refine .done ⟨u4, ?_, rfl, i4⟩
  simpa [Account.verified, Account.log, openEvents, envAfterCfg, cfgOrder] using h4

end opening

/-- The account after a channel was opened and configured. -/
def Account.channel (a : Account) (p : Params) (c : Chan) : Account :=
  a.log (openEvents p c) (envAfterCfg cfgOrder a.env.afterChanOpen)

/-- The channels from one on. -/
theorem decides_next {p : Params} {c : Chan} {cs : List Chan} {a : Account} {s : State}
    {G : State → Prop} (h : OpenAt p c a s) (hi : RunInv s) (hs : s.sub = .s0)
    (hrest : ∀ u, OpenAt p c (a.channel p c) u → RunInv u.nextChannel →
      Decides (Faulted (a.channel p c).errs) (opensAnsweredOk p cs (a.channel p c).env) u.nextChannel G) :
    Decides (Faulted a.errs) (opensAnsweredOk p (c :: cs) a.env) s G := by
  refine Decides.congr and_assoc ((decides_channel h hi hs).bind ?_)
  rintro _ ⟨u, hu, rfl, hiu⟩
  exact hrest u hu hiu

theorem nextChannel_cnd {s : State} (h : s.ci = .cnd) :
    s.nextChannel = { s with ci := .syn1, sub := .s0 } := by
  rw [State.nextChannel, h]

theorem nextChannel_syn1 {s : State} (h : s.ci = .syn1) :
    s.nextChannel = { s with ci := .syn2, sub := .s0 } := by
  rw [State.nextChannel, h]

theorem nextChannel_syn2 {s : State} (h : s.ci = .syn2) : s.nextChannel = s.enterProg .pProgCnd := by
  rw [State.nextChannel, h]

/-- The three channels, from the first. -/
theorem decides_channels {p : Params} {a : Account} {s : State} (h : OpenAt p .cnd a s)
    (hi : RunInv s) (hs : s.sub = .s0) : Decides (Faulted a.errs) (opensAnsweredOk p chanOrder a.env) s fun t =>
      Stands p .pProgCnd (((a.channel p .cnd).channel p .syn1).channel p .syn2) t ∧ t.idx = 0 := by
  rw [chanOrder]
  refine decides_next h hi hs fun u1 h1 i1 => ?_
  rw [nextChannel_cnd h1.ci] at i1 ⊢
  refine decides_next (h1.start .syn1) i1 rfl fun u2 h2 i2 => ?_
  rw [nextChannel_syn1 h2.ci] at i2 ⊢
  refine decides_next (h2.start .syn2) i2 rfl fun u3 h3 i3 => ?_
  rw [nextChannel_syn2 h3.ci] at i3 ⊢
  exact .done ⟨⟨i3, h3.cfg, rfl, rfl, h3.reset, h3.hung, h3.account⟩, rfl⟩

/-- The account once the lines have settled and all channels are configured. -/
def Account.opened (a : Account) (p : Params) : Account :=
  (((a.note [.delay .lineSettle p.tLineSettle]).channel p .cnd).channel p .syn1).channel p .syn2

theorem decides_opens {p : Params} {a : Account} {s : State} (h : Stands p .pLineSettle a s) :
    Decides (Faulted a.errs) (opensAnsweredOk p chanOrder a.env) s fun t =>
      Stands p .pProgCnd (a.opened p) t ∧ t.idx = 0 := by
  obtain ⟨hi, rfl, hp, hs, hr, hh, rfl⟩ := h
  have hreach := reaches_one hp Phase.noConfusion hr hh (exec_pLineSettle s)
  have h0 : OpenAt s.cfg .cnd ((account s).note [.delay .lineSettle s.cfg.tLineSettle])
      { (s.delay .lineSettle s.cfg.tLineSettle).enter .pOpen with ci := .cnd } :=
    ⟨rfl, rfl, rfl, hr, hh, rfl⟩
  exact .of_reaches hreach (decides_channels h0 (reaches_runInv hreach hi) rfl)

/-- The setup of a run: the lines, then the channels. -/
theorem decides_setup {s : State} (h : AtStart s) :
    Decides (Faulted s.txnErrCount) (SetupAnsweredOk s) s fun t =>
      Stands s.cfg .pProgCnd ((accountAfterLines s).opened s.cfg) t ∧ t.idx = 0 :=
  (decides_lines h).bind fun _ => decides_opens

/-! ### The images (rules R206 to R211) -/

/-- A run waiting for a transfer that is never answered (rule R275). -/
structure Waits (p : Params) (lines : List Line) (s : State) : Prop where
  inv : RunInv s
  cfg : s.cfg = p
  phase : ∃ c, s.phase = progPhaseOf c
  reset : s.pinReset = false
  hung : s.hung.isSome = true
  lines : s.lines = lines

/-- The account of a whole image's replay. -/
theorem account_afterReplay {c : Chan} {s : State} (u : State) (h : s.idx = 0) :
    account (afterReplay c s u (replayAnswers c (imageFrames s.cfg c) s.env)) =
      (account s).replayed s.cfg c := by
  simp [account, afterReplay, Account.replayed, imageEvents, h]

/-- Every transfer of a channel's image is answered. -/
def Answered (p : Params) (c : Chan) (a : Account) : Prop :=
  (replayAnswers c (imageFrames p c) a.env).length = (imageFrames p c).length

/-- The replay of a channel's image: to its settle, or to the first transfer that is not answered. -/
theorem decides_replay {p : Params} {c : Chan} {a : Account} {s : State}
    (h : Stands p (progPhaseOf c) a s) (hidx : s.idx = 0) :
    Decides (Waits p a.lines) (Answered p c a) s (Stands p (settlePhaseOf c) (a.replayed p c)) := by
  obtain ⟨hi, rfl, hp, hs, hr, hh, rfl⟩ := h
  have hconf : s.configured c = true := by
    obtain ⟨-, -, hphase, -⟩ := hi
    exact configured_of_allReady ((phaseInv_prog hp).mp hphase).1 c
  have hlen : s.idx + s.imageLength c = (imageFrames s.cfg c).length := by
    rw [hidx, Nat.zero_add, imageFrames_length]
  obtain ⟨t, he, ht, -⟩ := replayEff_eq c (s.imageLength c) s hlen hs hh
  have hreach := reaches_replay c (s.imageLength c) s ⟨hp, hs, hr, hh, hconf⟩ (by omega)
  rw [he] at hreach
  rw [hidx, List.drop_zero] at ht
  have hacc : account t = (account s).replayed s.cfg c := by
    rw [ht]
    exact account_afterReplay t hidx
  have hphase : t.phase = progPhaseOf c := by
    rw [ht]
    exact hp
  have hreset : t.pinReset = false := by
    rw [ht]
    exact hr
  have hhung : t.hung = ((imageFrames s.cfg c)[(replayAnswers c (imageFrames s.cfg c) s.env).length]?).map
      fun f => ⟨c, f⟩ := by
    rw [ht]
    simp [afterReplay, hidx]
  refine ⟨fun hall => ?_, fun hwait => ?_⟩
  · have hall : (replayAnswers c (imageFrames s.cfg c) s.env).length = (imageFrames s.cfg c).length := hall
    have hsub : t.sub = .s0 := by
      rw [ht]
      exact hs
    have hend : t.idx = t.imageLength c := by
      rw [← imageFrames_length, reaches_cfg hreach, ← hall, ht]
      simp [afterReplay, hidx]
    have hnone : t.hung = none := by
      rw [hhung, hall]
      simp
    have hexit : Reaches t (t.enter (settlePhaseOf c)) :=
      reaches_one hphase (progPhaseOf_ne_pReset c) hreset hnone (exec_prog_exit hsub hend)
    have hto := hreach.trans hexit
    exact ⟨_, hto, reaches_runInv hto hi, reaches_cfg hto, rfl, rfl, hreset, hnone, hacc⟩
  · have hlt : (replayAnswers c (imageFrames s.cfg c) s.env).length < (imageFrames s.cfg c).length :=
      lt_of_le_of_ne (replayAnswers_length_le ..) hwait
    refine ⟨t, hreach, reaches_runInv hreach hi, reaches_cfg hreach, ⟨c, hphase⟩, hreset, ?_,
      congrArg Account.lines hacc⟩
    rw [hhung, List.getElem?_eq_getElem hlt]
    rfl

/-- From a settle to the next replay. -/
theorem Stands.toReplay {p : Params} {c d : Chan} {a : Account} {s : State} {n : DelayName}
    {x : Params → Nat} (h : Stands p (settlePhaseOf c) a s)
    (he : ∀ u, exec (settlePhaseOf c).instr u = .next ((u.delay n (x u.cfg)).enterProg (progPhaseOf d))) :
    ∃ t, Reaches s t ∧ Stands p (progPhaseOf d) (a.note [.delay n (x p)]) t ∧ t.idx = 0 := by
  obtain ⟨hi, rfl, hp, hs, hr, hh, rfl⟩ := h
  have hreach := reaches_one hp (by cases c <;> exact Phase.noConfusion) hr hh (he s)
  exact ⟨_, hreach, ⟨reaches_runInv hreach hi, rfl, rfl, rfl, hr, hh, rfl⟩, rfl⟩

theorem closeEvents_allReady (p : Three ChanCfg) :
    closeEvents (allReady p) = [.close .cnd, .close .syn1, .close .syn2] := rfl

/-- A run that ended in P_DONE. -/
structure Finished (p : Params) (a : Account) (s : State) : Prop where
  inv : RunInv s
  cfg : s.cfg = p
  phase : s.phase = .pDone
  reset : s.pinReset = false
  account : account s = a

/-- The last settle, and the releases (rules R211, R212). -/
theorem reaches_done {p : Params} {a : Account} {s : State} (h : Stands p .pSettleSyn2 a s) :
    ∃ t, Reaches s t ∧ Finished p (a.note
      [.delay .interDev p.tInterDev, .close .cnd, .close .syn1, .close .syn2, .exit 0]) t := by
  obtain ⟨hi, rfl, hp, hs, hr, hh, rfl⟩ := h
  have hch : s.ch = allReady s.cfg.chans := by
    obtain ⟨-, -, hphase, -⟩ := hi
    exact ((phaseInv_settle (c := .syn2) hp).mp hphase).1
  have h1 := reaches_one hp Phase.noConfusion hr hh (closePhaseResult s).1
  have h2 := h1.trans (reaches_one rfl Phase.noConfusion hr hh (closePhaseResult _).2)
  refine ⟨_, h2, reaches_runInv h2 hi, rfl, rfl, hr, ?_⟩
  simp [account, Account.note, Account.log, hch, closeEvents_allReady]

/-! ### The whole run (rules R217 to R219) -/

/-- The account of a run at the start of the conditioner's image. -/
def cndAccount (s : State) : Account := (accountAfterLines s).opened s.cfg

/-- The account at the start of the first synthesizer's image. -/
def syn1Account (s : State) : Account :=
  ((cndAccount s).replayed s.cfg .cnd).note [.delay .postCnd s.cfg.tPostCnd]

/-- The account at the start of the second synthesizer's image. -/
def syn2Account (s : State) : Account :=
  ((syn1Account s).replayed s.cfg .syn1).note [.delay .interDev s.cfg.tInterDev]

/-- The account of a run that reaches P_DONE. -/
def doneAccount (s : State) : Account :=
  ((syn2Account s).replayed s.cfg .syn2).note
    [.delay .interDev s.cfg.tInterDev, .close .cnd, .close .syn1, .close .syn2, .exit 0]

/-- Every transfer of the three images is answered. -/
def AllAnswered (s : State) : Prop :=
  Answered s.cfg .cnd (cndAccount s) ∧ Answered s.cfg .syn1 (syn1Account s) ∧
    Answered s.cfg .syn2 (syn2Account s)

/-- From the first image to the end. -/
theorem decides_images {s t : State} (h : Stands s.cfg .pProgCnd (cndAccount s) t) (hidx : t.idx = 0) :
    Decides (Waits s.cfg (s.lines.map lineDone)) (AllAnswered s) t (Finished s.cfg (doneAccount s)) := by
  have hcnd := (decides_replay (c := .cnd) h hidx).reach fun _ hu =>
    hu.toReplay (d := .syn1) (x := Params.tPostCnd) exec_pSettleCnd
  refine hcnd.bind fun t1 ⟨h1, i1⟩ => ?_
  have hsyn1 := (decides_replay (c := .syn1) h1 i1).reach fun _ hu =>
    hu.toReplay (d := .syn2) (x := Params.tInterDev) exec_pSettleSyn1
  refine hsyn1.bind fun t2 ⟨h2, i2⟩ => ?_
  exact (decides_replay (c := .syn2) h2 i2).reach fun _ hu => reaches_done hu

/-- A run that starts with the setup answered well. -/
theorem decides_run {s : State} (h : AtStart s) (hok : SetupAnsweredOk s) :
    Decides (Waits s.cfg (s.lines.map lineDone)) (AllAnswered s) s (Finished s.cfg (doneAccount s)) := by
  obtain ⟨t, hst, ht, hidx⟩ := (decides_setup h).1 hok
  exact .of_reaches hst (decides_images ht hidx)

/-- No frame goes out in a run that ends in P_FAULT. -/
theorem busTraceAll_of_faulted {s t : State} {n : Nat} (h : AtStart s) (hst : Reaches s t)
    (ht : Faulted n t) : busTraceAll t.trace = [] := by
  obtain ⟨-, -, -, -, ho, -, htr, -⟩ := h
  have h0 : NoFrameBeforeFault s := ⟨ho, fun _ => by rw [htr]; rfl⟩
  exact (reaches_keep noFrameBeforeFaultKept hst h0).2 (by rw [ht.phase]; rfl)

/-- The trace of a run that reaches P_DONE is the one written out. -/
theorem doneAccount_trace (s : State) : (doneAccount s).trace = bringUpTrace s.cfg s.lines
    (replayAnswers .cnd (imageFrames s.cfg .cnd) (cndAccount s).env)
    (replayAnswers .syn1 (imageFrames s.cfg .syn1) (syn1Account s).env)
    (replayAnswers .syn2 (imageFrames s.cfg .syn2) (syn2Account s).env) := by
  simp only [doneAccount, Account.note, Account.log, Account.replayed, syn2Account, syn1Account,
    cndAccount, Account.opened, Account.channel, accountAfterLines, bringUpTrace, List.append_assoc,
    List.cons_append, List.nil_append]

theorem doneAccount_errs (s : State) : (doneAccount s).errs = s.txnErrCount +
    ((replayAnswers .cnd (imageFrames s.cfg .cnd) (cndAccount s).env ++
      replayAnswers .syn1 (imageFrames s.cfg .syn1) (syn1Account s).env ++
      replayAnswers .syn2 (imageFrames s.cfg .syn2) (syn2Account s).env).filter failed).length := by
  rw [List.filter_append, List.filter_append, List.length_append, List.length_append, ← Nat.add_assoc,
    ← Nat.add_assoc]
  rfl

theorem Finished.exitStatus {p : Params} {a : Account} {s : State} (h : Finished p a s) :
    s.exitStatus = some 0 := by
  obtain ⟨-, -, -, -, hx⟩ := h.inv
  rw [hx, h.phase]

theorem Faulted.exitStatus {n : Nat} {s : State} (h : Faulted n s) :
    s.exitStatus = some s.cfg.exitFatal := by
  obtain ⟨-, -, -, -, hx⟩ := h.inv
  rw [hx, h.phase]

theorem Waits.exitStatus {p : Params} {ls : List Line} {s : State} (h : Waits p ls s) :
    s.exitStatus = none := by
  obtain ⟨-, -, -, -, hx⟩ := h.inv
  obtain ⟨c, hp⟩ := h.phase
  rw [hx, hp]
  cases c <;> rfl

/-- Settles O59: the setup decides between the images and P_FAULT, the images between P_DONE and a
transfer waited for. -/
theorem bringUpRunEnds : Obligations.BringUpRunEnds := by
  intro s h frames e0 r0 e1 r1 e2 r2 answered
  have hiff : answered ↔ AllAnswered s := Iff.rfl
  by_cases hok : SetupAnsweredOk s
  · by_cases hans : answered
    · obtain ⟨t, ⟨n, hn⟩, ht⟩ := (decides_run h hok).1 (hiff.mp hans)
      refine ⟨n, t, hn, step_ended ((ended_iff t).mpr (.inl ht.phase)) ht.reset, ht.cfg,
        fun _ _ => ⟨ht.phase, ht.exitStatus, congrArg Account.lines ht.account, ?_, ?_, ?_⟩,
        fun _ hno => absurd hans hno, fun hno => absurd hok hno⟩
      · exact (congrArg Account.trace ht.account).trans (doneAccount_trace s)
      · exact (congrArg Account.errs ht.account).trans (doneAccount_errs s)
      · exact congrArg Account.env ht.account
    · obtain ⟨t, ⟨n, hn⟩, ht⟩ := (decides_run h hok).2 (hans ∘ hiff.mpr)
      obtain ⟨c, hp⟩ := ht.phase
      refine ⟨n, t, hn, step_waiting ht.reset ht.hung, ht.cfg, fun _ hyes => absurd hyes hans,
        fun _ _ => ⟨?_, ?_, ht.exitStatus, ht.hung, ht.lines⟩, fun hno => absurd hok hno⟩
      · rw [State.done, hp]
        cases c <;> rfl
      · rw [State.fault, hp]
        cases c <;> rfl
  · obtain ⟨t, hst, ht⟩ := (decides_setup h).2 hok
    have hcfg : t.cfg = s.cfg := reaches_cfg hst
    have htr := busTraceAll_of_faulted h hst ht
    obtain ⟨n, hn⟩ := hst
    exact ⟨n, t, hn, step_ended ((ended_iff t).mpr (.inr ht.phase)) ht.reset, hcfg,
      fun hyes => absurd hyes hok, fun hyes => absurd hyes hok,
      fun _ => ⟨ht.phase, hcfg ▸ ht.exitStatus, htr, ht.errs⟩⟩

/-! ### The ideal device (rule R52) -/

section ideal
variable {e : Env} (h : e.kind = .ideal)
include h

theorem afterCfgSet_ideal : e.afterCfgSet = e := by
  cases e
  simp_all [Env.afterCfgSet, queueAfter, drawsAfter]

theorem afterCfgGet_ideal : e.afterCfgGet = e := by
  cases e
  simp_all [Env.afterCfgGet, queueAfter, drawsAfter]

theorem linesAnsweredOk_ideal (ls : List Line) : linesAnsweredOk ls e ∧ envAfterLines ls e = e := by
  induction ls with
  | nil => exact ⟨trivial, rfl⟩
  | cons l ls ih =>
    rw [linesAnsweredOk, envAfterLines, afterLineExport_ideal h, afterLineSetDir_ideal h]
    exact ⟨⟨lineExportAns_ideal h _, lineSetDirAns_ideal h _, ih.1⟩, ih.2⟩

theorem cfgAnsweredOk_ideal (p : Params) (c : Chan) (ws : List CfgWhich) :
    cfgAnsweredOk p c ws e ∧ envAfterCfg ws e = e := by
  induction ws with
  | nil => exact ⟨trivial, rfl⟩
  | cons w ws ih =>
    obtain ⟨hset, hget⟩ := Bus.verifyRes_verified_iff.mp (verifyRes_ideal h c w ((p.chans.get c).value w))
    rw [cfgAnsweredOk, envAfterCfg]
    refine ⟨⟨hset, hget, ?_⟩, ?_⟩ <;> rw [afterCfgSet_ideal h, afterCfgGet_ideal h]
    · exact ih.1
    · exact ih.2

theorem opensAnsweredOk_ideal (p : Params) (cs : List Chan) :
    opensAnsweredOk p cs e ∧ envAfterOpens cs e = e := by
  induction cs with
  | nil => exact ⟨trivial, rfl⟩
  | cons c cs ih =>
    rw [opensAnsweredOk, envAfterOpens, afterChanOpen_ideal h, (cfgAnsweredOk_ideal h p c cfgOrder).2]
    exact ⟨⟨chanOpenAns_ideal h _, (cfgAnsweredOk_ideal h p c cfgOrder).1, ih.1⟩, ih.2⟩

end ideal

theorem idealStore_kind (e : Env) (c : Chan) (f : Frame) : (e.idealStore c f).kind = e.kind := by
  unfold Env.idealStore
  cases c <;> dsimp only <;> split <;> rfl

/-- The ideal device replies with zeros to every frame of an image: none of them is a read. -/
theorem idealReply_image {p : Params} {c : Chan} {f : Frame} (e : Env) (hf : f ∈ imageFrames p c) :
    e.idealReply c f = ⟨0, 0, 0⟩ := by
  cases c with
  | cnd =>
    obtain ⟨a, d, rfl⟩ := Invariants.exists_cndEncWr_of_mem_imageFrames hf
    simp [Env.idealReply, Config.cndRwRead]
  | syn1 => rfl
  | syn2 => rfl

/-- A reply of zeros to each frame. -/
def zeros (fs : List Frame) : List XferRes := fs.map fun _ => .ok ⟨0, 0, 0⟩

/-- The ideal device answers every frame of an image with zeros. -/
theorem replayAnswers_ideal {p : Params} {c : Chan} (fs : List Frame) {e : Env} (h : e.kind = .ideal)
    (hfs : ∀ f ∈ fs, f ∈ imageFrames p c) :
    replayAnswers c fs e = zeros fs ∧ (envAfterReplay c fs e).kind = .ideal := by
  induction fs generalizing e with
  | nil => exact ⟨rfl, h⟩
  | cons f fs ih =>
    obtain ⟨hf, hfs⟩ := List.forall_mem_cons.mp hfs
    have hans : e.xferAns c f = some (.ok ⟨0, 0, 0⟩) := by
      rw [xferAns_ideal h, idealReply_image e hf]
    have hkind : (envAnswered c f (.ok ⟨0, 0, 0⟩) e).kind = .ideal := by
      rw [envAnswered_ok, afterXfer_ideal h, idealStore_kind, h]
    obtain ⟨hrs, hk⟩ := ih hkind hfs
    constructor
    · rw [replayAnswers, hans]
      exact congrArg _ hrs
    · rw [envAfterReplay, hans]
      exact hk

theorem failed_zeros (fs : List Frame) : (zeros fs).filter failed = [] := by
  simp [zeros, failed]

/-- A replay with no failed transfer records no error. -/
theorem lastDiag_replayEvents (c : Chan) (gap : Nat) (ps : List (Frame × XferRes)) (i : Nat)
    (h : ∀ q ∈ ps, failed q.2 = false) : lastDiag (replayEvents c gap i ps) = none := by
  induction ps generalizing i with
  | nil => rfl
  | cons q ps ih =>
    obtain ⟨hq, hps⟩ := List.forall_mem_cons.mp h
    have hrest := ih (i + 1) hps
    unfold lastDiag at hrest ⊢
    simpa [replayEvents, entryEvents, hq] using hrest

theorem lastDiag_zeros (c : Chan) (gap i : Nat) (fs gs : List Frame) :
    lastDiag (replayEvents c gap i (fs.zip (zeros gs))) = none := by
  refine lastDiag_replayEvents c gap _ i fun q hq => ?_
  obtain ⟨f, r⟩ := q
  obtain ⟨g, -, rfl⟩ := List.mem_map.mp (List.of_mem_zip hq).2
  rfl

/-- The account of a replay with the ideal device. -/
theorem replayed_ideal {a : Account} (p : Params) (c : Chan) (h : a.env.kind = .ideal) :
    Answered p c a ∧ (a.replayed p c).env.kind = .ideal ∧ (a.replayed p c).errs = a.errs ∧
      (a.replayed p c).lastErr = a.lastErr ∧ (a.replayed p c).lines = a.lines := by
  obtain ⟨hrs, hk⟩ := replayAnswers_ideal (p := p) (c := c) (imageFrames p c) h fun _ hf => hf
  refine ⟨?_, hk, ?_, ?_, rfl⟩
  · rw [Answered, hrs]
    exact List.length_map _
  · rw [Account.replayed]
    simp only [hrs, failed_zeros, List.length_nil, Nat.add_zero]
  · rw [Account.replayed]
    simp only [hrs, imageEvents, lastDiag_zeros, Option.none_or]

/-- Settles O60: the ideal device answers every question well, and every frame with zeros. -/
theorem cleanRunTrace : Obligations.CleanRunTrace := by
  intro s h hk
  obtain ⟨hlines, henv⟩ := linesAnsweredOk_ideal hk s.lines
  obtain ⟨hopens, henv'⟩ := opensAnsweredOk_ideal hk s.cfg chanOrder
  have hok : SetupAnsweredOk s := ⟨hlines, by rw [henv]; exact hopens⟩
  have h0 : (cndAccount s).env.kind = .ideal := by
    have : (cndAccount s).env = envAfterOpens chanOrder (envAfterLines s.lines s.env) := rfl
    rw [this, henv, henv', hk]
  obtain ⟨a0, k0, n0, d0, -⟩ := replayed_ideal s.cfg .cnd h0
  obtain ⟨a1, k1, n1, d1, -⟩ := replayed_ideal (a := syn1Account s) s.cfg .syn1 k0
  obtain ⟨a2, -, n2, d2, -⟩ := replayed_ideal (a := syn2Account s) s.cfg .syn2 k1
  obtain ⟨t, ⟨n, hn⟩, ht⟩ := (decides_run h hok).1 ⟨a0, a1, a2⟩
  refine ⟨n, t, hn, ht.phase, ht.exitStatus, ?_, ?_, ?_, congrArg Account.lines ht.account⟩
  · exact (congrArg Account.errs ht.account).trans (n2.trans (n1.trans n0))
  · exact (congrArg Account.lastErr ht.account).trans (d2.trans (d1.trans d0))
  · rw [show t.trace = _ from congrArg Account.trace ht.account, doneAccount_trace, cleanTrace]
    have zero : ∀ (c : Chan) (e : Env), e.kind = .ideal →
        replayAnswers c (imageFrames s.cfg c) e = zeroReplies s.cfg c := fun c e he =>
      (replayAnswers_ideal (imageFrames s.cfg c) he fun _ hf => hf).1
    rw [zero .cnd _ h0, zero .syn1 (syn1Account s).env k0, zero .syn2 (syn2Account s).env k1]

end Sys2Proof.Proofs.WholeRun
end

section
/-!
PROOFS. No result depends on a duration (rule R280): every operation does the same to the state with its
durations erased, and only `S.DELAY` is given a duration of its own.
-/

namespace Sys2Proof.Proofs.Durations

open Sys2Proof.Machine Sys2Proof.Safety Sys2Proof.Laws Sys2Proof.Proofs

/-! ### Erasing -/

/-- An effect with the durations of its state erased. -/
def eraseEff (e : Eff) : Eff := ⟨eraseDurations e.st, e.go⟩

theorem eraseEvent_idem (ev : Event) : eraseEvent (eraseEvent ev) = eraseEvent ev := by
  cases ev <;> rfl

theorem eraseDurations_idem (s : State) : eraseDurations (eraseDurations s) = eraseDurations s := by
  simp [eraseDurations, eraseParams, eraseLine, eraseEvent_idem, Function.comp_def]

theorem eraseOutcome_idem (o : Host.Outcome State Fault Refusal) :
    eraseOutcome (eraseOutcome o) = eraseOutcome o := by
  cases o with
  | next s => exact congrArg Host.Outcome.next (eraseDurations_idem s)
  | fault f => rfl
  | refused r => rfl

theorem guarded_erase (stop : Option Stop) (s : State) :
    guarded stop (eraseDurations s) = eraseOutcome (guarded stop s) := by
  rcases stop with - | (f | r) <;> rfl

theorem andThen_erase {f : State → Eff} (e : Eff)
    (hf : ∀ s, f (eraseDurations s) = eraseEff (f s)) :
    (eraseEff e).andThen f = eraseEff (e.andThen f) := by
  obtain ⟨s, _ | _⟩ := e
  · rfl
  · exact hf s

theorem update_erase {f : State → State} (e : Eff)
    (hf : ∀ s, f (eraseDurations s) = eraseDurations (f s)) :
    (eraseEff e).update f = eraseDurations (e.update f) := by
  obtain ⟨s, _ | _⟩ := e
  · rfl
  · exact hf s

/-- A guarded effect. -/
theorem guarded_st_erase {stop : Option Stop} {e e' : Eff} (h : e' = eraseEff e) :
    guarded stop e'.st = eraseOutcome (guarded stop e.st) := by
  rw [h]
  exact guarded_erase _ _

/-- A guarded effect with what follows it. -/
theorem guarded_update_erase {stop : Option Stop} {e e' : Eff} {f : State → State} (h : e' = eraseEff e)
    (hf : ∀ s, f (eraseDurations s) = eraseDurations (f s)) :
    guarded stop (e'.update f) = eraseOutcome (guarded stop (e.update f)) := by
  rw [h, update_erase e hf, guarded_erase]

section operations
variable (s : State)

@[simp] theorem erase_lines_get (k : Nat) :
    (eraseDurations s).lines[k]? = (s.lines[k]?).map eraseLine := List.getElem?_map ..

@[simp] theorem erase_nLines : (eraseDurations s).nLines = s.nLines := List.length_map _

/-! ### The shared operations -/

/-- Recording an event that is no delay. -/
theorem emit_erase {ev : Event} (h : eraseEvent ev = ev) :
    (eraseDurations s).emit ev = eraseDurations (s.emit ev) := by
  simp [State.emit, eraseDurations, h]

/-- A delay of 0 is any delay erased. -/
theorem delay_erase (n : DelayName) (x : Nat) :
    (eraseDurations s).delay n 0 = eraseDurations (s.delay n x) := by
  simp [State.delay, State.emit, eraseDurations, eraseEvent]

theorem modifyLine_erase (k : Nat) {f : Line → Line} (hf : ∀ l, f (eraseLine l) = eraseLine (f l)) :
    (eraseDurations s).modifyLine k f = eraseDurations (s.modifyLine k f) := by
  have h : (s.lines.map eraseLine).modify k f = (s.lines.modify k f).map eraseLine := by
    refine List.ext_getElem? fun j => ?_
    simp only [List.getElem?_modify, List.getElem?_map]
    cases s.lines[j]? <;> by_cases hk : k = j <;> simp [hk, hf]
  simp [State.modifyLine, eraseDurations, h]

theorem eraseEvent_closeEvents (ch : Three Channel) :
    (closeEvents ch).map eraseEvent = closeEvents ch := by
  simp [closeEvents, Function.comp_def, eraseEvent]

theorem afterFatal_erase (d : Diag) :
    afterFatal (eraseDurations s) d = eraseDurations (afterFatal s d) := by
  simp [afterFatal, eraseDurations, eraseEvent_closeEvents, eraseEvent, eraseParams]

theorem raise_erase (d : Diag) : (eraseDurations s).raise d = eraseDurations (s.raise d) := by
  rw [raise_eq, raise_eq, afterFatal_erase]

theorem report_erase (d : Diag) : (eraseDurations s).report d = eraseDurations (s.report d) := by
  simp [State.report, State.record, State.emit, eraseDurations, eraseEvent]

theorem blockReset_erase : (eraseDurations s).blockReset = eraseDurations s.blockReset := by
  simp [State.blockReset, eraseDurations, eraseLine, Function.comp_def]

/-! ### The lines -/

theorem lineId_erase (k : Nat) : (eraseDurations s).lineId k = s.lineId k := by
  unfold State.lineId
  rw [erase_lines_get]
  cases s.lines[k]? <;> rfl

theorem exportStop_erase (k : Nat) : exportStop k (eraseDurations s) = exportStop k s := by
  simp [exportStop]

theorem dirStop_erase (k : Nat) : dirStop k (eraseDurations s) = dirStop k s := by
  unfold dirStop
  rw [erase_lines_get]
  cases s.lines[k]? <;> rfl

theorem levelStop_erase (k : Nat) : levelStop k (eraseDurations s) = levelStop k s := by
  unfold levelStop
  rw [erase_lines_get]
  cases s.lines[k]? <;> rfl

theorem exportEff_erase (k : Nat) : exportEff k (eraseDurations s) = eraseEff (exportEff k s) := by
  have hs : ∀ a, ((eraseDurations s).setEnv s.env.afterLineExport).emit (.lineExport k a) =
      eraseDurations ((s.setEnv s.env.afterLineExport).emit (.lineExport k a)) :=
    fun a => emit_erase (s.setEnv s.env.afterLineExport) rfl
  unfold exportEff
  rw [lineId_erase, show (eraseDurations s).env = s.env from rfl]
  dsimp only
  rw [hs]
  cases s.env.lineExportAns (s.lineId k) with
  | ok => exact congrArg (Eff.mk · true) (modifyLine_erase _ k fun _ => rfl)
  | fail => exact congrArg (Eff.mk · false) (raise_erase _ _)

theorem dirEff_erase (k : Nat) : dirEff k (eraseDurations s) = eraseEff (dirEff k s) := by
  have hs : ∀ a, ((eraseDurations s).setEnv s.env.afterLineSetDir).emit (.lineDir k a) =
      eraseDurations ((s.setEnv s.env.afterLineSetDir).emit (.lineDir k a)) :=
    fun a => emit_erase (s.setEnv s.env.afterLineSetDir) rfl
  unfold dirEff
  rw [lineId_erase, show (eraseDurations s).env = s.env from rfl]
  dsimp only
  rw [hs]
  cases s.env.lineSetDirAns (s.lineId k) with
  | ok => exact congrArg (Eff.mk · true) (modifyLine_erase _ k fun _ => rfl)
  | fail => exact congrArg (Eff.mk · false) (raise_erase _ _)

theorem levelLine_erase (k : Nat) (v : Bool) :
    (eraseDurations s).levelLine k v = eraseDurations (s.levelLine k v) := by
  rw [State.levelLine, emit_erase s rfl]
  exact modifyLine_erase _ k fun _ => rfl

theorem applyPolicy_erase (k : Nat) :
    (eraseDurations s).applyPolicy k = eraseDurations (s.applyPolicy k) := by
  unfold State.applyPolicy
  rw [erase_lines_get]
  cases s.lines[k]? with
  | none => rfl
  | some l =>
    simp only [Option.map_some]
    have hp : (eraseLine l).cfg.policy = l.cfg.policy := rfl
    rw [hp]
    cases l.cfg.policy with
    | pulse =>
      simp only [levelLine_erase]
      rw [show (eraseLine l).cfg.tPulse = 0 from rfl, delay_erase _ _ l.cfg.tPulse, levelLine_erase]
    | static v => exact levelLine_erase s k v

theorem initLineEff_erase (k : Nat) :
    initLineEff k (eraseDurations s) = eraseEff (initLineEff k s) := by
  unfold initLineEff
  rw [exportEff_erase, andThen_erase _ fun u => dirEff_erase u k,
    andThen_erase _ fun u => congrArg (Eff.mk · true) (applyPolicy_erase u k)]

theorem initLinesFrom_erase (n : Nat) : ∀ (k : Nat) (s : State),
    initLinesFrom n k (eraseDurations s) = eraseEff (initLinesFrom n k s) := by
  induction n with
  | zero => exact fun _ _ => rfl
  | succ n ih =>
    intro k s
    rw [initLinesFrom, initLineEff_erase, andThen_erase _ fun u => ih (k + 1) u, initLinesFrom]

/-! ### The transport -/

theorem openEff_erase (c : Chan) : openEff c (eraseDurations s) = eraseEff (openEff c s) := by
  have hs : ∀ a, ((eraseDurations s).setEnv s.env.afterChanOpen).emit (.chanOpen c a) =
      eraseDurations ((s.setEnv s.env.afterChanOpen).emit (.chanOpen c a)) :=
    fun a => emit_erase (s.setEnv s.env.afterChanOpen) rfl
  unfold openEff
  rw [show (eraseDurations s).env = s.env from rfl, show (eraseDurations s).cfg.chans = s.cfg.chans from rfl]
  dsimp only
  rw [hs]
  cases s.env.chanOpenAns (s.cfg.chans.get c).path with
  | ok => rfl
  | fail => exact congrArg (Eff.mk · false) (raise_erase _ _)

theorem cfgEff_erase (c : Chan) (w : CfgWhich) :
    cfgEff c w (eraseDurations s) = eraseEff (cfgEff c w s) := by
  have hs : ∀ v e r, ((eraseDurations s).setEnv e).emit (.cfg c w v r) =
      eraseDurations ((s.setEnv e).emit (.cfg c w v r)) := fun v e r => emit_erase (s.setEnv e) rfl
  unfold cfgEff
  rw [show (eraseDurations s).env = s.env from rfl, show (eraseDurations s).cfg.chans = s.cfg.chans from rfl]
  dsimp only
  rw [hs]
  split
  · rfl
  · exact congrArg (Eff.mk · false) (raise_erase _ _)

theorem rxAfter_erase (r : XferRes) : rxAfter r (eraseDurations s) = eraseDurations (rxAfter r s) := by
  cases r <;> rfl

theorem xferEff_erase (c : Chan) (f : Frame) {caller : XferRes → State → State}
    (hc : ∀ r u, caller r (eraseDurations u) = eraseDurations (caller r u)) :
    xferEff c f (eraseDurations s) caller = eraseEff (xferEff c f s caller) := by
  have hs : ∀ r, ((eraseDurations s).setEnv (s.env.afterXfer c f)).emit (.xfer c f r) =
      eraseDurations ((s.setEnv (s.env.afterXfer c f)).emit (.xfer c f r)) :=
    fun r => emit_erase (s.setEnv (s.env.afterXfer c f)) rfl
  unfold xferEff
  rw [show (eraseDurations s).env = s.env from rfl]
  cases s.env.xferAns c f with
  | none => rfl
  | some r =>
    dsimp only
    rw [hs, rxAfter_erase, hc]
    rfl

theorem returnXfer_erase (r : XferRes) :
    returnXfer r (eraseDurations s) = eraseDurations (returnXfer r s) := rfl

theorem returnRead_erase (r : XferRes) :
    returnRead r (eraseDurations s) = eraseDurations (returnRead r s) := by
  cases r <;> rfl

theorem xferStop_erase (c : Chan) : xferStop c (eraseDurations s) = xferStop c s := rfl

theorem sendFrame_erase (c : Chan) (f : Frame) {caller : XferRes → State → State}
    (hc : ∀ r u, caller r (eraseDurations u) = eraseDurations (caller r u)) :
    sendFrame c f caller (eraseDurations s) = eraseOutcome (sendFrame c f caller s) := by
  have h := xferEff_erase { s with txf := f } c f hc
  have hst : (xferEff c f { eraseDurations s with txf := f } caller).st = eraseDurations _ :=
    congrArg Eff.st h
  unfold sendFrame
  dsimp only
  rw [hst, guarded_erase]
  rfl

/-! ### The sequencer -/

theorem loadEntry_erase (c : Chan) :
    (eraseDurations s).loadEntry c = (s.loadEntry c).map eraseDurations := by
  have hcnd : (eraseDurations s).cfg.cndImage = s.cfg.cndImage := rfl
  have hsyn : (eraseDurations s).cfg.synImage = s.cfg.synImage := rfl
  have hidx : (eraseDurations s).idx = s.idx := rfl
  cases c with
  | cnd =>
    simp only [State.loadEntry, hcnd, hidx]
    cases s.cfg.cndImage[s.idx]? <;> rfl
  | syn1 =>
    simp only [State.loadEntry, hsyn, hidx]
    cases s.cfg.synImage[s.idx]? <;> rfl
  | syn2 =>
    simp only [State.loadEntry, hsyn, hidx]
    cases s.cfg.synImage[s.idx]? <;> rfl

theorem afterEntry_erase (c : Chan) (r : XferRes) :
    afterEntry c r (eraseDurations s) = eraseDurations (afterEntry c r s) := by
  have hrep := report_erase s (diagTransaction c s.idx)
  cases r with
  | ok y => rfl
  | short n => exact congrArg (fun u : State => { u with sub := .s1 }) hrep
  | fail => exact congrArg (fun u : State => { u with sub := .s1 }) hrep

theorem xferSubEff_erase (c : Chan) :
    xferSubEff c (eraseDurations s) = eraseEff (xferSubEff c s) := by
  unfold xferSubEff
  rw [loadEntry_erase]
  cases s.loadEntry c with
  | none => rfl
  | some u => exact xferEff_erase u c u.txf fun r v => afterEntry_erase v c r

theorem imageLength_erase (c : Chan) : (eraseDurations s).imageLength c = s.imageLength c := by
  cases c <;> rfl

theorem xferSubStop_erase (c : Chan) : xferSubStop c (eraseDurations s) = xferSubStop c s := by
  unfold xferSubStop
  rw [imageLength_erase, xferStop_erase]
  rfl

theorem gap_erase (c : Chan) : (eraseDurations s).gap c = eraseDurations (s.gap c) := by
  have hz : (eraseDurations s).cfg.tTxn.get c = 0 := by cases c <;> rfl
  rw [State.gap, hz, delay_erase s _ (s.cfg.tTxn.get c)]
  rfl

theorem replayEff_erase (c : Chan) (n : Nat) : ∀ s : State,
    replayEff c n (eraseDurations s) = eraseEff (replayEff c n s) := by
  induction n with
  | zero => exact fun _ => rfl
  | succ n ih =>
    intro s
    have hentry : entryEff c (eraseDurations s) = eraseEff (entryEff c s) := by
      unfold entryEff
      rw [xferSubEff_erase, andThen_erase _ fun u => congrArg (Eff.mk · true) (gap_erase u c)]
    rw [replayEff, hentry, andThen_erase _ ih, replayEff]

/-! ### The phases -/

theorem execPReset_erase : execPReset (eraseDurations s) = eraseOutcome (execPReset s) := by
  unfold execPReset
  rw [erase_nLines]
  change (if s.pinStart then if s.cfg.readbackEnable then _ else _ else _) = _
  split
  · split <;> rfl
  · rfl

theorem nextLine_erase : (eraseDurations s).nextLine = eraseDurations s.nextLine := by
  unfold State.nextLine
  rw [erase_nLines]
  change (if s.li + 1 < s.nLines then _ else _) = _
  split <;> rfl

theorem afterLevelA_erase (p : Policy) :
    (eraseDurations s).afterLevelA p = eraseDurations (s.afterLevelA p) := by
  cases p with
  | pulse => rfl
  | static v => exact nextLine_erase s

theorem execPLines_erase : execPLines (eraseDurations s) = eraseOutcome (execPLines s) := by
  have hli : (eraseDurations s).li = s.li := rfl
  unfold execPLines
  rw [hli, show (eraseDurations s).sub = s.sub from rfl, erase_lines_get]
  cases s.lines[s.li]? with
  | none => cases s.sub <;> rfl
  | some l =>
    cases s.sub
    case s0 =>
      simp only [Option.map_some]
      rw [exportStop_erase]
      exact guarded_update_erase (exportEff_erase s _) fun _ => rfl
    case s1 =>
      simp only [Option.map_some]
      rw [dirStop_erase]
      exact guarded_update_erase (dirEff_erase s _) fun _ => rfl
    case s2 =>
      simp only [Option.map_some]
      rw [levelStop_erase, levelLine_erase, show (eraseLine l).cfg.policy = l.cfg.policy from rfl,
        afterLevelA_erase, guarded_erase]
    case s3 =>
      simp only [Option.map_some]
      rw [show (eraseLine l).cfg.tPulse = 0 from rfl, delay_erase s _ l.cfg.tPulse]
      rfl
    case s4 =>
      simp only [Option.map_some]
      rw [levelStop_erase, levelLine_erase, nextLine_erase, guarded_erase]

theorem nextChannel_erase : (eraseDurations s).nextChannel = eraseDurations s.nextChannel := by
  unfold State.nextChannel
  change (match s.ci with | .cnd => _ | .syn1 => _ | .syn2 => _) = _
  cases s.ci <;> rfl

theorem execPOpen_erase : execPOpen (eraseDurations s) = eraseOutcome (execPOpen s) := by
  unfold execPOpen
  rw [show (eraseDurations s).sub = s.sub from rfl, show (eraseDurations s).ci = s.ci from rfl]
  cases s.sub <;> dsimp only
  case s0 => exact guarded_update_erase (openEff_erase s _) fun _ => rfl
  case s1 => exact guarded_update_erase (cfgEff_erase s _ _) fun _ => rfl
  case s2 => exact guarded_update_erase (cfgEff_erase s _ _) fun _ => rfl
  case s3 => exact guarded_update_erase (cfgEff_erase s _ _) nextChannel_erase
  case s4 => rfl

theorem progPhase_erase (p : Phase) (c : Chan) (q : Phase) :
    progPhase p c q (eraseDurations s) = eraseOutcome (progPhase p c q s) := by
  unfold progPhase
  rw [show (eraseDurations s).sub = s.sub from rfl, show (eraseDurations s).idx = s.idx from rfl,
    imageLength_erase]
  cases s.sub <;> dsimp only
  case s0 =>
    split
    · rfl
    · rw [xferSubStop_erase]
      exact guarded_st_erase (xferSubEff_erase s c)
  case s1 =>
    rw [gap_erase]
    rfl
  all_goals rfl

/-- The releases and the exit of P_CLOSE. -/
theorem finish_erase : (eraseDurations s).closeAll.finish 0 .pDone =
    eraseDurations (s.closeAll.finish 0 .pDone) := by
  rw [closeAll_eq, closeAll_eq]
  simp [State.finish, State.emit, eraseDurations, eraseEvent_closeEvents, eraseEvent]

/-! ### Every instruction, and the step -/

/-- Only `S.DELAY` is given its duration by the caller. -/
def durationFree : Instr → Bool
  | .sDelay _ _ => false
  | _ => true

theorem exec_erase {i : Instr} (h : durationFree i = true) :
    exec i (eraseDurations s) = eraseOutcome (exec i s) := by
  cases i with
  | cndEncWr a d => rfl
  | cndEncRd a => rfl
  | cndParse f => rfl
  | cndRdValue f => rfl
  | synSplit w => rfl
  | synJoin f => rfl
  | synFields w => rfl
  | synPack a b c => rfl
  | cndWr a d => exact sendFrame_erase s _ _ fun r u => returnXfer_erase u r
  | cndRd a => exact sendFrame_erase s _ _ fun r u => returnRead_erase u r
  | synWr n a d => exact sendFrame_erase s _ _ fun r u => returnXfer_erase u r
  | synRd n a d => exact sendFrame_erase s _ _ fun r u => returnXfer_erase u r
  | tXfer c f => exact guarded_st_erase (xferEff_erase s c f fun r u => returnXfer_erase u r)
  | tOpen c => exact guarded_st_erase (openEff_erase s c)
  | tCfgMode c => exact guarded_st_erase (cfgEff_erase s c .mode)
  | tCfgBits c => exact guarded_st_erase (cfgEff_erase s c .bits)
  | tCfgHz c => exact guarded_st_erase (cfgEff_erase s c .hz)
  | tClose c =>
    have he : (eraseDurations s).closeCh c = eraseDurations (s.closeCh c) :=
      congrArg (fun u : State => u.setCh c { s.ch.get c with isOpen := false }) (emit_erase s rfl)
    exact (congrArg (guarded (closeStop c s)) he).trans (guarded_erase _ _)
  | lExport k =>
    rw [Lines.exec_lExport, Lines.exec_lExport, exportStop_erase]
    exact guarded_st_erase (exportEff_erase s k)
  | lDir k =>
    rw [Lines.exec_lDir, Lines.exec_lDir, dirStop_erase]
    exact guarded_st_erase (dirEff_erase s k)
  | lLevel k v =>
    rw [Lines.exec_lLevel, Lines.exec_lLevel, levelStop_erase, levelLine_erase]
    exact guarded_erase _ _
  | sProgram c =>
    have he : programEff c (eraseDurations s) = eraseEff (programEff c s) := by
      rw [programEff, imageLength_erase]
      exact replayEff_erase c _ { s with idx := 0, sub := .s0 }
    exact guarded_st_erase he
  | sInitLines =>
    have he : initLinesFrom (eraseDurations s).nLines 0 (eraseDurations s) =
        eraseEff (initLinesFrom s.nLines 0 s) := by
      rw [erase_nLines, initLinesFrom_erase]
    exact congrArg (fun e : Eff => Host.Outcome.next e.st) he
  | sDelay name d => cases h
  | sReadback =>
    change (if s.cfg.readbackEnable then _ else _) = eraseOutcome (if s.cfg.readbackEnable then _ else _)
    split <;> rfl
  | pReset => exact execPReset_erase s
  | pLines => exact execPLines_erase s
  | pOpen => exact execPOpen_erase s
  | pProgCnd => exact progPhase_erase s _ _ _
  | pProgSyn1 => exact progPhase_erase s _ _ _
  | pProgSyn2 => exact progPhase_erase s _ _ _
  | pLineSettle =>
    exact congrArg (fun u : State => Host.Outcome.next { u.enter .pOpen with ci := .cnd })
      (delay_erase s .lineSettle s.cfg.tLineSettle)
  | pSettleCnd =>
    exact congrArg (fun u : State => Host.Outcome.next (u.enterProg .pProgSyn1))
      (delay_erase s .postCnd s.cfg.tPostCnd)
  | pSettleSyn1 =>
    exact congrArg (fun u : State => Host.Outcome.next (u.enterProg .pProgSyn2))
      (delay_erase s .interDev s.cfg.tInterDev)
  | pSettleSyn2 =>
    exact congrArg (fun u : State => Host.Outcome.next (u.enter .pClose))
      (delay_erase s .interDev s.cfg.tInterDev)
  | pClose => exact congrArg Host.Outcome.next (finish_erase s)
  | pDone => rfl
  | pFault => rfl

/-- With the duration of an `S.DELAY` erased as well, every instruction does the same. -/
theorem exec_same (i : Instr) :
    eraseOutcome (exec i (eraseDurations s)) = eraseOutcome (exec i s) := by
  cases hi : durationFree i with
  | true => rw [exec_erase s hi, eraseOutcome_idem]
  | false =>
    cases i with
    | sDelay n x =>
      refine congrArg Host.Outcome.next ?_
      rw [← delay_erase _ n x, ← delay_erase s n x, eraseDurations_idem]
    | _ => cases hi

theorem taken_erase : (eraseDurations s).taken = eraseDurations s.taken := by
  unfold State.taken
  change (match s.request with | some _ => _ | none => _) = _
  cases s.request <;> rfl

end operations

/-- Settles O58: the step fetches the same instruction, and every instruction does the same. -/
theorem durationsChangeNothingElse : Obligations.DurationsChangeNothingElse := by
  intro s
  have hpin : (eraseDurations s).pinReset = s.pinReset := rfl
  have hwait : (eraseDurations s).waiting = s.waiting := rfl
  have hfetch : (eraseDurations s).fetch = s.fetch := rfl
  unfold step
  rw [hpin, hwait, hfetch, taken_erase, blockReset_erase]
  split
  · exact congrArg Host.Outcome.next (eraseDurations_idem _)
  · split
    · exact congrArg Host.Outcome.next (eraseDurations_idem _)
    · cases decode s.fetch.1 s.fetch.2 with
      | ok i => exact exec_same _ i
      | error e => rfl

end Sys2Proof.Proofs.Durations
end
